-- ==== Sys2Proof/Word.lean ====
section
/-! DEFINITION. The word types of the block and the plain records of bits and numbers that its
parameters, commands and queues are made of. -/

namespace Sys2Proof.Config

/-! ## The widths and counts the spec fixes that shape the types (00_scope.md R8); the others are in Config.lean -/

/-- `IDW`: identifier width. -/
@[simp] abbrev idw : Nat := 11
/-- `PAYLOAD`: payload bytes per frame. -/
@[simp] abbrev payload : Nat := 8
/-- `DLCW`: width of the length field in a mailbox. -/
@[simp] abbrev dlcw : Nat := 4
/-- `REGW`: register width. -/
@[simp] abbrev regw : Nat := 32
/-- `HALFW`: width of a filter half-word. -/
@[simp] abbrev halfw : Nat := 16
/-- `NBANKS`: filter banks. -/
@[simp] abbrev nBanks : Nat := 28
/-- `SUBREGS`: sub-registers per bank. -/
@[simp] abbrev subregs : Nat := 2
/-- `NTXMB`: transmit mailboxes. -/
@[simp] abbrev ntxmb : Nat := 1
/-- `NFIFO`: receive FIFOs. -/
@[simp] abbrev nfifo : Nat := 1

end Sys2Proof.Config

namespace Sys2Proof

/-- One register of the register space (10_state.md R21): 32 bits. -/
abbrev Word := BitVec Config.regw
/-- One half of a filter sub-register (10_state.md R36): 16 bits. -/
abbrev Half := BitVec Config.halfw
/-- One payload byte, a bitrate selector, or the 8-bit length field of a command (30_encoding.md R100). -/
abbrev Byte := BitVec 8
/-- An identifier, 0 to 2047 (00_scope.md R8, IDW = 11). -/
abbrev Ident := BitVec Config.idw
/-- A length code as a mailbox holds it (00_scope.md R8, DLCW = 4). -/
abbrev Dlc := BitVec Config.dlcw
/-- A command word or a response word (30_encoding.md R100, R108): 96 bits. -/
abbrev CmdWord := BitVec 96

/-- The eight payload bytes of a frame, byte `i` being `b<i>` (00_scope.md R8, PAYLOAD = 8). -/
structure Payload where
  b0 : Byte
  b1 : Byte
  b2 : Byte
  b3 : Byte
  b4 : Byte
  b5 : Byte
  b6 : Byte
  b7 : Byte
  deriving DecidableEq, Repr

/-- A frame on the bus side (10_state.md R46, 48_core_agent.md R243): 11-bit identifier, 4-bit length
code, eight bytes. -/
structure Frame where
  id : Ident
  dlc : Dlc
  data : Payload
  deriving DecidableEq, Repr

/-- A bitrate profile (40_bit_timing.md R140): the two time segments and the prescaler, as the plain
numbers the source gives, before they are coded into BTR. -/
structure Profile where
  ts1 : Nat
  ts2 : Nat
  brp : Nat
  deriving DecidableEq, Repr, Inhabited

/-- One filter bank: its two sub-registers (10_state.md R36). -/
structure Bank where
  r1 : Word
  r2 : Word
  deriving DecidableEq, Repr, Inhabited

/-- The filter state `FS` that the acceptance predicate looks at (48_core_agent.md R236). -/
structure FilterState where
  finit : Bool
  fmode : Word
  fscale : Word
  fact : Word
  banks : Vector Bank Config.nBanks
  deriving DecidableEq, Repr

end Sys2Proof
end

