-- ==== Sys2Proof/Config.lean ====
section
/-! DEFINITION. What is fixed for the machine: the numbers the spec fixes (00_scope.md R8), the parameters
it leaves open (R9) and the free values. An `opaque` constant has no body: nothing about it can be proved. -/

namespace Sys2Proof.Config

/-! ## Parameters the spec fixes (00_scope.md R8, R10); those of R8 that shape types are in Word.lean -/

/-- The identity string (00_scope.md R2, the spec's decision D1). -/
def identity : String := "CANCTL-1"
/-- `SLOTS_PER_BANK`: single-identifier slots per filter bank. -/
def slotsPerBank : Nat := 4
/-- `MAX_SLOTS`: saturation value of the cursor. -/
def maxSlots : Nat := 112
/-- `FIFO_DEPTH`: frames the receive FIFO holds. -/
def fifoDepth : Nat := 2
/-- `TX_POLL_BOUND`: most polls of the request bit in one TX (00_scope.md R8, D15). -/
def txPollBound : Nat := 1000000
/-- `TXID_SHIFT`: place of the identifier in TXID and RXID (00_scope.md R10, D12). -/
def txidShift : Nat := 21
/-- `FILT_SHIFT`: place of the identifier in a filter half (00_scope.md R10, D11). -/
def filtShift : Nat := 5

/-! ## Parameters the spec leaves open (00_scope.md R9) -/

/-- The greatest legal bitrate selector. The enumeration has at least one member (00_scope.md R9), so
`NBITRATES` is one more than this. -/
opaque maxSelector : Nat

/-- `NBITRATES`: the number of members of the bitrate enumeration, at least 1. -/
def nBitrates : Nat := maxSelector + 1

/-- `BT_TABLE`: the timing triple per selector (40_bit_timing.md R140, R142). Only selectors below
`NBITRATES` ever reach it. -/
opaque btTable : Byte → Profile

/-- `PCLK`: the peripheral clock the table was validated against, in Hz (00_scope.md R9). -/
opaque pclk : Nat

/-- The nominal bit rate of a member of the bitrate enumeration, in bit/s (40_bit_timing.md R142 (b)). -/
opaque nominalRate : Byte → Nat

/-- What `ACCEPT` answers where neither hypothesis of 48_core_agent.md R236 speaks: open. -/
opaque acceptOther : FilterState → Ident → Bool

/-! ## Free values (93_implementation_defined.md U1, U3); the argument is the number of the draw -/

/-- The identifier field read from RXID while the FIFO is empty (44_receive.md R216). -/
opaque drawId : Nat → Ident
/-- The length field read from RXDT while the FIFO is empty (44_receive.md R216). -/
opaque drawDlc : Nat → Dlc
/-- The value read from RXDL while the FIFO is empty (44_receive.md R216). -/
opaque drawLow : Nat → Word
/-- The value read from RXDH while the FIFO is empty (44_receive.md R216). -/
opaque drawHigh : Nat → Word
/-- Whether a SEQ write to the transmit mailbox made while TXRQ = 1 takes effect (43_transmit.md R197). -/
opaque raceLands : Nat → Bool

/-! ## Hypotheses on the parameters: premises of claims, never facts (40_bit_timing.md R142) -/

/-- R142 (a): a profile in the valid range of each field. -/
def profileInRange (p : Profile) : Prop :=
  1 ≤ p.ts1 ∧ p.ts1 ≤ 16 ∧ 1 ≤ p.ts2 ∧ p.ts2 ≤ 8 ∧ 1 ≤ p.brp ∧ p.brp ≤ 1024

/-- R142 (a) for the whole table. -/
def tableInRange : Prop :=
  ∀ sel : Byte, sel.toNat < nBitrates → profileInRange (btTable sel)

/-- R143: peripheral-clock periods per bit. -/
def clocksPerBit (p : Profile) : Nat := p.brp * (1 + p.ts1 + p.ts2)

/-- R142 (b), R143: every entry's bit time matches its nominal bit rate at the peripheral clock. DESIGN CHOICE,
log 25: the spec says "matches" with no tolerance and no rounding; here it is exact equality of whole numbers. -/
def tableMatchesRate : Prop :=
  ∀ sel : Byte, sel.toNat < nBitrates → pclk = nominalRate sel * clocksPerBit (btTable sel)

end Sys2Proof.Config
end

