-- ==== Sys2Proof/Syntax.lean ====
section
/-! DEFINITION. The commands of the block, one constructor per row of spec/opcode_table.json. -/

namespace Sys2Proof

/-- The five commands (30_encoding.md R102). ALLOCN is a pseudo-command and has no constructor (R118). -/
inductive Instr where
  /-- `INIT sel` (R103). -/
  | init (sel : Byte)
  /-- `ALLOC id` (R104). -/
  | alloc (id : Ident)
  /-- `TX id, len, b0 … b7` (R105); any 8-bit length is legal. -/
  | tx (id : Ident) (len : Byte) (data : Payload)
  /-- `AVAIL` (R106). -/
  | avail
  /-- `RX` (R107). -/
  | rx
  deriving DecidableEq, Repr

/-- The mnemonic of a command (30_encoding.md R117). -/
def Instr.mnemonic : Instr → String
  | .init _ => "INIT"
  | .alloc _ => "ALLOC"
  | .tx _ _ _ => "TX"
  | .avail => "AVAIL"
  | .rx => "RX"

end Sys2Proof
end

