-- ==== Sys2Proof/WellFormed.lean ====
section
/-! DEFINITION. Which commands can be encoded: every one whose selector is a member of the bitrate
enumeration (30_encoding.md R103); all other operands are legal at every value of their width. -/

namespace Sys2Proof

/-- A selector is legal when it is below `NBITRATES` = `maxSel + 1` (30_encoding.md R103, R109). Selector 0
is written out first because the enumeration always has a member. -/
def selectorLegal (maxSel : Nat) (sel : Byte) : Bool :=
  sel == 0#8 || decide (sel.toNat < maxSel + 1)

/-- Well-formedness for an enumeration of `maxSel + 1` bit rates. -/
def Instr.wellFormedFor (maxSel : Nat) : Instr → Bool
  | .init sel => selectorLegal maxSel sel
  | .alloc _ => true
  | .tx _ _ _ => true
  | .avail => true
  | .rx => true

/-- Well-formedness on this machine. -/
def Instr.wellFormed (i : Instr) : Bool := i.wellFormedFor Config.maxSelector

end Sys2Proof
end

