-- ==== Sys2Proof/Decode.lean ====
section
/-! DEFINITION. The decoder of 96-bit command words (30_encoding.md R100 to R110), total, rejecting by
name, and the encoder written from the same table. -/

namespace Sys2Proof

/-- Why a word is illegal (30_encoding.md R109, 60_exceptions.md R265). All three are refused alike. -/
inductive Illegal where
  /-- OPC is none of 0x01 to 0x05. -/
  | opcode
  /-- A field that the command's format does not use is not zero. -/
  | mustBeZero
  /-- INIT with a selector that is not below `NBITRATES`. -/
  | selector
  deriving DecidableEq, Repr

/-! ## The fields of a command word (30_encoding.md R100) -/

/-- OPC, bits 7:0. -/
def opcOf (w : CmdWord) : Byte := w.extractLsb' 0 8
/-- ARG, bits 15:8. -/
def argOf (w : CmdWord) : Byte := w.extractLsb' 8 8
/-- ID, bits 26:16. -/
def idOf (w : CmdWord) : Ident := w.extractLsb' 16 Config.idw
/-- DATA, bits 95:32, byte `i` in bits 32+8i+7 : 32+8i. -/
def dataOf (w : CmdWord) : Payload where
  b0 := w.extractLsb' 32 8
  b1 := w.extractLsb' 40 8
  b2 := w.extractLsb' 48 8
  b3 := w.extractLsb' 56 8
  b4 := w.extractLsb' 64 8
  b5 := w.extractLsb' 72 8
  b6 := w.extractLsb' 80 8
  b7 := w.extractLsb' 88 8

/-! ## The opcode table (30_encoding.md R103 to R107, spec/opcode_table.json) -/

/-- A row: a word fits it when it equals `pattern` on the bits of `mask`. -/
structure OpcodeRow where
  mask : CmdWord
  pattern : CmdWord
  deriving DecidableEq, Repr

def OpcodeRow.fits (r : OpcodeRow) (w : CmdWord) : Bool := w &&& r.mask == r.pattern

/-- R103. -/
def initRow : OpcodeRow := ⟨0xFFFFFFFFFFFFFFFFFFFF00FF#96, 0x000000000000000000000001#96⟩
/-- R104. -/
def allocRow : OpcodeRow := ⟨0xFFFFFFFFFFFFFFFFF800FFFF#96, 0x000000000000000000000002#96⟩
/-- R105. -/
def txRow : OpcodeRow := ⟨0x0000000000000000F80000FF#96, 0x000000000000000000000003#96⟩
/-- R106. -/
def availRow : OpcodeRow := ⟨0xFFFFFFFFFFFFFFFFFFFFFFFF#96, 0x000000000000000000000004#96⟩
/-- R107. -/
def rxRow : OpcodeRow := ⟨0xFFFFFFFFFFFFFFFFFFFFFFFF#96, 0x000000000000000000000005#96⟩

/-- `Decode` (30_encoding.md R110) for an enumeration of `maxSel + 1` bit rates. -/
def decodeFor (maxSel : Nat) (w : CmdWord) : Except Illegal Instr :=
  if opcOf w = 0x01#8 then
    if initRow.fits w then
      if selectorLegal maxSel (argOf w) then .ok (.init (argOf w)) else .error .selector
    else .error .mustBeZero
  else if opcOf w = 0x02#8 then
    if allocRow.fits w then .ok (.alloc (idOf w)) else .error .mustBeZero
  else if opcOf w = 0x03#8 then
    if txRow.fits w then .ok (.tx (idOf w) (argOf w) (dataOf w)) else .error .mustBeZero
  else if opcOf w = 0x04#8 then
    if availRow.fits w then .ok .avail else .error .mustBeZero
  else if opcOf w = 0x05#8 then
    if rxRow.fits w then .ok .rx else .error .mustBeZero
  else .error .opcode

/-- `Decode` on this machine: it reads the word and `NBITRATES` only (R110). -/
def decode (w : CmdWord) : Except Illegal Instr := decodeFor Config.maxSelector w

/-! ## The encoder -/

/-- The 64 bits of DATA, byte 0 lowest (30_encoding.md R101). -/
def Payload.bits (d : Payload) : BitVec 64 :=
  d.b7 ++ d.b6 ++ d.b5 ++ d.b4 ++ d.b3 ++ d.b2 ++ d.b1 ++ d.b0

/-- A command word from its fields DATA, Z = 0, ID, ARG, OPC (30_encoding.md R100). -/
def wordOfFields (data : BitVec 64) (id : Ident) (arg opc : Byte) : CmdWord :=
  data ++ 0#5 ++ id ++ arg ++ opc

/-- The command word of a command (30_encoding.md R103 to R107). -/
def encode : Instr → CmdWord
  | .init sel => wordOfFields 0#64 0#11 sel 0x01#8
  | .alloc id => wordOfFields 0#64 id 0#8 0x02#8
  | .tx id len d => wordOfFields d.bits id len 0x03#8
  | .avail => wordOfFields 0#64 0#11 0#8 0x04#8
  | .rx => wordOfFields 0#64 0#11 0#8 0x05#8

/-- The command the decoder reads from a table word of `nbits` bits; bits above `nbits` are zero. A command
is one 96-bit word (30_encoding.md R100), so there is no byte order to lay out. -/
def decodeTableWord (nbits w : Nat) : Option Instr :=
  match decode (BitVec.ofNat 96 (w % 2 ^ nbits)) with
  | .ok i => some i
  | .error _ => none

end Sys2Proof
end

