-- ==== Sys2Proof/Machine/State.lean ====
section
/-! DEFINITION. The state of the machine (10_state.md R20): the stored registers of the register space, SEQ's
private registers, CORE's hidden state, the event history; then the model's own fields, which say what the
agents outside SEQ are going to do. Plain data throughout. -/

namespace Sys2Proof.Machine

/-- MODE, the PeripheralMode (10_state.md R40, 60_exceptions.md R270). -/
inductive Mode where
  | uninitialized
  | initializing
  | filterConfiguration
  | normal
  deriving DecidableEq, Repr

/-- CORE_MODE, the mode the protocol core is actually in (10_state.md R45). -/
inductive CoreMode where
  | off
  | init
  | normal
  deriving DecidableEq, Repr

/-- `upc`, the micro-program counter (10_state.md R43). A label holds the scratch values that later steps of
the same command read: the profile `p`, `bank`, `slot` and `h`, the words `w1` to `w4` read so far. -/
inductive Upc where
  | idle
  /-- INIT (41_mode_control.md R150). -/
  | i0
  | i1 (p : Profile)
  | i2 (p : Profile)
  | i3 (p : Profile)
  | i4a
  | i4b
  | i4c
  | i4d
  | i4e
  | i5
  | i6
  | i7
  /-- ALLOC (42_filter_alloc.md R170); `a3b` to `a3e` belong to slot 0. -/
  | a0
  | a1
  | a2
  | a3a (bank : BitVec 5) (slot : BitVec 2) (h : Half)
  | a3b (bank : BitVec 5) (h : Half)
  | a3c (bank : BitVec 5) (h : Half)
  | a3d (bank : BitVec 5) (h : Half)
  | a3e (bank : BitVec 5)
  | a4
  | a5
  /-- TX (43_transmit.md R190). -/
  | t1
  | t2
  | t3
  | t4
  | t5
  | t6
  /-- AVAIL (44_receive.md R210). -/
  | v1
  /-- RX (44_receive.md R211). -/
  | r1
  | r2 (w1 : Word)
  | r3 (w1 w2 : Word)
  | r4 (w1 w2 w3 : Word)
  | r5 (w1 w2 w3 w4 : Word)
  deriving DecidableEq, Repr

/-- The events of the history (48_core_agent.md R241). -/
inductive Event where
  /-- HOST's command word was accepted or refused. -/
  | issue (cw : CmdWord)
  /-- A command ended with this response word. -/
  | retire (rw : CmdWord)
  /-- A word was refused with this response word. -/
  | refuse (rw : CmdWord)
  | ackInit
  | ackNormal
  | txConsumed (f : Frame)
  | rxDeposited (f : Frame)
  deriving DecidableEq, Repr

/-- The steps of CORE (48_core_agent.md R230). -/
inductive CoreAct where
  | ackInit
  | ackNormal
  | txDone
  | rxPush (f : Frame)
  deriving DecidableEq, Repr

/-- One turn of the schedule. `block` is the turn of HOST and SEQ together, of whom exactly one can step:
HOST while `upc` = IDLE, SEQ otherwise (48_core_agent.md R250). -/
inductive Turn where
  | block
  | core (a : CoreAct)
  deriving DecidableEq, Repr

/-- The state of the machine. STS, RXF, RXID, RXDT, RXDL and RXDH are views (10_state.md R47) and are
computed from `coreMode` and `fifo` where they are read. -/
structure State where
  /-- CTL (10_state.md R22). -/
  ctl : Word
  /-- BTR (10_state.md R25). -/
  btr : Word
  /-- TXID (10_state.md R26). -/
  txid : Word
  /-- TXDT (10_state.md R27). -/
  txdt : Word
  /-- TXDL (10_state.md R28). -/
  txdl : Word
  /-- TXDH (10_state.md R28). -/
  txdh : Word
  /-- FCTL (10_state.md R32). -/
  fctl : Word
  /-- FMODE (10_state.md R33). -/
  fmode : Word
  /-- FSCALE (10_state.md R34). -/
  fscale : Word
  /-- FACT (10_state.md R35). -/
  fact : Word
  /-- FB[0].R1 to FB[27].R2 (10_state.md R36). -/
  banks : Vector Bank Config.nBanks
  /-- MODE (10_state.md R40). -/
  mode : Mode
  /-- CURSOR (10_state.md R41). -/
  cursor : BitVec 7
  /-- POLL (10_state.md R42). -/
  poll : BitVec 20
  /-- `upc` (10_state.md R43). -/
  upc : Upc
  /-- `CW` (10_state.md R43). -/
  cw : CmdWord
  /-- CORE_MODE (10_state.md R45). -/
  coreMode : CoreMode
  /-- FIFO, the oldest frame first (10_state.md R46). -/
  fifo : List Frame
  /-- The event history, the oldest event first (48_core_agent.md R241). -/
  history : List Event
  /-- The model's own: the command words HOST is going to issue, first first. DESIGN CHOICE, log 4. -/
  port : List CmdWord
  /-- The model's own: the turns still to be taken, first first. DESIGN CHOICE, log 1. -/
  sched : List Turn
  /-- The model's own: how many free values have been used. DESIGN CHOICE, log 5. -/
  draws : Nat
  deriving DecidableEq, Repr

/-- The state after power-up (10_state.md R50, 70_reset_and_hazards.md R291). The filter sub-registers and `CW`
have no reset value in the spec: zero here, DESIGN CHOICE, log 7 and 8. The last four fields: log 9. -/
def State.reset : State where
  ctl := 0
  btr := 0
  txid := 0
  txdt := 0
  txdl := 0
  txdh := 0
  fctl := 0
  fmode := 0
  fscale := 0
  fact := 0
  banks := Vector.replicate Config.nBanks ⟨0, 0⟩
  mode := .uninitialized
  cursor := 0
  poll := 0
  upc := .idle
  cw := 0
  coreMode := .off
  fifo := []
  history := []
  port := []
  sched := []
  draws := 0

/-- Stops of the model. The block itself has no fault (60_exceptions.md R260): each of these can arise only in
a state that no run reaches, so stopping is safe (log 13). -/
inductive Fault where
  /-- ALLOC accesses a register-space offset that holds no register, which takes CURSOR > 112. Safe. -/
  | noRegister (offset : Nat)
  /-- `upc` is a label of another command than the one latched in `CW`. Safe. -/
  | foreignStep
  /-- `CW` is no legal command word while `upc` is not IDLE. Safe. -/
  | badLatch
  deriving DecidableEq, Repr

/-- Refusals of the model: none is ever answered. (The refusal of a command word, 60_exceptions.md R264, is an
ordinary next state with a response word.) -/
inductive Refusal where
  /-- An instruction without a meaning; no arm of exec answers it. Safe. -/
  | notModelled (mnemonic : String)
  deriving DecidableEq, Repr

end Sys2Proof.Machine
end

