-- ==== Sys2Proof/Machine/RegMap.lean ====
section
/-! DEFINITION. The register map (10_state.md R21): the 72 registers by name, their offsets (the spec's `LAYOUT`,
00_scope.md R9), and which bits of each hold something. -/

namespace Sys2Proof.Machine

/-- The 72 registers of the register space (10_state.md R21). -/
inductive Reg where
  | ctl
  | sts
  | rxf
  | btr
  | txid
  | txdt
  | txdl
  | txdh
  | rxid
  | rxdt
  | rxdl
  | rxdh
  | fctl
  | fmode
  | fscale
  | fact
  | fbR1 (b : Fin Config.nBanks)
  | fbR2 (b : Fin Config.nBanks)
  deriving DecidableEq, Repr

/-- The registers of the transmit mailboxes, four for each (10_state.md R26 to R28); there is one mailbox
(00_scope.md R8, NTXMB). -/
def txMailboxRegs : Vector Reg (4 * Config.ntxmb) := #v[.txid, .txdt, .txdl, .txdh]

/-- The registers that show the head of a receive FIFO, four for each (10_state.md R29 to R31); there is one FIFO
(00_scope.md R8, NFIFO). -/
def rxMailboxRegs : Vector Reg (4 * Config.nfifo) := #v[.rxid, .rxdt, .rxdl, .rxdh]

/-- The code of MODE (10_state.md R40). -/
def modeCode : Mode → BitVec 2
  | .uninitialized => 0
  | .initializing => 1
  | .filterConfiguration => 2
  | .normal => 3

/-- The bytes of one register, which is also the distance of a bank's two sub-registers (10_state.md R36). -/
@[simp] abbrev regBytes : Nat := Config.regw / 8
/-- The bytes of one filter bank: the distance of two banks (10_state.md R36). -/
@[simp] abbrev bankBytes : Nat := Config.subregs * regBytes

/-- Offset of FB[bank].R1 (10_state.md R36, 42_filter_alloc.md R173): 0x240 + 8·bank. -/
def bankR1Offset (bank : Nat) : Nat := 0x240 + bankBytes * bank
/-- Offset of FB[bank].R2: 0x244 + 8·bank. -/
def bankR2Offset (bank : Nat) : Nat := bankR1Offset bank + regBytes

/-- The byte offset of a register (10_state.md R21). -/
def regOffset : Reg → Nat
  | .ctl => 0x000
  | .sts => 0x004
  | .rxf => 0x00C
  | .btr => 0x01C
  | .txid => 0x180
  | .txdt => 0x184
  | .txdl => 0x188
  | .txdh => 0x18C
  | .rxid => 0x1B0
  | .rxdt => 0x1B4
  | .rxdl => 0x1B8
  | .rxdh => 0x1BC
  | .fctl => 0x200
  | .fmode => 0x204
  | .fscale => 0x20C
  | .fact => 0x21C
  | .fbR1 b => bankR1Offset b
  | .fbR2 b => bankR2Offset b

/-- The register at a byte offset, `none` where the register space holds none (10_state.md R37, 20_memory.md
R71). -/
def regAt (a : Nat) : Option Reg :=
  if a = 0x000 then some .ctl
  else if a = 0x004 then some .sts
  else if a = 0x00C then some .rxf
  else if a = 0x01C then some .btr
  else if a = 0x180 then some .txid
  else if a = 0x184 then some .txdt
  else if a = 0x188 then some .txdl
  else if a = 0x18C then some .txdh
  else if a = 0x1B0 then some .rxid
  else if a = 0x1B4 then some .rxdt
  else if a = 0x1B8 then some .rxdl
  else if a = 0x1BC then some .rxdh
  else if a = 0x200 then some .fctl
  else if a = 0x204 then some .fmode
  else if a = 0x20C then some .fscale
  else if a = 0x21C then some .fact
  else if h : 0x240 ≤ a ∧ (a - 0x240) / bankBytes < Config.nBanks then
    if (a - 0x240) % bankBytes = 0 then some (.fbR1 ⟨(a - 0x240) / bankBytes, h.2⟩)
    else if (a - 0x240) % bankBytes = regBytes then some (.fbR2 ⟨(a - 0x240) / bankBytes, h.2⟩)
    else none
  else none

/-- The bits of a register that are not reserved (10_state.md R22 to R36); every other bit reads as 0 and
ignores writes (R37). -/
def definedBits : Reg → Word
  | .ctl => 0x00000001
  | .sts => 0x00000001
  | .rxf => 0x00000023
  | .btr => 0x007F03FF
  | .txid => 0xFFE00001
  | .txdt => 0x0000000F
  | .txdl => 0xFFFFFFFF
  | .txdh => 0xFFFFFFFF
  | .rxid => 0xFFE00000
  | .rxdt => 0x0000000F
  | .rxdl => 0xFFFFFFFF
  | .rxdh => 0xFFFFFFFF
  | .fctl => 0x00000001
  | .fmode => 0x0FFFFFFF
  | .fscale => 0x0FFFFFFF
  | .fact => 0x0FFFFFFF
  | .fbR1 _ => 0xFFFFFFFF
  | .fbR2 _ => 0xFFFFFFFF

/-- A field of a register: `width` bits from bit `lo` up. -/
structure Field where
  reg : Reg
  lo : Nat
  width : Nat
  deriving DecidableEq, Repr

/-- The mask of a field (20_memory.md R76). -/
def Field.mask (f : Field) : Word := (BitVec.ofNat 32 (2 ^ f.width - 1)) <<< f.lo

/-- CTL.INRQ (10_state.md R22). -/
def inrqField : Field := ⟨.ctl, 0, 1⟩
/-- RXF.RFOM (10_state.md R24). -/
def rfomField : Field := ⟨.rxf, 5, 1⟩
/-- TXID.TXRQ (10_state.md R26). -/
def txrqField : Field := ⟨.txid, 0, 1⟩
/-- TXDT.DLC (10_state.md R27). -/
def dlcField : Field := ⟨.txdt, 0, Config.dlcw⟩
/-- FCTL.FINIT (10_state.md R32). -/
def finitField : Field := ⟨.fctl, 0, 1⟩
/-- FMODE[bank] (10_state.md R33). -/
def modeBit (bank : Nat) : Field := ⟨.fmode, bank, 1⟩
/-- FSCALE[bank] (10_state.md R34). -/
def scaleBit (bank : Nat) : Field := ⟨.fscale, bank, 1⟩
/-- FACT[bank] (10_state.md R35). -/
def activeBit (bank : Nat) : Field := ⟨.fact, bank, 1⟩

end Sys2Proof.Machine
end

