-- ==== Sys2Proof/Machine/Flags.lean ====
section
/-! DEFINITION. The six status and control bits of 10_state.md R39, each as a function of the state. They are
set by field writes (Ops.lean), by CORE's steps (CoreAgent.lean) and by the release. -/

namespace Sys2Proof.Machine

/-- CTL.INRQ, the mode-request bit (10_state.md R22). -/
def State.inrq (s : State) : Bool := s.ctl.getLsbD 0

/-- STS.INAK, the mode-change acknowledgment: 1 exactly while CORE_MODE = Init (10_state.md R23, R47). -/
def State.inak (s : State) : Bool := s.coreMode == .init

/-- FCTL.FINIT, the filter-configuration bit (10_state.md R32). -/
def State.finit (s : State) : Bool := s.fctl.getLsbD 0

/-- TXID.TXRQ, the transmit request (10_state.md R26). -/
def State.txrq (s : State) : Bool := s.txid.getLsbD 0

/-- RXF.FMP, the pending count: the length of FIFO (10_state.md R24, R47). -/
def State.fmp (s : State) : BitVec 2 := BitVec.ofNat 2 s.fifo.length

/-- RXF.RFOM as it reads: a trigger, never stored (10_state.md R24). -/
def State.rfom (_ : State) : Bool := false

end Sys2Proof.Machine
end

