-- ==== Sys2Proof/Machine/Operands.lean ====
section
/-! DEFINITION. Operand assembly (30_encoding.md R111 to R116): how operands are placed into register words and
response words, and how a received frame is taken apart. -/

namespace Sys2Proof.Machine

/-- `TXID_VAL(id)` (R111): the identifier in STID, every other bit 0. -/
def txidVal (id : Ident) : Word := id.zeroExtend Config.regw <<< Config.txidShift

/-- `DLC_VAL(len)` (R112): the low four bits of the length. -/
def dlcVal (len : Byte) : Dlc := len.extractLsb' 0 Config.dlcw

/-- `TXDL_VAL(d)` (R113): bytes 0 to 3, byte 0 lowest. -/
def lowWord (d : Payload) : Word := d.b3 ++ d.b2 ++ d.b1 ++ d.b0

/-- `TXDH_VAL(d)` (R113): bytes 4 to 7, byte 4 lowest. -/
def highWord (d : Payload) : Word := d.b7 ++ d.b6 ++ d.b5 ++ d.b4

/-- The payload held by a low and a high data register (10_state.md R28, 30_encoding.md R116). -/
def payloadOf (low high : Word) : Payload where
  b0 := low.extractLsb' 0 8
  b1 := low.extractLsb' 8 8
  b2 := low.extractLsb' 16 8
  b3 := low.extractLsb' 24 8
  b4 := high.extractLsb' 0 8
  b5 := high.extractLsb' 8 8
  b6 := high.extractLsb' 16 8
  b7 := high.extractLsb' 24 8

/-- The identifier field STID of TXID or RXID (10_state.md R26, R29). -/
def stidOf (w : Word) : Ident := w.extractLsb' Config.txidShift Config.idw

/-- The length field DLC of TXDT or RXDT (10_state.md R27, R30). -/
def dlcOf (w : Word) : Dlc := w.extractLsb' 0 Config.dlcw

/-- `HALF(id)` (R114): the identifier in bits 15:5. -/
def half (id : Ident) : Half := id.zeroExtend Config.halfw <<< Config.filtShift

/-- `BOTH`: one half value in both halves of a sub-register (R114). -/
def bothHalves (h : Half) : Word := h ++ h

/-- `BTR_VAL(p)` (R115): each field holds the profile's value minus one, every other bit is 0. -/
def btrVal (p : Profile) : Word :=
  ((BitVec.ofNat 3 (p.ts2 - 1)).zeroExtend Config.regw <<< 20) |||
  ((BitVec.ofNat 4 (p.ts1 - 1)).zeroExtend Config.regw <<< 16) |||
  (BitVec.ofNat 10 (p.brp - 1)).zeroExtend Config.regw

/-- The bank of a cursor value (42_filter_alloc.md R173). -/
def bankOf (cursor : BitVec 7) : BitVec 5 := BitVec.ofNat 5 (cursor.toNat / Config.slotsPerBank)

/-- The slot of a cursor value (42_filter_alloc.md R173). -/
def slotOf (cursor : BitVec 7) : BitVec 2 := BitVec.ofNat 2 (cursor.toNat % Config.slotsPerBank)

/-! ## Response words (30_encoding.md R108) -/

/-- DONE = 1 and nothing else: INIT, ALLOC, and TX when a poll saw the request bit clear. -/
def doneWord : CmdWord := 0x000000000000000000000001

/-- DONE = 0: TX when the bound ran out. -/
def notDoneWord : CmdWord := 0x000000000000000000000000

/-- REFUSED = 1 (30_encoding.md R109, 60_exceptions.md R264). -/
def refusedWord : CmdWord := 0x000000000000000000000080

/-- AVAIL's response (44_receive.md R210): COUNT in bits 9:8, DONE = 1. -/
def availWord (count : BitVec 2) : CmdWord := 0#86 ++ count ++ 0x01#8

/-- RX's response (30_encoding.md R116, 44_receive.md R211) from the four words read. -/
def rxWord (w1 w2 w3 w4 : Word) : CmdWord :=
  w4 ++ w3 ++ 0#5 ++ stidOf w1 ++ 0#4 ++ dlcOf w2 ++ 0x01#8

/-- The frame a response of RX carries: ID, LEN and DATA of the response word (30_encoding.md R108). -/
def frameOfResponse (rw : CmdWord) : Frame where
  id := rw.extractLsb' 16 11
  dlc := rw.extractLsb' 8 4
  data := payloadOf (rw.extractLsb' 32 32) (rw.extractLsb' 64 32)

end Sys2Proof.Machine
end

