-- ==== Sys2Proof/Machine/Ops.lean ====
section
/-! DEFINITION. The named operations over registers and private state: reads and writes of the register space
(20_memory.md R73 to R77), the wait step (R80), the observation port (R85), the history, Issue, refusal and
retirement (48_core_agent.md R250 to R252, 60_exceptions.md R264 to R266). The block has no exception (R260,
R268, R269), so the refusal is the one shared operation that stands where a trap entry would. -/

namespace Sys2Proof.Machine

/-! ## Reads -/

/-- The value of a register in a state (20_memory.md R73, 10_state.md R47): stored bits as stored, reserved bits 0,
views computed from the hidden state. `k` is the number of the draw that an empty receive FIFO needs; no other
read depends on it. -/
def readReg (k : Nat) (r : Reg) (s : State) : Word :=
  match r with
  | .ctl => s.ctl &&& definedBits .ctl
  | .sts => if s.inak then 1 else 0
  | .rxf => s.fmp.zeroExtend Config.regw
  | .btr => s.btr &&& definedBits .btr
  | .txid => s.txid &&& definedBits .txid
  | .txdt => s.txdt &&& definedBits .txdt
  | .txdl => s.txdl
  | .txdh => s.txdh
  | .rxid =>
    match s.fifo with
    | f :: _ => txidVal f.id
    | [] => txidVal (Config.drawId k)
  | .rxdt =>
    match s.fifo with
    | f :: _ => f.dlc.zeroExtend Config.regw
    | [] => (Config.drawDlc k).zeroExtend Config.regw
  | .rxdl =>
    match s.fifo with
    | f :: _ => lowWord f.data
    | [] => Config.drawLow k
  | .rxdh =>
    match s.fifo with
    | f :: _ => highWord f.data
    | [] => Config.drawHigh k
  | .fctl => s.fctl &&& definedBits .fctl
  | .fmode => s.fmode &&& definedBits .fmode
  | .fscale => s.fscale &&& definedBits .fscale
  | .fact => s.fact &&& definedBits .fact
  | .fbR1 b => (s.banks[b]).r1
  | .fbR2 b => (s.banks[b]).r2

/-- SEQ's `R[NAME]`: the read takes the next draw if it needs one (00_scope.md R12, R13). -/
def seqRead (r : Reg) (s : State) : Word := readReg s.draws r s

/-- One free value has been used: the model's own bookkeeping (log 5), no state of the spec. -/
def State.drawn (s : State) : State := { s with draws := s.draws + 1 }

/-- After a read of a receive-mailbox register: a draw has been used if FIFO was empty (44_receive.md R216). -/
def afterMailboxRead (s : State) : State := if s.fifo.isEmpty then s.drawn else s

/-- `MemRead(addr, 4)` (20_memory.md R73): `none` at an offset that holds no register. -/
def memRead (a : Nat) (s : State) : Option Word :=
  match regAt a with
  | some r => some (seqRead r s)
  | none => none

/-! ## Writes -/

/-- A SEQ write to the transmit mailbox, `f` being the write itself: while TXRQ = 1 the mailbox belongs to CORE
and the write lands or is ignored, by a free choice (43_transmit.md R197, 48_core_agent.md R244). -/
def mailboxWrite (f : State → State) (s : State) : State :=
  if s.txrq then
    if Config.raceLands s.draws then (f s).drawn else s.drawn
  else f s

/-- The write of one register (20_memory.md R74, R75): defined bits are replaced, reserved, read-only and view
bits ignored; a write of RXF with RFOM = 1 releases the head of FIFO (48_core_agent.md R235). -/
def writeReg (r : Reg) (v : Word) (s : State) : State :=
  match r with
  | .ctl => { s with ctl := v &&& definedBits .ctl }
  | .sts => s
  | .rxf => if v.getLsbD 5 then { s with fifo := s.fifo.tail } else s
  | .btr => { s with btr := v &&& definedBits .btr }
  | .txid => mailboxWrite (fun s => { s with txid := v &&& definedBits .txid }) s
  | .txdt => mailboxWrite (fun s => { s with txdt := v &&& definedBits .txdt }) s
  | .txdl => mailboxWrite (fun s => { s with txdl := v }) s
  | .txdh => mailboxWrite (fun s => { s with txdh := v }) s
  | .rxid => s
  | .rxdt => s
  | .rxdl => s
  | .rxdh => s
  | .fctl => { s with fctl := v &&& definedBits .fctl }
  | .fmode => { s with fmode := v &&& definedBits .fmode }
  | .fscale => { s with fscale := v &&& definedBits .fscale }
  | .fact => { s with fact := v &&& definedBits .fact }
  | .fbR1 b => { s with banks := s.banks.set b { s.banks[b] with r1 := v } }
  | .fbR2 b => { s with banks := s.banks.set b { s.banks[b] with r2 := v } }

/-- `MemWrite(addr, 4, v)` (20_memory.md R74): `none` at an offset that holds no register. -/
def memWrite (a : Nat) (v : Word) (s : State) : Option State :=
  match regAt a with
  | some r => some (writeReg r v s)
  | none => none

/-- The word that a field write stores: the field replaced, every other bit as read (20_memory.md R76). -/
def withField (f : Field) (v t : Word) : Word := (t &&& ~~~f.mask) ||| ((v <<< f.lo) &&& f.mask)

/-- `NAME.FIELD <- v` (20_memory.md R76): a read and a write of the register in one step. -/
def fieldWrite (f : Field) (v : Word) (s : State) : State :=
  writeReg f.reg (withField f v (seqRead f.reg s)) s

/-- The word that a half-word update stores: the lower half as read, the upper half new (20_memory.md R77). -/
def withUpperHalf (h : Half) (t : Word) : Word := (t &&& 0x0000FFFF) ||| (h.zeroExtend Config.regw <<< Config.halfw)

/-- The half-word update of a filter sub-register (20_memory.md R77), a read and a write in one step. -/
def upperHalfWrite (a : Nat) (h : Half) (s : State) : Option State :=
  match memRead a s with
  | some t => memWrite a (withUpperHalf h t) s
  | none => none

/-! ## Observation (20_memory.md R85, 60_exceptions.md R274) -/

/-- The observation port at a register-space offset: what a read would return, 0 where there is no register
(10_state.md R37). It changes nothing. `k` numbers the draw of a read at an empty FIFO; two observations need
not agree there, so nothing ties `k` to the state (log 17). -/
def observe (k a : Nat) (s : State) : Word :=
  match regAt a with
  | some r => readReg k r s
  | none => 0

/-- The observation port's view of MODE. -/
def observeMode (s : State) : BitVec 2 := modeCode s.mode
/-- The observation port's view of CURSOR. -/
def observeCursor (s : State) : BitVec 7 := s.cursor

/-! ## Commands -/

/-- Append an event to the history (48_core_agent.md R241). -/
def State.record (e : Event) (s : State) : State := { s with history := s.history ++ [e] }

/-- `retire(rw)` (00_scope.md R13, 48_core_agent.md R252): the response is delivered and `upc` is IDLE. -/
def State.retire (rw : CmdWord) (s : State) : State :=
  { s with upc := .idle, history := s.history ++ [.retire rw] }

/-- The refusal of a word (60_exceptions.md R264): nothing changes but the history. -/
def State.refuse (w : CmdWord) (s : State) : State :=
  { s with history := s.history ++ [.issue w, .refuse refusedWord] }

/-- The mode gate (60_exceptions.md R266): the value MODE must have when a command is issued. -/
def gateMode : Instr → Mode
  | .init _ => .uninitialized
  | .alloc _ => .normal
  | .tx _ _ _ => .normal
  | .avail => .normal
  | .rx => .normal

/-- The first step of a command's micro-program (48_core_agent.md R250). -/
def firstLabel : Instr → Upc
  | .init _ => .i0
  | .alloc _ => .a0
  | .tx _ _ _ => .t1
  | .avail => .v1
  | .rx => .r1

/-- The HOST step Issue of a legal command (48_core_agent.md R250): accepted, it is latched and its micro-program
begins; turned away by the mode gate, it is refused. The latched word is the command's encoding, which is the
word that was offered (log 16). -/
def issue (i : Instr) (s : State) : State :=
  if s.mode = gateMode i then
    { s with cw := encode i, upc := firstLabel i, history := s.history ++ [.issue (encode i)] }
  else s.refuse (encode i)

/-! ## The wait step -/

/-- `wait until P(R[NAME])` (20_memory.md R80), one poll. `p` is the predicate, `onTrue` what happens when it
holds. With no bound the step is simply repeated; with a bound a failed poll is counted in POLL, and `onBound`
happens when POLL reaches it (43_transmit.md R195). -/
def waitStep (r : Reg) (p : Word → Bool) (bound : Option Nat) (onTrue onBound : State → State)
    (s : State) : State :=
  if p (seqRead r s) then onTrue s
  else
    match bound with
    | none => s
    | some n =>
      let s' := { s with poll := s.poll + 1 }
      if s'.poll = BitVec.ofNat 20 n then onBound s' else s'

/-- What a meaning answers after an addressed access: the fault `noRegister` where there is no register. -/
def afterAccess (a : Nat) (u : Upc) (s : Option State) : Host.Outcome State Fault Refusal :=
  match s with
  | some s' => .next { s' with upc := u }
  | none => .fault (.noRegister a)

end Sys2Proof.Machine
end

