-- ==== Sys2Proof/Machine/CoreAgent.lean ====
section
/-! DEFINITION. CORE, the protocol core on the bus side (48_core_agent.md R230 to R240): when each of its steps is
enabled and what it does. The acceptance predicate is open (R236). -/

namespace Sys2Proof.Machine

/-- The filter state that the acceptance predicate sees (R236). -/
def filterState (s : State) : FilterState where
  finit := s.finit
  fmode := s.fmode &&& definedBits .fmode
  fscale := s.fscale &&& definedBits .fscale
  fact := s.fact &&& definedBits .fact
  banks := s.banks

/-- The premise of DEFAULT_MATCH_ALL (R236 (a)): the filter state that INIT leaves. -/
def isDefaultFilter (fs : FilterState) : Bool :=
  !fs.finit && fs.fact == 0x00000001#32 && !fs.fmode.getLsbD 0 && fs.fscale.getLsbD 0 &&
    fs.banks[(0 : Fin Config.nBanks)].r1 == 0#32 && fs.banks[(0 : Fin Config.nBanks)].r2 == 0#32

/-- A filter state with everything about unallocated banks erased (R236 (b)). -/
def activeOnly (fs : FilterState) : FilterState where
  finit := fs.finit
  fmode := fs.fmode &&& fs.fact
  fscale := fs.fscale &&& fs.fact
  fact := fs.fact
  banks := Vector.ofFn fun b : Fin Config.nBanks => if fs.fact.getLsbD b then fs.banks[b] else ⟨0, 0⟩

/-- `ACCEPT(FS, id)` (R236): true on the default filter (DEFAULT_MATCH_ALL), otherwise open, and blind to
unallocated banks (INACTIVE_IGNORED). Every predicate that meets the two hypotheses is of this form (log 11). -/
def accept (fs : FilterState) (id : Ident) : Bool :=
  isDefaultFilter fs || Config.acceptOther (activeOnly fs) id

/-- DEFAULT_MATCH_ALL (R236 (a)), of any acceptance predicate. -/
def DefaultMatchAll (A : FilterState → Ident → Bool) : Prop :=
  ∀ fs id, isDefaultFilter fs = true → A fs id = true

/-- Two filter states that differ at most in the mode bit, packing bit and sub-registers of unallocated banks. -/
def SameActive (fs fs' : FilterState) : Prop :=
  fs.finit = fs'.finit ∧ fs.fact = fs'.fact ∧
  ∀ b : Fin Config.nBanks, fs.fact.getLsbD b = true →
    fs.fmode.getLsbD b = fs'.fmode.getLsbD b ∧ fs.fscale.getLsbD b = fs'.fscale.getLsbD b ∧
    fs.banks[b] = fs'.banks[b]

/-- INACTIVE_IGNORED (R236 (b)), of any acceptance predicate, on filter states whose reserved bits are 0. -/
def InactiveIgnored (A : FilterState → Ident → Bool) : Prop :=
  ∀ fs fs' id, fs.fact &&& definedBits .fact = fs.fact → SameActive fs fs' → A fs id = A fs' id

/-- The frame in the transmit mailbox, as TX_DONE reads it (R233). -/
def mailboxFrame (s : State) : Frame where
  id := stidOf s.txid
  dlc := dlcOf s.txdt
  data := payloadOf s.txdl s.txdh

/-- When a step of CORE is enabled (R231 to R234). -/
def coreEnabled (a : CoreAct) (s : State) : Bool :=
  match a with
  | .ackInit => s.inrq && s.coreMode != .init
  | .ackNormal => !s.inrq && s.coreMode == .init
  | .txDone => s.coreMode == .normal && s.txrq
  | .rxPush f =>
    s.coreMode == .normal && decide (s.fifo.length < Config.fifoDepth) && accept (filterState s) f.id

/-- What an enabled step of CORE does (R231 to R234). -/
def coreEffect (a : CoreAct) (s : State) : State :=
  match a with
  | .ackInit => State.record .ackInit { s with coreMode := .init }
  | .ackNormal => State.record .ackNormal { s with coreMode := .normal }
  | .txDone => State.record (.txConsumed (mailboxFrame s)) { s with txid := s.txid &&& ~~~1#32 }
  | .rxPush f => State.record (.rxDeposited f) { s with fifo := s.fifo ++ [f] }

/-- A turn of CORE: the step if it is enabled, nothing if it is not (a frame that finds the FIFO full, or that
no filter accepts, is not deposited: R237, R238; log 3). -/
def coreStep (a : CoreAct) (s : State) : State :=
  if coreEnabled a s then coreEffect a s else s

end Sys2Proof.Machine
end

