-- ==== Sys2Proof/Machine/FilterAlloc.lean ====
section
/-! DEFINITION. The FilterBankAllocator, command ALLOC (42_filter_alloc.md R170), one definition per step. -/

namespace Sys2Proof.Machine

/-- A0 (R171): at saturation the command retires at once. -/
def allocA0 (s : State) : State :=
  if s.cursor = BitVec.ofNat 7 Config.maxSlots then State.retire doneWord s
  else { s with upc := .a1 }

/-- A1 (R172): enter filter-configuration mode. -/
def allocA1 (s : State) : State :=
  { fieldWrite finitField 1 s with mode := .filterConfiguration, upc := .a2 }

/-- A2 (R173): the address computation. -/
def allocA2 (id : Ident) (s : State) : State :=
  { s with upc := .a3a (bankOf s.cursor) (slotOf s.cursor) (half id) }

/-- A3a by slot (R174 to R177): slot 0 begins the fresh bank, slots 1 and 3 update an upper half, slot 2 writes
the second sub-register whole. -/
def allocA3a (bank : BitVec 5) (slot : BitVec 2) (h : Half) (s : State) :
    Host.Outcome State Fault Refusal :=
  match slot.toNat with
  | 0 => .next { fieldWrite (modeBit bank.toNat) 0 s with upc := .a3b bank h }
  | 1 => afterAccess (bankR1Offset bank.toNat) .a4 (upperHalfWrite (bankR1Offset bank.toNat) h s)
  | 2 => afterAccess (bankR2Offset bank.toNat) .a4
      (memWrite (bankR2Offset bank.toNat) (bothHalves h) s)
  | _ => afterAccess (bankR2Offset bank.toNat) .a4 (upperHalfWrite (bankR2Offset bank.toNat) h s)

/-- A3b of slot 0 (R174): two 16-bit halves per sub-register. -/
def allocA3b (bank : BitVec 5) (h : Half) (s : State) : State :=
  { fieldWrite (scaleBit bank.toNat) 0 s with upc := .a3c bank h }

/-- A3c of slot 0 (R174). -/
def allocA3c (bank : BitVec 5) (h : Half) (s : State) : Host.Outcome State Fault Refusal :=
  afterAccess (bankR1Offset bank.toNat) (.a3d bank h)
    (memWrite (bankR1Offset bank.toNat) (bothHalves h) s)

/-- A3d of slot 0 (R174). -/
def allocA3d (bank : BitVec 5) (h : Half) (s : State) : Host.Outcome State Fault Refusal :=
  afterAccess (bankR2Offset bank.toNat) (.a3e bank)
    (memWrite (bankR2Offset bank.toNat) (bothHalves h) s)

/-- A3e of slot 0 (R174): the bank is allocated. -/
def allocA3e (bank : BitVec 5) (s : State) : State :=
  { fieldWrite (activeBit bank.toNat) 1 s with upc := .a4 }

/-- A4 (R178). -/
def allocA4 (s : State) : State := { s with cursor := s.cursor + 1, upc := .a5 }

/-- A5 (R172, R178): leave filter-configuration mode and retire. -/
def allocA5 (s : State) : State :=
  State.retire doneWord { fieldWrite finitField 0 s with mode := .normal }

/-- `ALLOC id` (R170): one step at the label `upc`; at IDLE, its Issue. -/
def execAlloc (id : Ident) (s : State) : Host.Outcome State Fault Refusal :=
  match s.upc with
  | .idle => .next (issue (.alloc id) s)
  | .a0 => .next (allocA0 s)
  | .a1 => .next (allocA1 s)
  | .a2 => .next (allocA2 id s)
  | .a3a bank slot h => allocA3a bank slot h s
  | .a3b bank h => .next (allocA3b bank h s)
  | .a3c bank h => allocA3c bank h s
  | .a3d bank h => allocA3d bank h s
  | .a3e bank => .next (allocA3e bank s)
  | .a4 => .next (allocA4 s)
  | .a5 => .next (allocA5 s)
  | _ => .fault .foreignStep

end Sys2Proof.Machine
end

