-- ==== Sys2Proof/Machine/BitTiming.lean ====
section
/-! DEFINITION. The BitTimingTable (40_bit_timing.md): a pure lookup, not a command (R144). -/

namespace Sys2Proof.Machine

/-- `BT(sel)` (40_bit_timing.md R140, R141): the profile of a selector, whatever the state. -/
def bt (sel : Byte) : Profile := Config.btTable sel

end Sys2Proof.Machine
end

