-- ==== Sys2Proof/Machine/ModeControl.lean ====
section
/-! DEFINITION. The PeripheralModeController, command INIT (41_mode_control.md R150), one definition per step. -/

namespace Sys2Proof.Machine

/-- I0 (R151). -/
def initI0 (sel : Byte) (s : State) : State :=
  { s with mode := .initializing, cursor := 0, upc := .i1 (bt sel) }

/-- I1 (R152). -/
def initI1 (p : Profile) (s : State) : State := { fieldWrite inrqField 1 s with upc := .i2 p }

/-- I2 (R153): wait without bound until INAK reads 1. -/
def initI2 (p : Profile) (s : State) : State :=
  waitStep .sts (fun t => t.getLsbD 0) none (fun s => { s with upc := .i3 p }) id s

/-- I3 (R154): one whole-register write. -/
def initI3 (p : Profile) (s : State) : State := { writeReg .btr (btrVal p) s with upc := .i4a }

/-- I4a (R155): bank 0 in single 32-bit packing. -/
def initI4a (s : State) : State := { fieldWrite (scaleBit 0) 1 s with upc := .i4b }
/-- I4b (R155): bank 0 in mask mode. -/
def initI4b (s : State) : State := { fieldWrite (modeBit 0) 0 s with upc := .i4c }
/-- I4c (R155). -/
def initI4c (s : State) : State := { writeReg (.fbR1 0) 0x00000000 s with upc := .i4d }
/-- I4d (R155). -/
def initI4d (s : State) : State := { writeReg (.fbR2 0) 0x00000000 s with upc := .i4e }
/-- I4e (R155): bank 0 allocated. -/
def initI4e (s : State) : State := { fieldWrite (activeBit 0) 1 s with upc := .i5 }

/-- I5 (R156). -/
def initI5 (s : State) : State := { fieldWrite inrqField 0 s with upc := .i6 }

/-- I6 (R156): wait without bound until INAK reads 0. -/
def initI6 (s : State) : State :=
  waitStep .sts (fun t => !t.getLsbD 0) none (fun s => { s with upc := .i7 }) id s

/-- I7 (R158). -/
def initI7 (s : State) : State := State.retire doneWord { s with mode := .normal }

/-- `INIT sel` (R150): one step at the label `upc`; at IDLE, its Issue. -/
def execInit (sel : Byte) (s : State) : Host.Outcome State Fault Refusal :=
  match s.upc with
  | .idle => .next (issue (.init sel) s)
  | .i0 => .next (initI0 sel s)
  | .i1 p => .next (initI1 p s)
  | .i2 p => .next (initI2 p s)
  | .i3 p => .next (initI3 p s)
  | .i4a => .next (initI4a s)
  | .i4b => .next (initI4b s)
  | .i4c => .next (initI4c s)
  | .i4d => .next (initI4d s)
  | .i4e => .next (initI4e s)
  | .i5 => .next (initI5 s)
  | .i6 => .next (initI6 s)
  | .i7 => .next (initI7 s)
  | _ => .fault .foreignStep

end Sys2Proof.Machine
end

