-- ==== Sys2Proof/Machine/Receive.lean ====
section
/-! DEFINITION. The FrameReceiver, commands AVAIL and RX (44_receive.md R210, R211), one definition per step. -/

namespace Sys2Proof.Machine

/-- V1 (R210): one read of RXF. -/
def availV1 (s : State) : State :=
  State.retire (availWord ((seqRead .rxf s).extractLsb' 0 2)) s

/-- `AVAIL` (R210): one step at the label `upc`; at IDLE, its Issue. -/
def execAvail (s : State) : Host.Outcome State Fault Refusal :=
  match s.upc with
  | .idle => .next (issue .avail s)
  | .v1 => .next (availV1 s)
  | _ => .fault .foreignStep

/-- R1 (R212): the identifier. -/
def rxR1 (s : State) : State := { afterMailboxRead s with upc := .r2 (seqRead .rxid s) }

/-- R2 (R212): the length. -/
def rxR2 (w1 : Word) (s : State) : State :=
  { afterMailboxRead s with upc := .r3 w1 (seqRead .rxdt s) }

/-- R3 (R212): bytes 0 to 3. -/
def rxR3 (w1 w2 : Word) (s : State) : State :=
  { afterMailboxRead s with upc := .r4 w1 w2 (seqRead .rxdl s) }

/-- R4 (R212): bytes 4 to 7. -/
def rxR4 (w1 w2 w3 : Word) (s : State) : State :=
  { afterMailboxRead s with upc := .r5 w1 w2 w3 (seqRead .rxdh s) }

/-- R5 (R214): release the slot, then respond. -/
def rxR5 (w1 w2 w3 w4 : Word) (s : State) : State :=
  State.retire (rxWord w1 w2 w3 w4) (fieldWrite rfomField 1 s)

/-- `RX` (R211): one step at the label `upc`; at IDLE, its Issue. -/
def execRx (s : State) : Host.Outcome State Fault Refusal :=
  match s.upc with
  | .idle => .next (issue .rx s)
  | .r1 => .next (rxR1 s)
  | .r2 w1 => .next (rxR2 w1 s)
  | .r3 w1 w2 => .next (rxR3 w1 w2 s)
  | .r4 w1 w2 w3 => .next (rxR4 w1 w2 w3 s)
  | .r5 w1 w2 w3 w4 => .next (rxR5 w1 w2 w3 w4 s)
  | _ => .fault .foreignStep

end Sys2Proof.Machine
end

