-- ==== Sys2Proof/Machine/Transmit.lean ====
section
/-! DEFINITION. The FrameTransmitter, command TX (43_transmit.md R190), one definition per step. -/

namespace Sys2Proof.Machine

/-- T1 (R191): one whole-register write, which clears TXRQ. -/
def txT1 (id : Ident) (s : State) : State := { writeReg .txid (txidVal id) s with upc := .t2 }

/-- T2 (R192). -/
def txT2 (len : Byte) (s : State) : State :=
  { fieldWrite dlcField ((dlcVal len).zeroExtend Config.regw) s with upc := .t3 }

/-- T3 (R193). -/
def txT3 (d : Payload) (s : State) : State := { writeReg .txdl (lowWord d) s with upc := .t4 }

/-- T4 (R193). -/
def txT4 (d : Payload) (s : State) : State := { writeReg .txdh (highWord d) s with upc := .t5 }

/-- T5 (R194): request transmission and start the bounded wait. -/
def txT5 (s : State) : State := { fieldWrite txrqField 1 s with poll := 0, upc := .t6 }

/-- T6 (R195): one poll of the bounded wait. -/
def txT6 (s : State) : State :=
  waitStep .txid (fun t => !t.getLsbD 0) (some Config.txPollBound) (State.retire doneWord)
    (State.retire notDoneWord) s

/-- `TX id, len, d` (R190): one step at the label `upc`; at IDLE, its Issue. -/
def execTx (id : Ident) (len : Byte) (d : Payload) (s : State) : Host.Outcome State Fault Refusal :=
  match s.upc with
  | .idle => .next (issue (.tx id len d) s)
  | .t1 => .next (txT1 id s)
  | .t2 => .next (txT2 len s)
  | .t3 => .next (txT3 d s)
  | .t4 => .next (txT4 d s)
  | .t5 => .next (txT5 s)
  | .t6 => .next (txT6 s)
  | _ => .fault .foreignStep

end Sys2Proof.Machine
end

