-- ==== Sys2Proof/Machine/Dispatch.lean ====
section
/-! DEFINITION. The meaning of each command, one arm per constructor of Instr. -/

namespace Sys2Proof.Machine

def exec (i : Instr) (s : State) : Host.Outcome State Fault Refusal :=
  match i with
  | .init sel => Sys2Proof.Machine.execInit sel s
  | .alloc id => Sys2Proof.Machine.execAlloc id s
  | .tx id len d => Sys2Proof.Machine.execTx id len d s
  | .avail => Sys2Proof.Machine.execAvail s
  | .rx => Sys2Proof.Machine.execRx s

end Sys2Proof.Machine
end

