-- ==== Sys2Proof/Machine/Sequencer.lean ====
section
/-! DEFINITION. One turn of an agent: HOST's Issue, SEQ's next step, or a step of CORE. -/

namespace Sys2Proof.Machine

/-- The turn of HOST and SEQ. While `upc` = IDLE HOST issues the next command word, if it has one
(48_core_agent.md R250); an illegal word is refused (60_exceptions.md R264). Otherwise SEQ takes the next step
of the command latched in `CW`, and the port is not looked at (R251, 20_memory.md R84). -/
def blockTurn (s : State) : Host.Outcome State Fault Refusal :=
  match s.upc with
  | .idle =>
    match s.port with
    | [] => .next s
    | w :: ws =>
      match decode w with
      | .ok i => exec i { s with port := ws }
      | .error _ => .next (State.refuse w { s with port := ws })
  | _ =>
    match decode s.cw with
    | .ok i => exec i s
    | .error _ => .fault .badLatch

/-- One turn of the schedule (00_scope.md R14). -/
def takeTurn (t : Turn) (s : State) : Host.Outcome State Fault Refusal :=
  match t with
  | .block => blockTurn s
  | .core a => .next (coreStep a s)

/-- The turn that comes next: the head of the schedule; CORE takes no further step once it is exhausted
(48_core_agent.md R230, log 2). -/
def nextTurn (s : State) : Turn :=
  match s.sched with
  | [] => .block
  | t :: _ => t

/-- The state with that turn taken off the schedule. -/
def State.popTurn (s : State) : State := { s with sched := s.sched.tail }

/-- The state in which a table word of `nbits` bits is the very next thing that is issued and run: the port's
head, with the block ready and its turn next (log 20). -/
def offerWord (s : State) (nbits w : Nat) : State :=
  { s with
    upc := .idle
    port := BitVec.ofNat 96 (w % 2 ^ nbits) :: s.port
    sched := .block :: s.sched }

end Sys2Proof.Machine
end

