-- ==== Sys2Proof/Machine/Step.lean ====
section
/-! DEFINITION. One step of the machine, a function of the state alone: the next turn of the schedule
(00_scope.md R14, 60_exceptions.md R263). -/

namespace Sys2Proof.Machine

/-- One atomic transition of one agent. -/
def step (s : State) : Host.Outcome State Fault Refusal := takeTurn (nextTurn s) s.popTurn

/-- The state whose very next step issues the word `w` (log 20). -/
def State.withFetchWord (s : State) (nbits w : Nat) : State := offerWord s nbits w

end Sys2Proof.Machine
end

