-- ==== Sys2Proof/Machine/Assembler.lean ====
section
/-! DEFINITION. The assembler of 30_encoding.md R117, R118 on lines already split into a mnemonic and numbers,
and the pseudo-command ALLOCN. Reading text is left out (log 18). -/

namespace Sys2Proof.Machine

/-- ALLOCN (30_encoding.md R118, 42_filter_alloc.md R179): one ALLOC per identifier, in list order. -/
def expandAllocn (ids : List Ident) : List Instr := ids.map Instr.alloc

/-- A line of a listing (30_encoding.md R117): the mnemonic and its numbers. -/
inductive AsmLine where
  | init (sel : Nat)
  | alloc (id : Nat)
  | tx (id len : Nat) (bytes : List Nat)
  | avail
  | rx
  | allocn (ids : List Nat)
  deriving DecidableEq, Repr

/-- A number as an operand of width `n`, if it fits. -/
def operand (n v : Nat) : Option (BitVec n) := if v < 2 ^ n then some (BitVec.ofNat n v) else none

/-- The payload of a TX line: bytes omitted at the end are 0 (30_encoding.md R117); more than eight do not
assemble. -/
def payloadOfList (bytes : List Nat) : Option Payload :=
  if bytes.length ≤ Config.payload then
    match operand 8 (bytes.getD 0 0), operand 8 (bytes.getD 1 0), operand 8 (bytes.getD 2 0),
      operand 8 (bytes.getD 3 0), operand 8 (bytes.getD 4 0), operand 8 (bytes.getD 5 0),
      operand 8 (bytes.getD 6 0), operand 8 (bytes.getD 7 0) with
    | some b0, some b1, some b2, some b3, some b4, some b5, some b6, some b7 =>
      some ⟨b0, b1, b2, b3, b4, b5, b6, b7⟩
    | _, _, _, _, _, _, _, _ => none
  else none

/-- The identifiers of an ALLOCN line. -/
def identList : List Nat → Option (List Ident)
  | [] => some []
  | v :: vs =>
    match operand Config.idw v, identList vs with
    | some i, some is => some (i :: is)
    | _, _ => none

/-- The commands a line stands for, `none` if an operand does not fit its field. -/
def assemble : AsmLine → Option (List Instr)
  | .init sel => (operand 8 sel).map fun x => [.init x]
  | .alloc id => (operand Config.idw id).map fun x => [.alloc x]
  | .tx id len bytes =>
    match operand Config.idw id, operand 8 len, payloadOfList bytes with
    | some i, some l, some d => some [.tx i l d]
    | _, _, _ => none
  | .avail => some [.avail]
  | .rx => some [.rx]
  | .allocn ids => (identList ids).map expandAllocn

/-- The command words of a line (30_encoding.md R117). -/
def assembleWords (l : AsmLine) : Option (List CmdWord) := (assemble l).map fun is => is.map encode

end Sys2Proof.Machine
end

