-- ==== Sys2Proof/Safety.lean ====
section
/-! DEFINITION. What claims are stated in: finite runs, runs with their fairness premises
(48_core_agent.md R246), the end of a run (R255), and the invariants of the reachable states
(10_state.md R44, R51). -/

namespace Sys2Proof.Machine

/-! ## Finite runs -/

/-- `n` steps of the machine. -/
def runSteps : Nat → State → Host.Outcome State Fault Refusal
  | 0, s => .next s
  | n + 1, s =>
    match step s with
    | .next t => runSteps n t
    | .fault r => .fault r
    | .refused r => .refused r

/-- A run of a program is over (48_core_agent.md R255): every word issued and answered, `upc` = IDLE. It says
nothing of a pending transmit request, of FIFO, or of what CORE may still do. -/
def runOver (s : State) : Bool := s.port.isEmpty && s.upc == .idle

/-- The responses delivered so far, oldest first (48_core_agent.md R252). -/
def responses (h : List Event) : List CmdWord :=
  h.filterMap fun
    | .retire rw => some rw
    | .refuse rw => some rw
    | _ => none

/-- How many command words HOST has issued, accepted or refused. -/
def issuedCount (h : List Event) : Nat :=
  h.countP fun
    | .issue _ => true
    | _ => false

/-- How many times CORE has acknowledged a request for initialisation mode. -/
def ackInitCount (h : List Event) : Nat := h.count .ackInit
/-- How many times CORE has acknowledged a request for normal mode. -/
def ackNormalCount (h : List Event) : Nat := h.count .ackNormal

/-! ## Infinite runs and the fairness premises (48_core_agent.md R246) -/

/-- An infinite run: states `σ` and the turns `τ` taken between them. -/
def IsRun (σ : Nat → State) (τ : Nat → Turn) : Prop :=
  ∀ n, takeTurn (τ n) (σ n) = .next (σ (n + 1))

/-- SEQ_FAIR: while a command runs, SEQ always eventually takes its next step. -/
def SeqFair (σ : Nat → State) (τ : Nat → Turn) : Prop :=
  ∀ n, (σ n).upc ≠ .idle → ∃ m, n ≤ m ∧ τ m = .block

/-- Weak fairness of a step of CORE: if it stays enabled it eventually occurs. -/
def WeaklyFair (a : CoreAct) (σ : Nat → State) (τ : Nat → Turn) : Prop :=
  ∀ n, (∀ m, n ≤ m → coreEnabled a (σ m) = true) → ∃ m, n ≤ m ∧ τ m = .core a

/-- CLOCK_OK: both acknowledgments are weakly fair. -/
def ClockOk (σ : Nat → State) (τ : Nat → Turn) : Prop :=
  WeaklyFair .ackInit σ τ ∧ WeaklyFair .ackNormal σ τ

/-- BUS_OK: TX_DONE is weakly fair. The source never promises it. -/
def BusOk (σ : Nat → State) (τ : Nat → Turn) : Prop := WeaklyFair .txDone σ τ

/-! ## Labels -/

/-- The parts of the micro-programs, by what MODE, FINIT and the latched command must be there. -/
inductive Phase where
  | idle
  /-- I0. -/
  | initFirst
  /-- I1 to I7 (10_state.md R44 (b)). -/
  | initRest
  /-- A0 and A1. -/
  | allocFirst
  /-- A2 to A5 (10_state.md R44 (c)). -/
  | bracket
  /-- T1 to T6. -/
  | tx
  /-- V1. -/
  | avail
  /-- R1 to R5. -/
  | rx
  deriving DecidableEq, Repr

/-- The part that a label belongs to. -/
def Upc.phase : Upc → Phase
  | .idle => .idle
  | .i0 => .initFirst
  | .i1 _ => .initRest
  | .i2 _ => .initRest
  | .i3 _ => .initRest
  | .i4a => .initRest
  | .i4b => .initRest
  | .i4c => .initRest
  | .i4d => .initRest
  | .i4e => .initRest
  | .i5 => .initRest
  | .i6 => .initRest
  | .i7 => .initRest
  | .a0 => .allocFirst
  | .a1 => .allocFirst
  | .a2 => .bracket
  | .a3a _ _ _ => .bracket
  | .a3b _ _ => .bracket
  | .a3c _ _ => .bracket
  | .a3d _ _ => .bracket
  | .a3e _ => .bracket
  | .a4 => .bracket
  | .a5 => .bracket
  | .t1 => .tx
  | .t2 => .tx
  | .t3 => .tx
  | .t4 => .tx
  | .t5 => .tx
  | .t6 => .tx
  | .v1 => .avail
  | .r1 => .rx
  | .r2 _ => .rx
  | .r3 _ _ => .rx
  | .r4 _ _ _ => .rx
  | .r5 _ _ _ _ => .rx

/-- The labels I1 to I7 (10_state.md R44 (b)). -/
def Upc.insideInit (u : Upc) : Bool := u.phase == .initRest

/-- The labels A2 to A5 (10_state.md R44 (c)). -/
def Upc.insideBracket (u : Upc) : Bool := u.phase == .bracket

/-- The labels of INIT's micro-program. -/
def Upc.ofInit (u : Upc) : Bool := u.phase == .initFirst || u.phase == .initRest

/-- The labels of ALLOC's micro-program. -/
def Upc.ofAlloc (u : Upc) : Bool := u.phase == .allocFirst || u.phase == .bracket

/-- The labels of TX's micro-program. -/
def Upc.ofTx (u : Upc) : Bool := u.phase == .tx

/-- The labels of a command's micro-program (10_state.md R43). -/
def Upc.belongsTo (u : Upc) : Instr → Bool
  | .init _ => u.ofInit
  | .alloc _ => u.ofAlloc
  | .tx _ _ _ => u.ofTx
  | .avail => u.phase == .avail
  | .rx => u.phase == .rx

/-! ## The invariants -/

/-- MODE is the value that goes with the label (10_state.md R44 (a), (b), (c)). -/
def modeFits (u : Upc) (m : Mode) : Bool :=
  match u.phase with
  | .idle => m == .uninitialized || m == .normal
  | .initFirst => m == .uninitialized
  | .initRest => m == .initializing
  | .allocFirst => m == .normal
  | .bracket => m == .filterConfiguration
  | .tx => m == .normal
  | .avail => m == .normal
  | .rx => m == .normal

/-- `CW` is a legal word of the command whose label `upc` is (10_state.md R43). -/
def latchFits (s : State) : Bool :=
  match decode s.cw with
  | .ok i => s.upc == .idle || s.upc.belongsTo i
  | .error _ => s.upc == .idle

/-- The scratch values in the label are those that 10_state.md R43 says: functions of `CW` and CURSOR. -/
def scratchFits (s : State) : Bool :=
  match s.upc with
  | .i1 p | .i2 p | .i3 p => p == bt (argOf s.cw)
  | .a3a bank slot h => bank == bankOf s.cursor && slot == slotOf s.cursor && h == half (idOf s.cw)
  | .a3b bank h | .a3c bank h | .a3d bank h =>
    bank == bankOf s.cursor && slotOf s.cursor == 0 && h == half (idOf s.cw)
  | .a3e bank => bank == bankOf s.cursor && slotOf s.cursor == 0
  | _ => true

/-- CURSOR is at most 112, and below it once ALLOC has passed its saturation test (10_state.md R44 (d)); it is 0 inside
INIT. -/
def cursorFits (u : Upc) (c : BitVec 7) : Bool :=
  match u.phase with
  | .idle => decide (c.toNat ≤ 112)
  | .initFirst => c == 0
  | .initRest => c == 0
  | .allocFirst => if u = .a1 then decide (c.toNat < 112) else decide (c.toNat ≤ 112)
  | .bracket => if u = .a5 then decide (c.toNat ≤ 112) else decide (c.toNat < 112)
  | .tx => decide (c.toNat ≤ 112)
  | .avail => decide (c.toNat ≤ 112)
  | .rx => decide (c.toNat ≤ 112)

/-- POLL is at most TX_POLL_BOUND, and below it while the wait goes on (10_state.md R42). -/
def pollFits (u : Upc) (p : BitVec 20) : Bool :=
  if u = .t6 then decide (p.toNat < 1000000) else decide (p.toNat ≤ 1000000)

/-- CORE_MODE and INRQ are those that the progress of INIT allows (41_mode_control.md R160). -/
def coreFits (s : State) : Bool :=
  match s.upc with
  | .i0 | .i1 _ => !s.inrq && s.coreMode == .off
  | .i2 _ => s.inrq && (s.coreMode == .off || s.coreMode == .init)
  | .i3 _ | .i4a | .i4b | .i4c | .i4d | .i4e | .i5 => s.inrq && s.coreMode == .init
  | .i6 => !s.inrq && (s.coreMode == .init || s.coreMode == .normal)
  | _ =>
    if s.mode = .uninitialized then !s.inrq && s.coreMode == .off
    else !s.inrq && s.coreMode == .normal

/-- Before INIT programs a register it holds its reset value (10_state.md R44 (e), 41_mode_control.md R161 (d)). -/
def resetFits (s : State) : Bool :=
  match s.upc with
  | .i0 | .i1 _ | .i2 _ | .i3 _ =>
    s.btr == 0 && s.txid == 0 && s.txdt == 0 && s.txdl == 0 && s.txdh == 0 && s.fscale == 0
  | .i4a => s.txid == 0 && s.txdt == 0 && s.txdl == 0 && s.txdh == 0 && s.fscale == 0
  | .idle =>
    s.mode != .uninitialized ||
      (s.cursor == 0 && s.ctl == 0 && s.btr == 0 && s.txid == 0 && s.txdt == 0 && s.txdl == 0 &&
        s.txdh == 0 && s.fscale == 0)
  | _ => true

/-- Outside CORE_MODE = Normal nothing is received and nothing is requested (48_core_agent.md R240, 10_state.md
R51 (f)). -/
def quietFits (s : State) : Bool := s.coreMode == .normal || (s.fifo.isEmpty && !s.txrq)

/-- FINIT = 1 exactly while ALLOC is between A1 and A5 (10_state.md R44 (c)). -/
def finitFits (s : State) : Bool := s.finit == s.upc.insideBracket

/-- The cursor that FACT goes by: at A4 the bank being filled is allocated and not yet counted (log 23). -/
def countedSlots (s : State) : Nat :=
  match s.upc with
  | .a4 => s.cursor.toNat + 1
  | _ => s.cursor.toNat

/-- INIT step I4e has been performed. -/
def DefaultInstalled (s : State) : Prop :=
  match s.upc with
  | .i0 | .i1 _ | .i2 _ | .i3 _ | .i4a | .i4b | .i4c | .i4d | .i4e => False
  | _ => s.mode ≠ .uninitialized

/-- FACT: no bank before INIT's step I4e, then bank 0 and every bank with an allocated slot (10_state.md R51 (c)). -/
def FactFits (s : State) : Prop :=
  ∀ b : Fin Config.nBanks, s.fact.getLsbD b = true ↔
    DefaultInstalled s ∧ (b.val = 0 ∨ 4 * b.val < countedSlots s)

/-- The first ALLOC has written bank 0's packing bit. -/
def BankZeroStarted (s : State) : Prop :=
  match s.upc with
  | .a3c _ _ | .a3d _ _ | .a3e _ | .a4 => True
  | _ => False

/-- FSCALE: only bank 0 is ever in 32-bit packing, until the first ALLOC (10_state.md R51 (d), 42_filter_alloc.md
R182). -/
def ScaleFits (s : State) : Prop :=
  s.fscale = 0 ∨ (s.fscale = 1 ∧ s.cursor = 0 ∧ ¬BankZeroStarted s)

/-- Reserved bits are 0 (10_state.md R51 (e)). -/
def reservedFits (s : State) : Bool :=
  s.ctl &&& definedBits .ctl == s.ctl && s.btr &&& definedBits .btr == s.btr &&
  s.txid &&& definedBits .txid == s.txid && s.txdt &&& definedBits .txdt == s.txdt &&
  s.fctl &&& definedBits .fctl == s.fctl && s.fmode &&& definedBits .fmode == s.fmode &&
  s.fscale &&& definedBits .fscale == s.fscale && s.fact &&& definedBits .fact == s.fact

/-- The invariant of the reachable states: true after reset and kept by every step. -/
structure StateInv (s : State) : Prop where
  mode : modeFits s.upc s.mode = true
  latch : latchFits s = true
  scratch : scratchFits s = true
  cursor : cursorFits s.upc s.cursor = true
  poll : pollFits s.upc s.poll = true
  core : coreFits s = true
  untouched : resetFits s = true
  quiet : quietFits s = true
  finit : finitFits s = true
  maskMode : s.fmode = 0
  fact : FactFits s
  scale : ScaleFits s
  reserved : reservedFits s = true
  fifo : s.fifo.length ≤ Config.fifoDepth

/-- The count of issued words against the responses delivered: one is outstanding while a command runs
(48_core_agent.md R252). -/
def ResponseInv (s : State) : Prop :=
  (s.upc = .idle → issuedCount s.history = (responses s.history).length) ∧
  (s.upc ≠ .idle → issuedCount s.history = (responses s.history).length + 1)

/-- The acknowledgments recorded so far, given where CORE is (48_core_agent.md R245). -/
def AckInv (s : State) : Prop :=
  match s.coreMode with
  | .off => ackInitCount s.history = 0 ∧ ackNormalCount s.history = 0
  | .init => ackInitCount s.history = 1 ∧ ackNormalCount s.history = 0
  | .normal => ackInitCount s.history = 1 ∧ ackNormalCount s.history = 1

end Sys2Proof.Machine
end

