-- ==== Sys2Proof/Certificates/Slice0/Obligations.lean ====
section
/-! DEFINITION. The statements for the provers. Every exact next state below says the frame as well: a field that
is not named in `{ s with … }` is unchanged. The opaque parameters of Config (bit-timing table, acceptance, draws,
race) are unknown constants, so each statement holds whatever they are. -/

open Sys2Proof Sys2Proof.Machine

/-! ## Encoding -/

/-- Command words written out from 30_encoding.md R103 to R107, and what the decoder reads from them. -/
def Obligations.DecodedSpecWords : Prop :=
  decode 0x000000000000000000000001#96 = .ok (.init 0) ∧
  decode 0x000000000000000001230002#96 = .ok (.alloc 0x123) ∧
  decode 0x2211FFEEDDCCBBAA07FF0F03#96 =
    .ok (.tx 0x7FF 15 ⟨0xAA, 0xBB, 0xCC, 0xDD, 0xEE, 0xFF, 0x11, 0x22⟩) ∧
  decode 0x000000000000000000000004#96 = .ok .avail ∧
  decode 0x000000000000000000000005#96 = .ok .rx ∧
  decodeFor 2 0x000000000000000000000201#96 = .ok (.init 2) ∧
  decodeFor 2 0x000000000000000000000301#96 = .error .selector ∧
  decode 0x000000000000000009230002#96 = .error .mustBeZero ∧
  decode 0x000000000000000000000006#96 = .error .opcode

/-- Decode and encode agree: every well-formed command, with every operand at every value, is read back from its
word (30_encoding.md R103 to R107, R110). -/
def Obligations.DecodeOfEncodeIsTheCommand : Prop :=
  ∀ i : Instr, i.wellFormed = true → decode (encode i) = .ok i

/-- The other direction: each legal word has one meaning, and it is the encoding of that meaning; in particular
every unused field is zero and every decoded command is well-formed (30_encoding.md R109, R110). -/
def Obligations.EncodeOfDecodeIsTheWord : Prop :=
  ∀ (w : CmdWord) (i : Instr), decode w = .ok i → encode i = w ∧ i.wellFormed = true

/-- Which words are illegal: the three causes of 30_encoding.md R109 and no other. -/
def Obligations.IllegalWordsExactly : Prop :=
  ∀ w : CmdWord,
    (∃ c, decode w = .error c) ↔
      (opcOf w ≠ 1 ∧ opcOf w ≠ 2 ∧ opcOf w ≠ 3 ∧ opcOf w ≠ 4 ∧ opcOf w ≠ 5) ∨
      (opcOf w = 1 ∧ w.extractLsb' 16 80 ≠ 0) ∨
      (opcOf w = 2 ∧ (argOf w ≠ 0 ∨ w.extractLsb' 27 69 ≠ 0)) ∨
      (opcOf w = 3 ∧ w.extractLsb' 27 5 ≠ 0) ∨
      ((opcOf w = 4 ∨ opcOf w = 5) ∧ w.extractLsb' 8 88 ≠ 0) ∨
      (opcOf w = 1 ∧ Config.nBitrates ≤ (argOf w).toNat)

/-- Payload packing and receive unpacking (30_encoding.md R113, R116): the DATA field of a TX word is the two
data-register values, unpacking inverts operand assembly, and the response of RX carries the frame. -/
def Obligations.FramePackingAndUnpacking : Prop :=
  (∀ (id : Ident) (len : Byte) (d : Payload),
    (encode (.tx id len d)).extractLsb' 32 32 = lowWord d ∧
    (encode (.tx id len d)).extractLsb' 64 32 = highWord d) ∧
  (∀ f : Frame,
    stidOf (txidVal f.id) = f.id ∧
    dlcOf (f.dlc.zeroExtend 32) = f.dlc ∧
    payloadOf (lowWord f.data) (highWord f.data) = f.data ∧
    frameOfResponse (rxWord (txidVal f.id) (f.dlc.zeroExtend 32) (lowWord f.data) (highWord f.data)) = f)

/-- The fields of the timing word (30_encoding.md R115, 40_bit_timing.md R142 (a)): for a profile in range each
field reads back the profile's value minus one and every other bit is 0. -/
def Obligations.TimingWordFields : Prop :=
  ∀ p : Profile, Config.profileInRange p →
    ((btrVal p).extractLsb' 0 10).toNat + 1 = p.brp ∧
    ((btrVal p).extractLsb' 16 4).toNat + 1 = p.ts1 ∧
    ((btrVal p).extractLsb' 20 3).toNat + 1 = p.ts2 ∧
    btrVal p &&& definedBits .btr = btrVal p

/-- The filter half value (30_encoding.md R114) and the half-word update (20_memory.md R77): the identifier in bits
15:5, bits 4:0 zero, both halves of `bothHalves`; an update gives the upper half and keeps the lower one. -/
def Obligations.FilterHalfFields : Prop :=
  (∀ id : Ident,
    (half id).extractLsb' 5 11 = id ∧ (half id).extractLsb' 0 5 = 0 ∧
    (bothHalves (half id)).extractLsb' 0 16 = half id ∧
    (bothHalves (half id)).extractLsb' 16 16 = half id) ∧
  (∀ (h : Half) (t : Word),
    (withUpperHalf h t).extractLsb' 16 16 = h ∧
    (withUpperHalf h t).extractLsb' 0 16 = t.extractLsb' 0 16)

/-- The register map (10_state.md R21, R37): 72 registers at 72 distinct offsets, each found at its own offset, and
an access anywhere else in the register space finds none. -/
def Obligations.RegisterMapIsOneToOne : Prop :=
  (∀ r : Reg, regAt (regOffset r) = some r) ∧ (∀ a r, regAt a = some r → a = regOffset r) ∧
  (∀ k a s, (∀ r, a ≠ regOffset r) → observe k a s = 0)

/-! ## Reset -/

/-- The state after reset (10_state.md R50), where the spec gives a value: every register of the register space 0
on the observation port except the filter sub-registers (unspecified) and the receive mailbox (draws), MODE
Uninitialized, CURSOR, POLL 0, `upc` IDLE, CORE_MODE Off, FIFO empty. -/
def Obligations.StateAfterReset : Prop :=
  (∀ k, ∀ r ∈ [Reg.ctl, .sts, .rxf, .btr, .txid, .txdt, .txdl, .txdh, .fctl, .fmode, .fscale, .fact],
    observe k (regOffset r) State.reset = 0) ∧
  State.reset.mode = .uninitialized ∧ State.reset.cursor = 0 ∧ State.reset.poll = 0 ∧
  State.reset.upc = .idle ∧ State.reset.coreMode = .off ∧ State.reset.fifo = []

/-- The invariants of the reachable states (the state's, the responses', the acknowledgments') hold after reset. -/
def Obligations.InvariantAfterReset : Prop :=
  StateInv State.reset ∧ ResponseInv State.reset ∧ AckInv State.reset

/-! ## Reads and writes of the register space -/

/-- The views (10_state.md R47): INAK and FMP, and the receive mailbox showing the head of a FIFO that is not
empty; with an empty FIFO a draw stands in the named field. Reserved bits read 0 in every register and every state
(R37). That a draw is an unknown constant of Config at its number is the model's form of it (log 5), and that an
observation may take the draw of any number `k` is log 17. -/
def Obligations.ViewsOfHiddenState : Prop :=
  ∀ (k : Nat) (s : State),
    readReg k .sts s = (if s.coreMode = .init then 1 else 0) ∧
    (readReg k .rxf s).extractLsb' 0 2 = BitVec.ofNat 2 s.fifo.length ∧
    (∀ f fs, s.fifo = f :: fs →
      readReg k .rxid s = f.id.zeroExtend 32 <<< 21 ∧
      readReg k .rxdt s = f.dlc.zeroExtend 32 ∧
      readReg k .rxdl s = f.data.b3 ++ f.data.b2 ++ f.data.b1 ++ f.data.b0 ∧
      readReg k .rxdh s = f.data.b7 ++ f.data.b6 ++ f.data.b5 ++ f.data.b4) ∧
    (s.fifo = [] →
      readReg k .rxid s = (Config.drawId k).zeroExtend 32 <<< 21 ∧
      readReg k .rxdt s = (Config.drawDlc k).zeroExtend 32 ∧
      readReg k .rxdl s = Config.drawLow k ∧
      readReg k .rxdh s = Config.drawHigh k) ∧
    (∀ r, readReg k r s &&& ~~~definedBits r = 0)

/-- MemRead and MemWrite on a stored register (20_memory.md R73, R74): with the mailbox free, what is written on
the defined bits reads back and no other register changes its value. -/
def Obligations.StoredRegisterReadsBack : Prop :=
  ∀ (k : Nat) (r r' : Reg) (v : Word) (s : State),
    s.txrq = false → r ∉ [Reg.sts, .rxf, .rxid, .rxdt, .rxdl, .rxdh] →
    readReg k r (writeReg r v s) = v &&& definedBits r ∧
    (r' ≠ r → readReg k r' (writeReg r v s) = readReg k r' s)

/-! ## Issue, the gate, the refusal -/

/-- A step takes the next turn: with the block's turn next, an idle block and a legal word at the port, it is
`exec` of the decoded command on the state with the word and the turn taken; with a command running, it is `exec`
of the command latched in `CW`; with CORE's turn next it is that step of CORE if it is enabled, and otherwise
nothing but the turn being taken. The port and the schedule are the model's choice (log 1 to 4). -/
def Obligations.StepRunsTheDecodedCommand : Prop :=
  ∀ s : State,
    (nextTurn s = .block →
      (∀ w ws i, s.upc = .idle → s.port = w :: ws → decode w = .ok i →
        step s = exec i { s with port := ws, sched := s.sched.tail }) ∧
      (∀ i, s.upc ≠ .idle → decode s.cw = .ok i → step s = exec i { s with sched := s.sched.tail }) ∧
      (s.upc = .idle → s.port = [] → step s = .next { s with sched := s.sched.tail })) ∧
    (∀ a, nextTurn s = .core a →
      step s = .next (if coreEnabled a { s with sched := s.sched.tail }
        then coreEffect a { s with sched := s.sched.tail } else { s with sched := s.sched.tail }))

/-- Issue of a command that passes the gate (48_core_agent.md R250): the word is latched, the micro-program begins,
the history records the Issue, nothing else changes. -/
def Obligations.IssueLatchesTheCommand : Prop :=
  ∀ (i : Instr) (s : State), s.upc = .idle → s.mode = gateMode i →
    exec i s = .next { s with
      cw := encode i
      upc := (match i with | .init _ => .i0 | .alloc _ => .a0 | .tx _ _ _ => .t1 | .avail => .v1 | .rx => .r1)
      history := s.history ++ [.issue (encode i)] }

/-- The two causes of a refusal (60_exceptions.md R264, R265, R266): a legal command in another mode than the gate
asks for, and an illegal word; a legal command in its mode is not refused. Nothing changes but the history, the
response is 0x80, the next word may follow. -/
def Obligations.RefusalChangesNothing : Prop :=
  (∀ (i : Instr) (s : State), s.upc = .idle →
    s.mode ≠ (match i with
      | .init _ => .uninitialized
      | .alloc _ => .normal
      | .tx _ _ _ => .normal
      | .avail => .normal
      | .rx => .normal) →
    exec i s = .next { s with
      history := s.history ++ [.issue (encode i), .refuse 0x000000000000000000000080] }) ∧
  (∀ (s : State) (w : CmdWord) (ws : List CmdWord) (c : Illegal),
    nextTurn s = .block → s.upc = .idle → s.port = w :: ws → decode w = .error c →
    step s = .next { s with
      port := ws
      sched := s.sched.tail
      history := s.history ++ [.issue w, .refuse 0x000000000000000000000080] }) ∧
  (∀ (i : Instr) (s : State), s.upc = .idle → s.mode = gateMode i →
    ∃ t, exec i s = .next t ∧ t.upc ≠ .idle ∧ t.history = s.history ++ [.issue (encode i)])

/-! ## INIT -/

/-- INIT steps I0 and I1 (41_mode_control.md R151, R152). -/
def Obligations.InitRequestsInitialisation : Prop :=
  ∀ (sel : Byte) (s : State),
    (s.upc = .i0 →
      exec (.init sel) s = .next { s with mode := .initializing, cursor := 0, upc := .i1 (bt sel) }) ∧
    (∀ p, s.upc = .i1 p → ∃ t, exec (.init sel) s = .next t ∧
      t = { s with ctl := readReg 0 .ctl s ||| 0x00000001, upc := .i2 p } ∧
      (s.coreMode ≠ .init → coreEnabled .ackInit t = true))

/-- INIT's two waits and the request between them (41_mode_control.md R153, R156): I2 proceeds exactly when INAK
reads 1, I6 exactly when it reads 0, a failed poll changes nothing, and I5 clears INRQ. -/
def Obligations.InitWaitsForAcknowledgments : Prop :=
  ∀ (sel : Byte) (s : State),
    (∀ p, s.upc = .i2 p →
      exec (.init sel) s = .next (if s.coreMode = .init then { s with upc := .i3 p } else s)) ∧
    (s.upc = .i5 → ∃ t, exec (.init sel) s = .next t ∧
      t = { s with ctl := readReg 0 .ctl s &&& 0xFFFFFFFE, upc := .i6 } ∧
      (s.coreMode = .init → coreEnabled .ackNormal t = true)) ∧
    (s.upc = .i6 →
      exec (.init sel) s = .next (if s.coreMode = .init then s else { s with upc := .i7 }))

/-- INIT steps I3 and I4a to I4e (41_mode_control.md R154, R155): BTR becomes the timing word of the profile,
whatever it held, and the five writes of the default filter follow. -/
def Obligations.InitProgramsTimingAndFilter : Prop :=
  ∀ (sel : Byte) (s : State),
    (∀ p, s.upc = .i3 p → exec (.init sel) s = .next { s with btr := btrVal p, upc := .i4a }) ∧
    (s.upc = .i4a → exec (.init sel) s =
      .next { s with fscale := readReg 0 .fscale s ||| 0x00000001, upc := .i4b }) ∧
    (s.upc = .i4b → exec (.init sel) s =
      .next { s with fmode := readReg 0 .fmode s &&& 0xFFFFFFFE, upc := .i4c }) ∧
    (s.upc = .i4c → exec (.init sel) s =
      .next { s with banks := s.banks.set 0 { s.banks[0] with r1 := 0 }, upc := .i4d }) ∧
    (s.upc = .i4d → exec (.init sel) s =
      .next { s with banks := s.banks.set 0 { s.banks[0] with r2 := 0 }, upc := .i4e }) ∧
    (s.upc = .i4e → exec (.init sel) s =
      .next { s with fact := readReg 0 .fact s ||| 0x00000001, upc := .i5 })

/-- INIT step I7 (41_mode_control.md R158): MODE becomes Normal, the response is delivered, and from then on the
gate admits every command but INIT. -/
def Obligations.InitRetiresInNormal : Prop :=
  ∀ (sel : Byte) (s : State), s.upc = .i7 →
    ∃ t, exec (.init sel) s = .next t ∧
      t = { s with
        mode := .normal
        upc := .idle
        history := s.history ++ [.retire 0x000000000000000000000001] } ∧
      (∀ sel', t.mode ≠ gateMode (.init sel')) ∧
      (∀ id, t.mode = gateMode (.alloc id)) ∧ (∀ id len d, t.mode = gateMode (.tx id len d)) ∧
      t.mode = gateMode .avail ∧ t.mode = gateMode .rx

/-! ## ALLOC -/

/-- ALLOC step A0 (42_filter_alloc.md R171): at CURSOR = 112 the command retires at once with the normal response
and no other effect; otherwise it goes on to A1. -/
def Obligations.AllocSaturatesSilently : Prop :=
  ∀ (id : Ident) (s : State), s.upc = .a0 →
    (s.cursor = 112 → exec (.alloc id) s = .next { s with
      upc := .idle
      history := s.history ++ [.retire 0x000000000000000000000001] }) ∧
    (s.cursor ≠ 112 → exec (.alloc id) s = .next { s with upc := .a1 })

/-- ALLOC steps A1, A4 and A5 (42_filter_alloc.md R172, R178): the filter-configuration bracket, with no wait, and
the cursor counting up by one without wrapping. -/
def Obligations.AllocBracketAndCount : Prop :=
  ∀ (id : Ident) (s : State),
    (s.upc = .a1 → exec (.alloc id) s =
      .next { s with fctl := readReg 0 .fctl s ||| 0x00000001, mode := .filterConfiguration, upc := .a2 }) ∧
    (s.upc = .a4 → s.cursor.toNat ≤ 111 →
      ∃ t, exec (.alloc id) s = .next t ∧ t = { s with cursor := s.cursor + 1, upc := .a5 } ∧
        t.cursor.toNat = s.cursor.toNat + 1) ∧
    (s.upc = .a5 → exec (.alloc id) s = .next { s with
      fctl := readReg 0 .fctl s &&& 0xFFFFFFFE
      mode := .normal
      upc := .idle
      history := s.history ++ [.retire 0x000000000000000000000001] })

/-- ALLOC step A2 (42_filter_alloc.md R173): bank and slot are quotient and remainder of the cursor by 4, that is,
CURSOR[6:2] and CURSOR[1:0], and the bank's sub-registers are at 0x240 + 8·bank and 0x244 + 8·bank. -/
def Obligations.AllocComputesBankAndSlot : Prop :=
  ∀ (id : Ident) (s : State), s.upc = .a2 → s.cursor.toNat ≤ 111 →
    ∃ bank slot, exec (.alloc id) s = .next { s with upc := .a3a bank slot (half id) } ∧
      bank.toNat = s.cursor.toNat / 4 ∧ slot.toNat = s.cursor.toNat % 4 ∧
      bank = s.cursor.extractLsb' 2 5 ∧ slot = s.cursor.extractLsb' 0 2 ∧ bank.toNat ≤ 27 ∧
      (∀ b : Fin 28, b.val = bank.toNat →
        regAt (0x240 + 8 * bank.toNat) = some (.fbR1 b) ∧ regAt (0x244 + 8 * bank.toNat) = some (.fbR2 b))

/-- ALLOC slot 0 (42_filter_alloc.md R174), steps A3a to A3e: mask mode, 16-bit packing, both sub-registers written
whole with the identifier in both halves, the bank allocated. -/
def Obligations.AllocSlotZeroStartsBank : Prop :=
  ∀ (id : Ident) (b : Fin 28) (bank : BitVec 5) (h : Half) (s : State), bank.toNat = b.val →
    (s.upc = .a3a bank 0 h → exec (.alloc id) s = .next { s with
      fmode := readReg 0 .fmode s &&& ~~~(1#32 <<< b.val)
      upc := .a3b bank h }) ∧
    (s.upc = .a3b bank h → exec (.alloc id) s = .next { s with
      fscale := readReg 0 .fscale s &&& ~~~(1#32 <<< b.val)
      upc := .a3c bank h }) ∧
    (s.upc = .a3c bank h → exec (.alloc id) s = .next { s with
      banks := s.banks.set b { s.banks[b] with r1 := h ++ h }
      upc := .a3d bank h }) ∧
    (s.upc = .a3d bank h → exec (.alloc id) s = .next { s with
      banks := s.banks.set b { s.banks[b] with r2 := h ++ h }
      upc := .a3e bank }) ∧
    (s.upc = .a3e bank → exec (.alloc id) s = .next { s with
      fact := readReg 0 .fact s ||| (1#32 <<< b.val)
      upc := .a4 })

/-- ALLOC slots 1, 2 and 3 (42_filter_alloc.md R175, R176, R177): slot 1 replaces the upper half of R1, slot 2 both
halves of R2, slot 3 the upper half of R2; the other half, the other sub-register, the other banks and the
configuration bits are untouched. -/
def Obligations.AllocSlotsOneTwoThree : Prop :=
  ∀ (id : Ident) (b : Fin 28) (bank : BitVec 5) (h : Half) (s : State), bank.toNat = b.val →
    (s.upc = .a3a bank 1 h → exec (.alloc id) s = .next { s with
      banks := s.banks.set b { s.banks[b] with r1 := h ++ s.banks[b].r1.extractLsb' 0 16 }
      upc := .a4 }) ∧
    (s.upc = .a3a bank 2 h → exec (.alloc id) s = .next { s with
      banks := s.banks.set b { s.banks[b] with r2 := h ++ h }
      upc := .a4 }) ∧
    (s.upc = .a3a bank 3 h → exec (.alloc id) s = .next { s with
      banks := s.banks.set b { s.banks[b] with r2 := h ++ s.banks[b].r2.extractLsb' 0 16 }
      upc := .a4 })

/-- A whole ALLOC below saturation, the block's turns only (42_filter_alloc.md R170, 70_reset_and_hazards.md R304):
from Issue to the response in 1 + 10 steps for slot 0 and 1 + 6 steps for slots 1 to 3. On the empty schedule CORE
takes no turn (the model's choice, log 1 and 2). -/
def Obligations.AllocWholeCommand : Prop :=
  ∀ (id : Ident) (b : Fin 28) (ws : List CmdWord) (s : State),
    s.upc = .idle → s.mode = .normal → s.sched = [] → s.port = encode (.alloc id) :: ws →
    s.cursor.toNat < 112 → s.cursor.toNat / 4 = b.val → s.finit = false → reservedFits s = true →
    let c := s.cursor.toNat % 4
    let old := s.banks[b]
    runSteps (if c = 0 then 11 else 7) s = .next { s with
      port := ws
      cw := encode (.alloc id)
      cursor := s.cursor + 1
      fmode := if c = 0 then s.fmode &&& ~~~(1#32 <<< b.val) else s.fmode
      fscale := if c = 0 then s.fscale &&& ~~~(1#32 <<< b.val) else s.fscale
      fact := if c = 0 then s.fact ||| (1#32 <<< b.val) else s.fact
      banks := s.banks.set b
        (if c = 0 then ⟨half id ++ half id, half id ++ half id⟩
         else if c = 1 then { old with r1 := half id ++ old.r1.extractLsb' 0 16 }
         else if c = 2 then { old with r2 := half id ++ half id }
         else { old with r2 := half id ++ old.r2.extractLsb' 0 16 })
      history := s.history ++ [.issue (encode (.alloc id)), .retire 0x000000000000000000000001] }

/-- The packing law (42_filter_alloc.md R181): four ALLOCs on a fresh bank leave it encoding the four identifiers in
slot order, and every other bank as it was. On the empty schedule: the block's turns only, no turn of CORE between
them (the model's choice, log 1 and 2). -/
def Obligations.PackingLaw : Prop :=
  ∀ (a b1 c d : Ident) (b : Fin 28) (ws : List CmdWord) (s : State),
    s.upc = .idle → s.mode = .normal → s.sched = [] → s.cursor.toNat = 4 * b.val →
    s.port = encode (.alloc a) :: encode (.alloc b1) :: encode (.alloc c) :: encode (.alloc d) :: ws →
    ∃ t1 t2 t3 t4,
      runSteps 11 s = .next t1 ∧ runSteps 18 s = .next t2 ∧ runSteps 25 s = .next t3 ∧
      runSteps 32 s = .next t4 ∧
      t1.banks = s.banks.set b ⟨half a ++ half a, half a ++ half a⟩ ∧
      t2.banks = s.banks.set b ⟨half b1 ++ half a, half a ++ half a⟩ ∧
      t3.banks = s.banks.set b ⟨half b1 ++ half a, half c ++ half c⟩ ∧
      t4.banks = s.banks.set b ⟨half b1 ++ half a, half d ++ half c⟩ ∧
      t4.cursor.toNat = 4 * b.val + 4 ∧ t4.upc = .idle ∧ t4.mode = .normal ∧ t4.port = ws

/-- The batch form and the cursor (42_filter_alloc.md R179, 30_encoding.md R118): the ALLOCs that ALLOCN stands for
raise the cursor by one each and stop at 112; the identifiers past that leave the banks alone. On the empty
schedule: the block's turns only, no turn of CORE between them (the model's choice, log 1 and 2). -/
def Obligations.AllocnStopsAtSaturation : Prop :=
  ∀ (ids : List Ident) (s : State),
    s.upc = .idle → s.mode = .normal → s.sched = [] → s.cursor.toNat ≤ 112 →
    s.port = (expandAllocn ids).map encode →
    ∃ n t, runSteps n s = .next t ∧ runOver t = true ∧ t.mode = .normal ∧
      t.cursor.toNat = min 112 (s.cursor.toNat + ids.length) ∧
      responses t.history = responses s.history ++ List.replicate ids.length 0x000000000000000000000001 ∧
      ∃ m u, m ≤ n ∧ runSteps m s = .next u ∧
        u.port = ((expandAllocn ids).map encode).drop (112 - s.cursor.toNat) ∧ u.upc = .idle ∧
        u.banks = t.banks ∧ u.fmode = t.fmode ∧ u.fscale = t.fscale ∧ u.fact = t.fact ∧
        u.cursor = t.cursor

/-! ## TX -/

/-- TX steps T1 to T5 with the mailbox free (43_transmit.md R191, R192, R193, R194). -/
def Obligations.TxLoadsMailboxAndRequests : Prop :=
  ∀ (id : Ident) (len : Byte) (d : Payload) (s : State), s.txrq = false →
    (s.upc = .t1 → exec (.tx id len d) s = .next { s with txid := id.zeroExtend 32 <<< 21, upc := .t2 }) ∧
    (s.upc = .t2 → exec (.tx id len d) s =
      .next { s with txdt := (len.extractLsb' 0 4).zeroExtend 32, upc := .t3 }) ∧
    (s.upc = .t3 → exec (.tx id len d) s =
      .next { s with txdl := (encode (.tx id len d)).extractLsb' 32 32, upc := .t4 }) ∧
    (s.upc = .t4 → exec (.tx id len d) s =
      .next { s with txdh := (encode (.tx id len d)).extractLsb' 64 32, upc := .t5 }) ∧
    (s.upc = .t5 → exec (.tx id len d) s =
      .next { s with txid := readReg 0 .txid s ||| 0x00000001, poll := 0, upc := .t6 })

/-- TX step T6, one poll (43_transmit.md R195): with TXRQ clear the command retires with DONE = 1; with TXRQ set
the poll is counted, and the command retires with DONE = 0 when the count reaches the bound. That the bound is
exactly 1000000 is the choice of log 12. -/
def Obligations.TxPollsUpToBound : Prop :=
  ∀ (id : Ident) (len : Byte) (d : Payload) (s : State), s.upc = .t6 →
    (s.txrq = false → exec (.tx id len d) s = .next { s with
      upc := .idle
      history := s.history ++ [.retire 0x000000000000000000000001] }) ∧
    (s.txrq = true → s.poll.toNat + 1 < 1000000 →
      exec (.tx id len d) s = .next { s with poll := s.poll + 1 }) ∧
    (s.txrq = true → s.poll.toNat + 1 = 1000000 → exec (.tx id len d) s = .next { s with
      poll := s.poll + 1
      upc := .idle
      history := s.history ++ [.retire 0x000000000000000000000000] })

/-- The race (43_transmit.md R197): each mailbox write of a TX made while a request is pending takes effect or is
ignored by a free choice of its own, and TX_DONE stays enabled; apart from that one register only the model's count
of free choices, `upc` and, at T5, POLL change. The choice `Config.raceLands` at the count `draws` is the model's
form of the race (log 5, 6): nothing is known of it, and the statement holds whatever it is. -/
def Obligations.TxWhilePendingIsARace : Prop :=
  ∀ (id : Ident) (len : Byte) (d : Payload) (s : State), s.txrq = true →
    (s.upc = .t1 → exec (.tx id len d) s = .next { s with
      txid := if Config.raceLands s.draws then id.zeroExtend 32 <<< 21 else s.txid
      draws := s.draws + 1
      upc := .t2 }) ∧
    (s.upc = .t2 → exec (.tx id len d) s = .next { s with
      txdt := if Config.raceLands s.draws then (len.extractLsb' 0 4).zeroExtend 32 else s.txdt
      draws := s.draws + 1
      upc := .t3 }) ∧
    (s.upc = .t3 → exec (.tx id len d) s = .next { s with
      txdl := if Config.raceLands s.draws then lowWord d else s.txdl
      draws := s.draws + 1
      upc := .t4 }) ∧
    (s.upc = .t4 → exec (.tx id len d) s = .next { s with
      txdh := if Config.raceLands s.draws then highWord d else s.txdh
      draws := s.draws + 1
      upc := .t5 }) ∧
    (s.upc = .t5 → ∃ t, exec (.tx id len d) s = .next t ∧
      t = { s with
        txid := if Config.raceLands s.draws then readReg 0 .txid s ||| 0x00000001 else s.txid
        poll := 0
        draws := s.draws + 1
        upc := .t6 } ∧
      t.txrq = true ∧ stidOf t.txid = stidOf s.txid) ∧
    (s.coreMode = .normal → coreEnabled .txDone s = true)

/-- A whole TX that CORE serves after `k` failed polls (43_transmit.md R190, R195): the frame consumed is the
command's, with the length reduced mod 16, and the response is DONE = 1. That every `k` below exactly 1000000 is
still served rests on the bound of log 12, and the schedule is the model's form of CORE's freedom (log 1). -/
def Obligations.TxServedAfterPolls : Prop :=
  ∀ (k : Nat) (id : Ident) (len : Byte) (d : Payload) (ws : List CmdWord) (ts : List Turn) (s : State),
    k < 1000000 → s.upc = .idle → s.mode = .normal → s.coreMode = .normal → s.txrq = false →
    s.port = encode (.tx id len d) :: ws →
    s.sched = List.replicate (6 + k) .block ++ .core .txDone :: .block :: ts →
    runSteps (8 + k) s = .next { s with
      port := ws
      sched := ts
      cw := encode (.tx id len d)
      txid := id.zeroExtend 32 <<< 21
      txdt := (len.extractLsb' 0 4).zeroExtend 32
      txdl := lowWord d
      txdh := highWord d
      poll := BitVec.ofNat 20 k
      history := s.history ++ [.issue (encode (.tx id len d)),
        .txConsumed ⟨id, len.extractLsb' 0 4, d⟩, .retire 0x000000000000000000000001] }

/-- A whole TX that CORE never serves (43_transmit.md R195, R196): it retires with DONE = 0 after exactly TX_POLL_BOUND
polls, with the request still pending. That the bound is exactly 1000000 is the choice of log 12, and the empty
schedule, on which CORE takes no turn, that of log 1 and 2. -/
def Obligations.TxGivesUpAtBound : Prop :=
  ∀ (id : Ident) (len : Byte) (d : Payload) (ws : List CmdWord) (s : State),
    s.upc = .idle → s.mode = .normal → s.txrq = false → s.sched = [] →
    s.port = encode (.tx id len d) :: ws →
    runSteps (6 + Config.txPollBound) s = .next { s with
      port := ws
      cw := encode (.tx id len d)
      txid := (id.zeroExtend 32 <<< 21) ||| 1
      txdt := (len.extractLsb' 0 4).zeroExtend 32
      txdl := lowWord d
      txdh := highWord d
      poll := BitVec.ofNat 20 Config.txPollBound
      history := s.history ++ [.issue (encode (.tx id len d)), .retire 0x000000000000000000000000] }

/-! ## AVAIL and RX -/

/-- AVAIL (44_receive.md R210): the response carries the number of pending frames; nothing else changes. -/
def Obligations.AvailCountsFrames : Prop :=
  ∀ s : State, s.upc = .v1 → s.fifo.length ≤ 2 →
    ∃ rw : CmdWord, exec .avail s = .next { s with upc := .idle, history := s.history ++ [.retire rw] } ∧
      rw.extractLsb' 0 8 = 1 ∧ (rw.extractLsb' 8 2).toNat = s.fifo.length ∧ rw.extractLsb' 10 86 = 0

/-- RX steps R1 to R5 with a frame pending (44_receive.md R211): the reads give the fields of the oldest frame, the
response is the words read, and at R5 that frame and no other leaves the FIFO. -/
def Obligations.RxReturnsOldestFrame : Prop :=
  ∀ (f : Frame) (fs : List Frame) (w1 w2 w3 w4 : Word) (s : State), s.fifo = f :: fs →
    (s.upc = .r1 → exec .rx s = .next { s with upc := .r2 (txidVal f.id) }) ∧
    (s.upc = .r2 w1 → exec .rx s = .next { s with upc := .r3 w1 (f.dlc.zeroExtend 32) }) ∧
    (s.upc = .r3 w1 w2 → exec .rx s = .next { s with upc := .r4 w1 w2 (lowWord f.data) }) ∧
    (s.upc = .r4 w1 w2 w3 → exec .rx s = .next { s with upc := .r5 w1 w2 w3 (highWord f.data) }) ∧
    (s.upc = .r5 w1 w2 w3 w4 → exec .rx s = .next { s with
      fifo := fs
      upc := .idle
      history := s.history ++ [.retire (w4 ++ w3 ++ 0#5 ++ w1.extractLsb' 21 11 ++ 0#4 ++
        w2.extractLsb' 0 4 ++ 0x01#8)] })

/-- RX at an empty FIFO (44_receive.md R211, R216): each read answers a draw in its named field, the release does
nothing, and the command retires with the response of the four words read, so with DONE = 1. That a draw is an
unknown constant at the count `draws`, which it raises, is the model's form of it (log 5). -/
def Obligations.RxOnEmptyFifoReturnsDraws : Prop :=
  ∀ (w1 w2 w3 w4 : Word) (s : State), s.fifo = [] →
    (s.upc = .r1 → exec .rx s =
      .next { s with upc := .r2 (txidVal (Config.drawId s.draws)), draws := s.draws + 1 }) ∧
    (s.upc = .r2 w1 → exec .rx s =
      .next { s with upc := .r3 w1 ((Config.drawDlc s.draws).zeroExtend 32), draws := s.draws + 1 }) ∧
    (s.upc = .r3 w1 w2 → exec .rx s =
      .next { s with upc := .r4 w1 w2 (Config.drawLow s.draws), draws := s.draws + 1 }) ∧
    (s.upc = .r4 w1 w2 w3 → exec .rx s =
      .next { s with upc := .r5 w1 w2 w3 (Config.drawHigh s.draws), draws := s.draws + 1 }) ∧
    (s.upc = .r5 w1 w2 w3 w4 → exec .rx s = .next { s with
      upc := .idle
      history := s.history ++ [.retire (rxWord w1 w2 w3 w4)] } ∧
      (rxWord w1 w2 w3 w4).extractLsb' 0 8 = 1 ∧
      (rxWord w1 w2 w3 w4).extractLsb' 8 4 = w2.extractLsb' 0 4 ∧
      (rxWord w1 w2 w3 w4).extractLsb' 12 4 = 0 ∧
      (rxWord w1 w2 w3 w4).extractLsb' 16 11 = w1.extractLsb' 21 11 ∧
      (rxWord w1 w2 w3 w4).extractLsb' 27 5 = 0 ∧
      (rxWord w1 w2 w3 w4).extractLsb' 32 64 = w4 ++ w3)

/-- A whole RX from Issue to response, with a frame `g` deposited after its first read (44_receive.md R211,
R212, 30_encoding.md R116): the response is the word of the oldest frame's four words, and the deposit is kept. -/
def Obligations.RxWholeCommand : Prop :=
  ∀ (f g : Frame) (ws : List CmdWord) (ts : List Turn) (s : State),
    s.upc = .idle → s.mode = .normal → s.coreMode = .normal → s.fifo = [f] →
    accept (filterState s) g.id = true →
    s.port = encode .rx :: ws →
    s.sched = .block :: .block :: .core (.rxPush g) :: .block :: .block :: .block :: .block :: ts →
    let rw := rxWord (txidVal f.id) (f.dlc.zeroExtend 32) (lowWord f.data) (highWord f.data)
    frameOfResponse rw = f ∧
      runSteps 7 s = .next { s with
        port := ws
        sched := ts
        cw := encode .rx
        fifo := [g]
        history := s.history ++ [.issue (encode .rx), .rxDeposited g, .retire rw] }

/-- The round trip (43_transmit.md R200): a frame given to TX, consumed by CORE, deposited again by the loopback
harness and read by RX comes back identical, the length mod 16, in the response word of its four words
(30_encoding.md R116). -/
def Obligations.LoopbackRoundTrip : Prop :=
  ∀ (id : Ident) (len : Byte) (d : Payload) (ws : List CmdWord) (ts : List Turn) (s : State),
    s.upc = .idle → s.mode = .normal → s.coreMode = .normal → s.txrq = false → s.fifo = [] →
    isDefaultFilter (filterState s) = true →
    s.port = encode (.tx id len d) :: encode .rx :: ws →
    s.sched = List.replicate 6 .block ++ .core .txDone :: .block ::
      .core (.rxPush ⟨id, len.extractLsb' 0 4, d⟩) :: List.replicate 6 .block ++ ts →
    let rw := rxWord (txidVal id) ((len.extractLsb' 0 4).zeroExtend 32) (lowWord d) (highWord d)
    frameOfResponse rw = ⟨id, len.extractLsb' 0 4, d⟩ ∧
    ∃ t, runSteps 15 s = .next t ∧
      t.history = s.history ++ [.issue (encode (.tx id len d)),
        .txConsumed ⟨id, len.extractLsb' 0 4, d⟩, .retire 0x000000000000000000000001,
        .rxDeposited ⟨id, len.extractLsb' 0 4, d⟩, .issue (encode .rx), .retire rw] ∧
      t.fifo = [] ∧ t.upc = .idle ∧ t.port = ws

/-! ## CORE -/

/-- ACK_INIT and ACK_NORMAL (48_core_agent.md R231, R232); from CORE_MODE = Off with INRQ = 0 no step of CORE is
enabled. -/
def Obligations.AcknowledgmentSteps : Prop :=
  (∀ s : State,
    (coreEnabled .ackInit s = true ↔ s.ctl.getLsbD 0 = true ∧ s.coreMode ≠ .init) ∧
    coreEffect .ackInit s = { s with coreMode := .init, history := s.history ++ [.ackInit] } ∧
    (∀ k, readReg k .sts (coreEffect .ackInit s) = 1)) ∧
  (∀ s : State,
    (coreEnabled .ackNormal s = true ↔ s.ctl.getLsbD 0 = false ∧ s.coreMode = .init) ∧
    coreEffect .ackNormal s = { s with coreMode := .normal, history := s.history ++ [.ackNormal] } ∧
    (∀ k, readReg k .sts (coreEffect .ackNormal s) = 0)) ∧
  (∀ (s : State) (a : CoreAct), s.coreMode = .off → s.inrq = false → coreEnabled a s = false)

/-- TX_DONE (48_core_agent.md R233): the frame of the four mailbox registers at this instant is consumed, TXRQ is
cleared with STID unchanged, nothing else changes. -/
def Obligations.TxDoneStep : Prop :=
  ∀ s : State,
    (coreEnabled .txDone s = true ↔ s.coreMode = .normal ∧ s.txid.getLsbD 0 = true) ∧
    (∃ f : Frame, f.id = s.txid.extractLsb' 21 11 ∧ f.dlc = s.txdt.extractLsb' 0 4 ∧
      lowWord f.data = s.txdl ∧ highWord f.data = s.txdh ∧
      coreEffect .txDone s =
        { s with txid := s.txid &&& 0xFFFFFFFE, history := s.history ++ [.txConsumed f] }) ∧
    (coreEffect .txDone s).txrq = false ∧
    stidOf (coreEffect .txDone s).txid = stidOf s.txid

/-- RX_PUSH and the release (48_core_agent.md R234, R235, R238): enabled in Normal with room in the FIFO and the
identifier accepted by the current filter registers; the frame goes to the tail; at a full FIFO a turn of RX_PUSH
changes nothing. The write of RFOM removes the head of a FIFO that is not empty, changes nothing on an empty one,
and RFOM reads 0 afterwards. -/
def Obligations.FifoPushAndRelease : Prop :=
  (∀ (f : Frame) (s : State),
    (coreEnabled (.rxPush f) s = true ↔
      s.coreMode = .normal ∧ s.fifo.length < 2 ∧ accept (filterState s) f.id = true) ∧
    coreEffect (.rxPush f) s =
      { s with fifo := s.fifo ++ [f], history := s.history ++ [.rxDeposited f] } ∧
    (s.fifo.length = 2 → coreStep (.rxPush f) s = s)) ∧
  (∀ (k : Nat) (v : Word) (s : State),
    (v.getLsbD 5 = true → ∀ f fs, s.fifo = f :: fs → writeReg .rxf v s = { s with fifo := fs }) ∧
    (s.fifo = [] → writeReg .rxf v s = s) ∧
    (v.getLsbD 5 = false → writeReg .rxf v s = s) ∧
    (readReg k .rxf (writeReg .rxf v s)).getLsbD 5 = false)

/-- What CORE may change, the complete list (48_core_agent.md R239): CORE_MODE, TXRQ from 1 to 0, FIFO by
appending, and the history. Outside Normal neither TX_DONE nor RX_PUSH is enabled (R240). -/
def Obligations.CoreChangesNothingElse : Prop :=
  (∀ (a : CoreAct) (s : State), ∃ (m : CoreMode) (x : Word) (fs : List Frame) (es : List Event),
    coreStep a s =
      { s with coreMode := m, txid := x, fifo := s.fifo ++ fs, history := s.history ++ es } ∧
    (x = s.txid ∨ (s.txrq = true ∧ x = s.txid &&& 0xFFFFFFFE))) ∧
  (∀ (s : State) (f : Frame), s.coreMode ≠ .normal →
    coreEnabled .txDone s = false ∧ coreEnabled (.rxPush f) s = false)

/-- The acceptance predicate meets the two hypotheses of 48_core_agent.md R236, and every predicate that meets them
agrees with one of the same form: nothing else is assumed of it. -/
def Obligations.AcceptanceHypotheses : Prop :=
  DefaultMatchAll accept ∧ InactiveIgnored accept ∧
  (∀ A : FilterState → Ident → Bool, DefaultMatchAll A → InactiveIgnored A →
    ∀ fs id, fs.fact &&& definedBits .fact = fs.fact →
      A fs id = (isDefaultFilter fs || A (activeOnly fs) id))

/-- What INIT leaves accepts everything (41_mode_control.md R155): after INIT and before the first ALLOC, with the
banks INIT wrote, every frame is accepted. -/
def Obligations.DefaultFilterAcceptsAll : Prop :=
  ∀ (s : State) (id : Ident), StateInv s → s.upc = .idle → s.mode = .normal → s.fscale = 1 →
    s.banks[(0 : Fin 28)] = ⟨0, 0⟩ → accept (filterState s) id = true

/-! ## The whole machine -/

/-- Every step keeps the invariant, and from a state that meets it a step is never a fault or a refusal: the block
has no exception (60_exceptions.md R260), and every command goes on or retires. -/
def Obligations.InvariantKeptByEveryStep : Prop :=
  ∀ s : State, StateInv s → ∃ t, step s = .next t ∧ StateInv t

/-- The invariants of the private state (10_state.md R44 (a) to (d); of (e), the registers with a reset value). -/
def Obligations.PrivateStateInvariants : Prop :=
  ∀ s : State, StateInv s →
    (s.upc = .idle → s.mode = .uninitialized ∨ s.mode = .normal) ∧
    (s.mode = .initializing ↔ s.upc.insideInit = true) ∧
    (s.mode = .filterConfiguration ↔ s.upc.insideBracket = true) ∧
    (s.finit = true ↔ s.upc.insideBracket = true) ∧
    s.cursor.toNat ≤ 112 ∧
    (s.mode = .uninitialized → s.cursor = 0 ∧
      ∀ k, ∀ r ∈ [Reg.ctl, .sts, .rxf, .btr, .txid, .txdt, .txdl, .txdh, .fctl, .fmode, .fscale, .fact],
        readReg k r s = 0)

/-- The invariants of the shared state (10_state.md R51 (a) to (e)), FACT at IDLE (log 23); and when any command but
INIT runs, CORE is in Normal (41_mode_control.md R160). -/
def Obligations.SharedStateInvariants : Prop :=
  ∀ s : State, StateInv s →
    s.fifo.length ≤ 2 ∧ s.fmp.toNat = s.fifo.length ∧
    (s.inak = true ↔ s.coreMode = .init) ∧
    (s.upc = .idle → s.mode = .normal →
      ∀ b : Fin 28, (s.fact.getLsbD b = true ↔ b.val = 0 ∨ 4 * b.val < s.cursor.toNat)) ∧
    (∀ b : Fin 28, 4 * b.val < s.cursor.toNat →
      s.fmode.getLsbD b = false ∧ s.fscale.getLsbD b = false) ∧
    (∀ k r, readReg k r s &&& ~~~definedBits r = 0) ∧
    (s.mode = .normal → s.coreMode = .normal ∧ s.inrq = false)

/-- The transitions of MODE, complete (60_exceptions.md R271), and those of the cursor (10_state.md R41): it never
decreases on a reachable state and changes only at ALLOC step A4, by one. -/
def Obligations.ModeAndCursorTransitions : Prop :=
  ∀ s t : State, StateInv s → step s = .next t →
    (t.mode ≠ s.mode →
      (s.mode = .uninitialized ∧ t.mode = .initializing ∧ s.upc = .i0) ∨
      (s.mode = .initializing ∧ t.mode = .normal ∧ s.upc = .i7 ∧ s.coreMode = .normal) ∨
      (s.mode = .normal ∧ t.mode = .filterConfiguration ∧ s.upc = .a1 ∧ s.cursor.toNat < 112) ∨
      (s.mode = .filterConfiguration ∧ t.mode = .normal ∧ s.upc = .a5)) ∧
    (t.cursor = s.cursor ∨ (s.upc = .a4 ∧ t.cursor.toNat = s.cursor.toNat + 1))

/-- Who sets and clears each flag (10_state.md R39), over every step of every state; after reset every flag is 0. -/
def Obligations.FlagChangesComplete : Prop :=
  (∀ s t : State, step s = .next t →
    (t.inrq ≠ s.inrq → ((∃ p, s.upc = .i1 p) ∧ t.inrq = true) ∨ (s.upc = .i5 ∧ t.inrq = false)) ∧
    (t.inak ≠ s.inak → (nextTurn s = .core .ackInit ∧ t.inak = true) ∨
      (nextTurn s = .core .ackNormal ∧ t.inak = false)) ∧
    (t.finit ≠ s.finit → (s.upc = .a1 ∧ t.finit = true) ∨ (s.upc = .a5 ∧ t.finit = false)) ∧
    (t.txrq ≠ s.txrq → (s.upc = .t5 ∧ t.txrq = true) ∨
      (t.txrq = false ∧ (nextTurn s = .core .txDone ∨ s.upc = .t1))) ∧
    (t.fifo ≠ s.fifo → (∃ f, nextTurn s = .core (.rxPush f) ∧ t.fifo = s.fifo ++ [f]) ∨
      ((∃ w1 w2 w3 w4, s.upc = .r5 w1 w2 w3 w4) ∧ t.fifo = s.fifo.tail)) ∧
    t.rfom = false) ∧
  State.reset.inrq = false ∧ State.reset.inak = false ∧ State.reset.finit = false ∧
  State.reset.txrq = false ∧ State.reset.fmp = 0 ∧ State.reset.rfom = false

/-- Which registers each command may write (41_mode_control.md R159, 43_transmit.md R198, 44_receive.md R215,
R218 (d)): a step changes BTR only inside INIT, the transmit mailbox only inside TX or by TX_DONE, the filter
registers only inside INIT or ALLOC, and CTL only inside INIT. -/
def Obligations.RegistersWrittenByTheirCommandOnly : Prop :=
  ∀ s t : State, step s = .next t →
    (t.btr ≠ s.btr ∨ t.ctl ≠ s.ctl → s.upc.insideInit = true) ∧
    (t.txdt ≠ s.txdt ∨ t.txdl ≠ s.txdl ∨ t.txdh ≠ s.txdh → s.upc.ofTx = true) ∧
    (t.txid ≠ s.txid → s.upc.ofTx = true ∨ nextTurn s = .core .txDone) ∧
    (t.fmode ≠ s.fmode ∨ t.fscale ≠ s.fscale ∨ t.fact ≠ s.fact ∨ t.banks ≠ s.banks →
      s.upc.insideInit = true ∨ s.upc.insideBracket = true) ∧
    (t.fctl ≠ s.fctl → s.upc.ofAlloc = true)

/-- While a command runs the latched word is constant and the port is not looked at (10_state.md R43,
48_core_agent.md R251, 20_memory.md R84): a step from a busy block leaves `CW` and every waiting word alone, and two
busy blocks that differ only in their ports take the same step. The two steps also draw equal free values (RX at an
empty FIFO, the race of TX): that equal counts `draws` give equal draws is the model's choice (log 5, 6). -/
def Obligations.BusyBlockIgnoresThePort : Prop :=
  ∀ (s t : State) (ws : List CmdWord), s.upc ≠ .idle → step s = .next t →
    t.cw = s.cw ∧ t.port = s.port ∧ step { s with port := ws } = .next { t with port := ws }

/-- The history only grows, and no rule reads it (48_core_agent.md R241): a step appends to it, and what it appends
and everything else it does are the same whatever was recorded before. The two steps also draw equal free values (RX
at an empty FIFO, the race of TX): draws numbered by a counter are the model's choice (log 5, 6), not the spec's. -/
def Obligations.HistoryIsOnlyRecorded : Prop :=
  ∀ (s t : State) (h : List Event), step s = .next t → ∃ es,
    t.history = s.history ++ es ∧ step { s with history := h } = .next { t with history := h ++ es }

/-- Exactly one response per accepted or refused word (48_core_agent.md R252): the responses keep pace with the
issued words, one being outstanding exactly while a command runs. -/
def Obligations.OneResponsePerWord : Prop :=
  ∀ s t : State, ResponseInv s → step s = .next t → ResponseInv t

/-- At most one AckInit and one AckNormal (48_core_agent.md R245). -/
def Obligations.AcknowledgmentsHappenOnce : Prop :=
  ∀ s t : State, StateInv s → AckInv s → step s = .next t → AckInv t

/-! ## Waiting, hanging, ending -/

/-- The initialisation hang (41_mode_control.md R157): with CORE silent, a block at I2 that has no acknowledgment, or
at I6 that still sees one, is in the same state after any number of steps. -/
def Obligations.InitHangsWithoutAcknowledgment : Prop :=
  ∀ (n : Nat) (sel : Byte) (s : State), s.sched = [] → decode s.cw = .ok (.init sel) →
    ((∃ p, s.upc = .i2 p) ∧ s.coreMode ≠ .init ∨ s.upc = .i6 ∧ s.coreMode = .init) →
    runSteps n s = .next s

/-- A whole INIT (41_mode_control.md R150, 70_reset_and_hazards.md R304): with the acknowledgments coming after any
number `k` and `m` of failed polls, it takes its 12 steps and leaves the end state the spec gives. -/
def Obligations.InitWholeCommand : Prop :=
  ∀ (k m : Nat) (sel : Byte) (ws : List CmdWord) (ts : List Turn) (s : State),
    s.upc = .idle → s.mode = .uninitialized → s.coreMode ≠ .init → reservedFits s = true →
    (Instr.init sel).wellFormed = true → s.port = encode (.init sel) :: ws →
    s.sched = List.replicate (3 + k) .block ++ .core .ackInit ::
      (List.replicate (8 + m) .block ++ .core .ackNormal :: .block :: .block :: ts) →
    runSteps (15 + k + m) s = .next { s with
      port := ws
      sched := ts
      cw := encode (.init sel)
      mode := .normal
      cursor := 0
      ctl := 0
      btr := btrVal (bt sel)
      fscale := s.fscale ||| 1
      fmode := s.fmode &&& 0xFFFFFFFE
      fact := s.fact ||| 1
      banks := s.banks.set 0 ⟨0, 0⟩
      coreMode := .normal
      history := s.history ++ [.issue (encode (.init sel)), .ackInit, .ackNormal,
        .retire 0x000000000000000000000001] }

/-- INIT ends on correctly clocked hardware (41_mode_control.md R157, 48_core_agent.md R246): in every run in which
SEQ and the acknowledgments are fair, an INIT that has been accepted retires in Normal. -/
def Obligations.InitEndsUnderClockOk : Prop :=
  ∀ (σ : Nat → State) (τ : Nat → Turn), IsRun σ τ → SeqFair σ τ → ClockOk σ τ →
    StateInv (σ 0) → (σ 0).upc = .i0 →
    ∃ n, (σ n).upc = .idle ∧ (σ n).mode = .normal ∧ (σ n).coreMode = .normal ∧
      (σ n).btr = btrVal (bt (argOf (σ 0).cw))

/-- Every command but INIT ends whatever CORE does (43_transmit.md R195 for TX): SEQ's fairness alone is enough. -/
def Obligations.OtherCommandsAlwaysEnd : Prop :=
  ∀ (σ : Nat → State) (τ : Nat → Turn), IsRun σ τ → SeqFair σ τ → StateInv (σ 0) →
    (σ 0).upc.ofInit = false → ∃ n, (σ n).upc = .idle

/-- With a fair bus a pending request is cleared some time later (48_core_agent.md R246, BUS_OK as a named premise):
by TX_DONE, or by step T1 of a following TX (10_state.md R39, 43_transmit.md R191). -/
def Obligations.PendingRequestClearedUnderBusOk : Prop :=
  ∀ (σ : Nat → State) (τ : Nat → Turn), IsRun σ τ → BusOk σ τ → StateInv (σ 0) →
    ∀ n, (σ n).txrq = true → ∃ m, n ≤ m ∧ (σ m).txrq = false
end

