-- ==== Sys2Proof/Laws/Bits.lean ====
section
/-! SUPPORT. The bits of the packed words: one lemma per packing function, saying which operand bit stands at each
place. Later proofs cite these and never unfold a concatenation. -/

namespace Sys2Proof

/-- Two words are equal when their bits are. -/
theorem word_ext {n : Nat} {x y : BitVec n} (h : ∀ k, k < n → x.getLsbD k = y.getLsbD k) : x = y :=
  BitVec.eq_of_getLsbD_eq h

/-- A command word, field by field (30_encoding.md R100). -/
theorem wordOfFields_bit (data : BitVec 64) (id : Ident) (arg opc : Byte) (k : Nat) :
    (wordOfFields data id arg opc).getLsbD k =
      if k < 8 then opc.getLsbD k else if k < 16 then arg.getLsbD (k - 8)
      else if k < 27 then id.getLsbD (k - 16) else if k < 32 then false
      else data.getLsbD (k - 32) := by
  change BitVec.getLsbD (w := 64 + 5 + 11 + 8 + 8) (data ++ 0#5 ++ id ++ arg ++ opc) k = _
  simp only [BitVec.getLsbD_append, BitVec.getLsbD_zero, Config.idw]
  repeat' split
  all_goals first | rfl | omega

/-- The 64 payload bits, byte by byte (30_encoding.md R101). -/
theorem payloadBits_bit (d : Payload) (k : Nat) :
    d.bits.getLsbD k =
      if k < 8 then d.b0.getLsbD k else if k < 16 then d.b1.getLsbD (k - 8)
      else if k < 24 then d.b2.getLsbD (k - 16) else if k < 32 then d.b3.getLsbD (k - 24)
      else if k < 40 then d.b4.getLsbD (k - 32) else if k < 48 then d.b5.getLsbD (k - 40)
      else if k < 56 then d.b6.getLsbD (k - 48) else d.b7.getLsbD (k - 56) := by
  change BitVec.getLsbD (w := 8 + 8 + 8 + 8 + 8 + 8 + 8 + 8)
    (d.b7 ++ d.b6 ++ d.b5 ++ d.b4 ++ d.b3 ++ d.b2 ++ d.b1 ++ d.b0) k = _
  simp only [BitVec.getLsbD_append]
  repeat' split
  all_goals first | rfl | omega

namespace Machine

/-- Four bytes in a word, byte 0 lowest (20_memory.md R78). -/
theorem fourBytes_bit (b3 b2 b1 b0 : Byte) (k : Nat) :
    BitVec.getLsbD (w := 32) (b3 ++ b2 ++ b1 ++ b0) k =
      if k < 8 then b0.getLsbD k else if k < 16 then b1.getLsbD (k - 8)
      else if k < 24 then b2.getLsbD (k - 16) else b3.getLsbD (k - 24) := by
  change BitVec.getLsbD (w := 8 + 8 + 8 + 8) (b3 ++ b2 ++ b1 ++ b0) k = _
  simp only [BitVec.getLsbD_append]
  repeat' split
  all_goals first | rfl | omega

theorem lowWord_bit (d : Payload) (k : Nat) :
    (lowWord d).getLsbD k =
      if k < 8 then d.b0.getLsbD k else if k < 16 then d.b1.getLsbD (k - 8)
      else if k < 24 then d.b2.getLsbD (k - 16) else d.b3.getLsbD (k - 24) :=
  fourBytes_bit d.b3 d.b2 d.b1 d.b0 k

theorem highWord_bit (d : Payload) (k : Nat) :
    (highWord d).getLsbD k =
      if k < 8 then d.b4.getLsbD k else if k < 16 then d.b5.getLsbD (k - 8)
      else if k < 24 then d.b6.getLsbD (k - 16) else d.b7.getLsbD (k - 24) :=
  fourBytes_bit d.b7 d.b6 d.b5 d.b4 k

/-- Two halves in a sub-register, the lower half in bits 15:0 (10_state.md R36). -/
theorem twoHalves_bit (h l : Half) (k : Nat) :
    BitVec.getLsbD (w := 32) (h ++ l) k = if k < 16 then l.getLsbD k else h.getLsbD (k - 16) := by
  change BitVec.getLsbD (w := 16 + 16) (h ++ l) k = _
  simp only [BitVec.getLsbD_append]

/-- The response word of RX (30_encoding.md R116). -/
theorem rxWord_bit (w1 w2 w3 w4 : Word) (k : Nat) :
    (rxWord w1 w2 w3 w4).getLsbD k =
      if k < 8 then (0x01#8).getLsbD k else if k < 12 then (dlcOf w2).getLsbD (k - 8)
      else if k < 16 then false else if k < 27 then (stidOf w1).getLsbD (k - 16)
      else if k < 32 then false else if k < 64 then w3.getLsbD (k - 32) else w4.getLsbD (k - 64) := by
  change BitVec.getLsbD (w := 32 + 32 + 5 + 11 + 4 + 4 + 8)
    (w4 ++ w3 ++ 0#5 ++ stidOf w1 ++ 0#4 ++ dlcOf w2 ++ 0x01#8) k = _
  simp only [BitVec.getLsbD_append, BitVec.getLsbD_zero, Config.idw, Config.dlcw, Config.regw]
  repeat' split
  all_goals first | rfl | omega

/-- The response word of AVAIL (44_receive.md R210). -/
theorem availWord_bit (c : BitVec 2) (k : Nat) :
    (availWord c).getLsbD k =
      if k < 8 then (0x01#8).getLsbD k else if k < 10 then c.getLsbD (k - 8) else false := by
  change BitVec.getLsbD (w := 86 + 2 + 8) (0#86 ++ c ++ 0x01#8) k = _
  simp only [BitVec.getLsbD_append, BitVec.getLsbD_zero]
  repeat' split
  all_goals first | rfl | omega

/-! ## Masks and one-bit fields -/

/-- A one-bit field written with 1. -/
theorem withField_one (r : Reg) (b : Nat) (t : Word) : withField ⟨r, b, 1⟩ 1 t = t ||| (1#32 <<< b) := by
  apply word_ext
  intro k hk
  have h1 : (1#32).getLsbD (k - b) = decide (k - b = 0) := by simp [BitVec.getLsbD_one]
  simp only [withField, Field.mask, show BitVec.ofNat 32 (2 ^ 1 - 1) = 1#32 from rfl, BitVec.getLsbD_or,
    BitVec.getLsbD_and, BitVec.getLsbD_not, BitVec.getLsbD_shiftLeft, h1]
  by_cases h : k < b <;> by_cases h2 : k - b = 0 <;> simp [h, h2, hk]

/-- A one-bit field written with 0. -/
theorem withField_zero (r : Reg) (b : Nat) (t : Word) :
    withField ⟨r, b, 1⟩ 0 t = t &&& ~~~(1#32 <<< b) := by
  simp [withField, Field.mask]

/-- Setting a defined bit of a masked word needs no second mask. -/
theorem or_bit_masked (m t : Word) (b : Nat) (hb : m.getLsbD b = true) :
    ((t &&& m) ||| (1#32 <<< b)) &&& m = (t &&& m) ||| (1#32 <<< b) := by
  apply word_ext
  intro k hk
  simp only [BitVec.getLsbD_or, BitVec.getLsbD_and, BitVec.getLsbD_shiftLeft, BitVec.getLsbD_one]
  by_cases h : k < b <;> by_cases h2 : k - b = 0 <;> simp [h, h2, hk]
  have : k = b := by omega
  subst this
  simp [hb]

/-- Clearing a bit of a masked word needs no second mask. -/
theorem andnot_bit_masked (m t : Word) (b : Nat) :
    ((t &&& m) &&& ~~~(1#32 <<< b)) &&& m = (t &&& m) &&& ~~~(1#32 <<< b) := by
  apply word_ext
  intro k hk
  simp only [BitVec.getLsbD_and]
  cases m.getLsbD k <;> simp

/-- The per-bank configuration registers define one bit per bank. -/
theorem bankMask_bit (k : Nat) : (0x0FFFFFFF#32).getLsbD k = decide (k < 28) := by
  by_cases h : k < 32
  · revert h
    revert k
    decide
  · rw [BitVec.getLsbD_of_ge _ _ (by omega)]
    simp
    omega

/-- Masking twice is masking once. -/
theorem and_masked (t m : Word) : (t &&& m) &&& m = t &&& m := by
  rw [BitVec.and_assoc, BitVec.and_self]

/-- A word of which only bit 0 is defined. -/
theorem and_one_eq (t : Word) : t &&& 1#32 = if t.getLsbD 0 then 1#32 else 0#32 := by
  apply word_ext
  intro k hk
  rcases k with _ | k
  · cases h : t.getLsbD 0 <;> simp_all
  · cases h : t.getLsbD 0 <;> simp [BitVec.getLsbD_one]

/-- TXID_VAL puts something in STID only. -/
theorem txidVal_defined (id : Ident) : txidVal id &&& definedBits .txid = txidVal id := by
  apply word_ext
  intro k hk
  simp only [txidVal, Config.txidShift, definedBits, BitVec.getLsbD_and]
  interval_cases k <;> simp

/-- TXID_VAL leaves TXRQ at 0. -/
theorem txidVal_bit0 (id : Ident) : (txidVal id).getLsbD 0 = false := by
  simp [txidVal, Config.txidShift]

/-- BTR_VAL puts something in the three timing fields only. -/
theorem btrVal_masked (p : Profile) : btrVal p &&& 0x007F03FF#32 = btrVal p := by
  apply word_ext
  intro k hk
  simp only [btrVal, BitVec.getLsbD_and, BitVec.getLsbD_or]
  interval_cases k <;> simp

/-- A length in DLC, nothing else. -/
theorem dlcWord_masked (l : BitVec 4) : l.zeroExtend 32 &&& 0x0000000F#32 = l.zeroExtend 32 := by
  apply word_ext
  intro k hk
  simp only [BitVec.getLsbD_and]
  interval_cases k <;> simp

/-- The word a write of DLC stores. -/
theorem withField_dlc (l : BitVec 4) (t : Word) :
    withField dlcField (l.zeroExtend 32) (t &&& definedBits .txdt) &&& definedBits .txdt =
      l.zeroExtend 32 := by
  apply word_ext
  intro k hk
  simp only [withField, dlcField, Field.mask, definedBits, BitVec.getLsbD_and, BitVec.getLsbD_or,
    BitVec.getLsbD_not]
  interval_cases k <;> simp

/-- The half-word update keeps the lower half (20_memory.md R77). -/
theorem withUpperHalf_eq (h : Half) (t : Word) : withUpperHalf h t = h ++ t.extractLsb' 0 16 := by
  apply word_ext
  intro k hk
  rw [twoHalves_bit]
  simp only [withUpperHalf, BitVec.getLsbD_and, BitVec.getLsbD_or]
  interval_cases k <;> simp

/-- The word a release writes has RFOM set. -/
theorem withField_rfom_bit (t : Word) : (withField rfomField 1 t).getLsbD 5 = true := by
  rw [rfomField, withField_one]
  simp

end Machine
end Sys2Proof
end

