-- ==== Sys2Proof/Laws/Encoding.lean ====
section
/-! SUPPORT. The fields of a command word read back: one lemma per field of 30_encoding.md R100, for the decoder's
reading of what the encoder lays out. -/

namespace Sys2Proof

theorem opcOf_word (data : BitVec 64) (id : Ident) (arg opc : Byte) :
    opcOf (wordOfFields data id arg opc) = opc := by
  apply word_ext
  intro k hk
  rw [opcOf, BitVec.getLsbD_extractLsb', wordOfFields_bit, if_pos (by omega)]
  simp [hk]

theorem argOf_word (data : BitVec 64) (id : Ident) (arg opc : Byte) :
    argOf (wordOfFields data id arg opc) = arg := by
  apply word_ext
  intro k hk
  rw [argOf, BitVec.getLsbD_extractLsb', wordOfFields_bit, if_neg (by omega), if_pos (by omega)]
  simp [hk]

theorem idOf_word (data : BitVec 64) (id : Ident) (arg opc : Byte) :
    idOf (wordOfFields data id arg opc) = id := by
  apply word_ext
  intro k hk
  rw [Config.idw] at hk
  rw [idOf, BitVec.getLsbD_extractLsb', wordOfFields_bit, if_neg (by omega), if_neg (by omega),
    if_pos (by omega)]
  simp [hk]

/-- Any piece of the DATA field. -/
theorem data_word (data : BitVec 64) (id : Ident) (arg opc : Byte) (j n : Nat) (_h : j + n ≤ 64) :
    (wordOfFields data id arg opc).extractLsb' (32 + j) n = data.extractLsb' j n := by
  apply word_ext
  intro k hk
  rw [BitVec.getLsbD_extractLsb', BitVec.getLsbD_extractLsb', wordOfFields_bit, if_neg (by omega),
    if_neg (by omega), if_neg (by omega), if_neg (by omega), show 32 + j + k - 32 = j + k by omega]

/-- The first four bytes are the low data word, the last four the high one (30_encoding.md R113). -/
theorem payloadBits_low (d : Payload) : d.bits.extractLsb' 0 32 = Machine.lowWord d := by
  apply word_ext
  intro k hk
  rw [BitVec.getLsbD_extractLsb', payloadBits_bit, Machine.lowWord_bit, Nat.zero_add]
  simp only [hk, decide_true, Bool.true_and, if_true]

theorem payloadBits_high (d : Payload) : d.bits.extractLsb' 32 32 = Machine.highWord d := by
  apply word_ext
  intro k hk
  rw [BitVec.getLsbD_extractLsb', payloadBits_bit, Machine.highWord_bit, if_neg (by omega),
    if_neg (by omega), if_neg (by omega), if_neg (by omega), show 32 + k - 32 = k by omega,
    show 32 + k - 40 = k - 8 by omega, show 32 + k - 48 = k - 16 by omega,
    show 32 + k - 56 = k - 24 by omega]
  simp only [hk, decide_true, Bool.true_and]
  repeat' split
  all_goals first | rfl | omega

/-- The bytes of the low and high data words. -/
theorem payloadOf_words (d : Payload) : Machine.payloadOf (Machine.lowWord d) (Machine.highWord d) = d := by
  cases d
  simp only [Machine.payloadOf, Payload.mk.injEq]
  refine ⟨?_, ?_, ?_, ?_, ?_, ?_, ?_, ?_⟩ <;> apply word_ext <;> intro k hk <;>
    simp only [BitVec.getLsbD_extractLsb', Machine.lowWord_bit, Machine.highWord_bit, hk, decide_true,
      Bool.true_and] <;> interval_cases k <;> rfl

/-- Taking the bytes out of two words and packing them again. -/
theorem lowWord_payloadOf (l h : Word) : Machine.lowWord (Machine.payloadOf l h) = l := by
  apply word_ext
  intro k hk
  rw [Config.regw] at hk
  rw [Machine.lowWord_bit]
  simp only [Machine.payloadOf, BitVec.getLsbD_extractLsb']
  repeat' split
  all_goals (rw [decide_eq_true (by omega), Bool.true_and]; congr 1; omega)

theorem highWord_payloadOf (l h : Word) : Machine.highWord (Machine.payloadOf l h) = h := by
  apply word_ext
  intro k hk
  rw [Config.regw] at hk
  rw [Machine.highWord_bit]
  simp only [Machine.payloadOf, BitVec.getLsbD_extractLsb']
  repeat' split
  all_goals (rw [decide_eq_true (by omega), Bool.true_and]; congr 1; omega)

/-- The DATA field as the decoder reads it, byte by byte, is the two words it is packed in. -/
theorem dataOf_eq (w : CmdWord) :
    dataOf w = Machine.payloadOf (w.extractLsb' 32 32) (w.extractLsb' 64 32) := by
  simp only [dataOf, Machine.payloadOf, Payload.mk.injEq]
  refine ⟨?_, ?_, ?_, ?_, ?_, ?_, ?_, ?_⟩ <;> apply word_ext <;> intro k hk <;>
    simp only [BitVec.getLsbD_extractLsb', hk, decide_true, Bool.true_and, Nat.zero_add, Config.regw] <;>
    rw [decide_eq_true (by omega), Bool.true_and] <;> congr 1 <;> omega

theorem dataOf_word (d : Payload) (id : Ident) (arg opc : Byte) :
    dataOf (wordOfFields d.bits id arg opc) = d := by
  have h1 := data_word d.bits id arg opc 0 32 (by omega)
  have h2 := data_word d.bits id arg opc 32 32 (by omega)
  rw [dataOf_eq, h1, h2, payloadBits_low, payloadBits_high, payloadOf_words]

/-- The bits of a payload read from a word are the word's DATA field. -/
theorem bits_dataOf (w : CmdWord) : (dataOf w).bits = w.extractLsb' 32 64 := by
  apply word_ext
  intro k hk
  rw [payloadBits_bit]
  simp only [dataOf, BitVec.getLsbD_extractLsb']
  repeat' split
  all_goals
    rw [decide_eq_true hk, Bool.true_and, decide_eq_true (by omega), Bool.true_and] <;>
      (congr 1; omega)

/-! ## The rows of the opcode table -/

/-- The words that fit a row are fixed on the row's mask. -/
theorem fits_iff (r : OpcodeRow) (w : CmdWord) :
    r.fits w = true ↔ ∀ k, k < 96 → (w.getLsbD k && r.mask.getLsbD k) = r.pattern.getLsbD k := by
  rw [OpcodeRow.fits, beq_iff_eq]
  constructor
  · intro h k _
    rw [← h, BitVec.getLsbD_and]
  · intro h
    apply word_ext
    intro k hk
    rw [BitVec.getLsbD_and, h k hk]

theorem initRow_fits (sel : Byte) : initRow.fits (wordOfFields 0#64 0#11 sel 0x01#8) = true := by
  rw [fits_iff]
  intro k hk
  rw [wordOfFields_bit, initRow]
  interval_cases k <;> simp

theorem allocRow_fits (id : Ident) : allocRow.fits (wordOfFields 0#64 id 0#8 0x02#8) = true := by
  rw [fits_iff]
  intro k hk
  rw [wordOfFields_bit, allocRow]
  interval_cases k <;> simp

theorem txRow_fits (data : BitVec 64) (id : Ident) (len : Byte) :
    txRow.fits (wordOfFields data id len 0x03#8) = true := by
  rw [fits_iff]
  intro k hk
  rw [wordOfFields_bit, txRow]
  interval_cases k <;> simp

/-- Every word is laid out from its fields, the five bits 31:27 apart. -/
theorem word_of_its_fields (w : CmdWord) (h : w.extractLsb' 27 5 = 0) :
    wordOfFields (w.extractLsb' 32 64) (idOf w) (argOf w) (opcOf w) = w := by
  apply word_ext
  intro k hk
  rw [wordOfFields_bit]
  simp only [idOf, argOf, opcOf, BitVec.getLsbD_extractLsb', Config.idw]
  split
  · rw [decide_eq_true (by omega), Bool.true_and, Nat.zero_add]
  split
  · rw [decide_eq_true (by omega), Bool.true_and, show 8 + (k - 8) = k by omega]
  split
  · rw [decide_eq_true (by omega), Bool.true_and, show 16 + (k - 16) = k by omega]
  split
  · have := congrArg (fun x => x.getLsbD (k - 27)) h
    simp only [BitVec.getLsbD_extractLsb'] at this
    rw [decide_eq_true (by omega), Bool.true_and, show 27 + (k - 27) = k by omega] at this
    simpa using this.symm
  · rw [decide_eq_true (by omega), Bool.true_and, show 32 + (k - 32) = k by omega]

end Sys2Proof
end

