-- ==== Sys2Proof/Laws/State.lean ====
section
/-! SUPPORT. For each named update of State, what every field is afterwards: one lemma per field per update, true
by `rfl`, so that no later proof unfolds a record update. -/

namespace Sys2Proof.Machine

/-! ## State.drawn -/

@[simp] theorem drawn_ctl (s : State) : (s.drawn).ctl = s.ctl := rfl
@[simp] theorem drawn_btr (s : State) : (s.drawn).btr = s.btr := rfl
@[simp] theorem drawn_txid (s : State) : (s.drawn).txid = s.txid := rfl
@[simp] theorem drawn_txdt (s : State) : (s.drawn).txdt = s.txdt := rfl
@[simp] theorem drawn_txdl (s : State) : (s.drawn).txdl = s.txdl := rfl
@[simp] theorem drawn_txdh (s : State) : (s.drawn).txdh = s.txdh := rfl
@[simp] theorem drawn_fctl (s : State) : (s.drawn).fctl = s.fctl := rfl
@[simp] theorem drawn_fmode (s : State) : (s.drawn).fmode = s.fmode := rfl
@[simp] theorem drawn_fscale (s : State) : (s.drawn).fscale = s.fscale := rfl
@[simp] theorem drawn_fact (s : State) : (s.drawn).fact = s.fact := rfl
@[simp] theorem drawn_banks (s : State) : (s.drawn).banks = s.banks := rfl
@[simp] theorem drawn_mode (s : State) : (s.drawn).mode = s.mode := rfl
@[simp] theorem drawn_cursor (s : State) : (s.drawn).cursor = s.cursor := rfl
@[simp] theorem drawn_poll (s : State) : (s.drawn).poll = s.poll := rfl
@[simp] theorem drawn_upc (s : State) : (s.drawn).upc = s.upc := rfl
@[simp] theorem drawn_cw (s : State) : (s.drawn).cw = s.cw := rfl
@[simp] theorem drawn_coreMode (s : State) : (s.drawn).coreMode = s.coreMode := rfl
@[simp] theorem drawn_fifo (s : State) : (s.drawn).fifo = s.fifo := rfl
@[simp] theorem drawn_history (s : State) : (s.drawn).history = s.history := rfl
@[simp] theorem drawn_port (s : State) : (s.drawn).port = s.port := rfl
@[simp] theorem drawn_sched (s : State) : (s.drawn).sched = s.sched := rfl
@[simp] theorem drawn_draws (s : State) : (s.drawn).draws = s.draws + 1 := rfl

/-! ## State.record -/

@[simp] theorem record_ctl (e : Event) (s : State) : (s.record e).ctl = s.ctl := rfl
@[simp] theorem record_btr (e : Event) (s : State) : (s.record e).btr = s.btr := rfl
@[simp] theorem record_txid (e : Event) (s : State) : (s.record e).txid = s.txid := rfl
@[simp] theorem record_txdt (e : Event) (s : State) : (s.record e).txdt = s.txdt := rfl
@[simp] theorem record_txdl (e : Event) (s : State) : (s.record e).txdl = s.txdl := rfl
@[simp] theorem record_txdh (e : Event) (s : State) : (s.record e).txdh = s.txdh := rfl
@[simp] theorem record_fctl (e : Event) (s : State) : (s.record e).fctl = s.fctl := rfl
@[simp] theorem record_fmode (e : Event) (s : State) : (s.record e).fmode = s.fmode := rfl
@[simp] theorem record_fscale (e : Event) (s : State) : (s.record e).fscale = s.fscale := rfl
@[simp] theorem record_fact (e : Event) (s : State) : (s.record e).fact = s.fact := rfl
@[simp] theorem record_banks (e : Event) (s : State) : (s.record e).banks = s.banks := rfl
@[simp] theorem record_mode (e : Event) (s : State) : (s.record e).mode = s.mode := rfl
@[simp] theorem record_cursor (e : Event) (s : State) : (s.record e).cursor = s.cursor := rfl
@[simp] theorem record_poll (e : Event) (s : State) : (s.record e).poll = s.poll := rfl
@[simp] theorem record_upc (e : Event) (s : State) : (s.record e).upc = s.upc := rfl
@[simp] theorem record_cw (e : Event) (s : State) : (s.record e).cw = s.cw := rfl
@[simp] theorem record_coreMode (e : Event) (s : State) : (s.record e).coreMode = s.coreMode := rfl
@[simp] theorem record_fifo (e : Event) (s : State) : (s.record e).fifo = s.fifo := rfl
@[simp] theorem record_history (e : Event) (s : State) : (s.record e).history = s.history ++ [e] := rfl
@[simp] theorem record_port (e : Event) (s : State) : (s.record e).port = s.port := rfl
@[simp] theorem record_sched (e : Event) (s : State) : (s.record e).sched = s.sched := rfl
@[simp] theorem record_draws (e : Event) (s : State) : (s.record e).draws = s.draws := rfl

/-! ## State.retire -/

@[simp] theorem retire_ctl (rw : CmdWord) (s : State) : (s.retire rw).ctl = s.ctl := rfl
@[simp] theorem retire_btr (rw : CmdWord) (s : State) : (s.retire rw).btr = s.btr := rfl
@[simp] theorem retire_txid (rw : CmdWord) (s : State) : (s.retire rw).txid = s.txid := rfl
@[simp] theorem retire_txdt (rw : CmdWord) (s : State) : (s.retire rw).txdt = s.txdt := rfl
@[simp] theorem retire_txdl (rw : CmdWord) (s : State) : (s.retire rw).txdl = s.txdl := rfl
@[simp] theorem retire_txdh (rw : CmdWord) (s : State) : (s.retire rw).txdh = s.txdh := rfl
@[simp] theorem retire_fctl (rw : CmdWord) (s : State) : (s.retire rw).fctl = s.fctl := rfl
@[simp] theorem retire_fmode (rw : CmdWord) (s : State) : (s.retire rw).fmode = s.fmode := rfl
@[simp] theorem retire_fscale (rw : CmdWord) (s : State) : (s.retire rw).fscale = s.fscale := rfl
@[simp] theorem retire_fact (rw : CmdWord) (s : State) : (s.retire rw).fact = s.fact := rfl
@[simp] theorem retire_banks (rw : CmdWord) (s : State) : (s.retire rw).banks = s.banks := rfl
@[simp] theorem retire_mode (rw : CmdWord) (s : State) : (s.retire rw).mode = s.mode := rfl
@[simp] theorem retire_cursor (rw : CmdWord) (s : State) : (s.retire rw).cursor = s.cursor := rfl
@[simp] theorem retire_poll (rw : CmdWord) (s : State) : (s.retire rw).poll = s.poll := rfl
@[simp] theorem retire_upc (rw : CmdWord) (s : State) : (s.retire rw).upc = .idle := rfl
@[simp] theorem retire_cw (rw : CmdWord) (s : State) : (s.retire rw).cw = s.cw := rfl
@[simp] theorem retire_coreMode (rw : CmdWord) (s : State) : (s.retire rw).coreMode = s.coreMode := rfl
@[simp] theorem retire_fifo (rw : CmdWord) (s : State) : (s.retire rw).fifo = s.fifo := rfl
@[simp] theorem retire_history (rw : CmdWord) (s : State) : (s.retire rw).history = s.history ++ [.retire rw] := rfl
@[simp] theorem retire_port (rw : CmdWord) (s : State) : (s.retire rw).port = s.port := rfl
@[simp] theorem retire_sched (rw : CmdWord) (s : State) : (s.retire rw).sched = s.sched := rfl
@[simp] theorem retire_draws (rw : CmdWord) (s : State) : (s.retire rw).draws = s.draws := rfl

/-! ## State.refuse -/

@[simp] theorem refuse_ctl (w : CmdWord) (s : State) : (s.refuse w).ctl = s.ctl := rfl
@[simp] theorem refuse_btr (w : CmdWord) (s : State) : (s.refuse w).btr = s.btr := rfl
@[simp] theorem refuse_txid (w : CmdWord) (s : State) : (s.refuse w).txid = s.txid := rfl
@[simp] theorem refuse_txdt (w : CmdWord) (s : State) : (s.refuse w).txdt = s.txdt := rfl
@[simp] theorem refuse_txdl (w : CmdWord) (s : State) : (s.refuse w).txdl = s.txdl := rfl
@[simp] theorem refuse_txdh (w : CmdWord) (s : State) : (s.refuse w).txdh = s.txdh := rfl
@[simp] theorem refuse_fctl (w : CmdWord) (s : State) : (s.refuse w).fctl = s.fctl := rfl
@[simp] theorem refuse_fmode (w : CmdWord) (s : State) : (s.refuse w).fmode = s.fmode := rfl
@[simp] theorem refuse_fscale (w : CmdWord) (s : State) : (s.refuse w).fscale = s.fscale := rfl
@[simp] theorem refuse_fact (w : CmdWord) (s : State) : (s.refuse w).fact = s.fact := rfl
@[simp] theorem refuse_banks (w : CmdWord) (s : State) : (s.refuse w).banks = s.banks := rfl
@[simp] theorem refuse_mode (w : CmdWord) (s : State) : (s.refuse w).mode = s.mode := rfl
@[simp] theorem refuse_cursor (w : CmdWord) (s : State) : (s.refuse w).cursor = s.cursor := rfl
@[simp] theorem refuse_poll (w : CmdWord) (s : State) : (s.refuse w).poll = s.poll := rfl
@[simp] theorem refuse_upc (w : CmdWord) (s : State) : (s.refuse w).upc = s.upc := rfl
@[simp] theorem refuse_cw (w : CmdWord) (s : State) : (s.refuse w).cw = s.cw := rfl
@[simp] theorem refuse_coreMode (w : CmdWord) (s : State) : (s.refuse w).coreMode = s.coreMode := rfl
@[simp] theorem refuse_fifo (w : CmdWord) (s : State) : (s.refuse w).fifo = s.fifo := rfl
@[simp] theorem refuse_history (w : CmdWord) (s : State) : (s.refuse w).history = s.history ++ [.issue w, .refuse refusedWord] := rfl
@[simp] theorem refuse_port (w : CmdWord) (s : State) : (s.refuse w).port = s.port := rfl
@[simp] theorem refuse_sched (w : CmdWord) (s : State) : (s.refuse w).sched = s.sched := rfl
@[simp] theorem refuse_draws (w : CmdWord) (s : State) : (s.refuse w).draws = s.draws := rfl

/-! ## State.popTurn -/

@[simp] theorem popTurn_ctl (s : State) : (s.popTurn).ctl = s.ctl := rfl
@[simp] theorem popTurn_btr (s : State) : (s.popTurn).btr = s.btr := rfl
@[simp] theorem popTurn_txid (s : State) : (s.popTurn).txid = s.txid := rfl
@[simp] theorem popTurn_txdt (s : State) : (s.popTurn).txdt = s.txdt := rfl
@[simp] theorem popTurn_txdl (s : State) : (s.popTurn).txdl = s.txdl := rfl
@[simp] theorem popTurn_txdh (s : State) : (s.popTurn).txdh = s.txdh := rfl
@[simp] theorem popTurn_fctl (s : State) : (s.popTurn).fctl = s.fctl := rfl
@[simp] theorem popTurn_fmode (s : State) : (s.popTurn).fmode = s.fmode := rfl
@[simp] theorem popTurn_fscale (s : State) : (s.popTurn).fscale = s.fscale := rfl
@[simp] theorem popTurn_fact (s : State) : (s.popTurn).fact = s.fact := rfl
@[simp] theorem popTurn_banks (s : State) : (s.popTurn).banks = s.banks := rfl
@[simp] theorem popTurn_mode (s : State) : (s.popTurn).mode = s.mode := rfl
@[simp] theorem popTurn_cursor (s : State) : (s.popTurn).cursor = s.cursor := rfl
@[simp] theorem popTurn_poll (s : State) : (s.popTurn).poll = s.poll := rfl
@[simp] theorem popTurn_upc (s : State) : (s.popTurn).upc = s.upc := rfl
@[simp] theorem popTurn_cw (s : State) : (s.popTurn).cw = s.cw := rfl
@[simp] theorem popTurn_coreMode (s : State) : (s.popTurn).coreMode = s.coreMode := rfl
@[simp] theorem popTurn_fifo (s : State) : (s.popTurn).fifo = s.fifo := rfl
@[simp] theorem popTurn_history (s : State) : (s.popTurn).history = s.history := rfl
@[simp] theorem popTurn_port (s : State) : (s.popTurn).port = s.port := rfl
@[simp] theorem popTurn_sched (s : State) : (s.popTurn).sched = s.sched.tail := rfl
@[simp] theorem popTurn_draws (s : State) : (s.popTurn).draws = s.draws := rfl

end Sys2Proof.Machine
end

