-- ==== Sys2Proof/Laws/Ops.lean ====
section
/-! SUPPORT. One lemma per shared operation, saying once what it does: field writes in closed form, mailbox writes,
addressed accesses to the filter banks, the wait step, Issue, and the steps of CORE. Provers cite these instead of
unfolding the operations. -/

namespace Sys2Proof.Machine

/-! ## Reads -/

theorem readReg_ctl (k : Nat) (s : State) : readReg k .ctl s = s.ctl &&& 0x00000001#32 := rfl
theorem readReg_fctl (k : Nat) (s : State) : readReg k .fctl s = s.fctl &&& 0x00000001#32 := rfl
theorem readReg_fmode (k : Nat) (s : State) : readReg k .fmode s = s.fmode &&& 0x0FFFFFFF#32 := rfl
theorem readReg_fscale (k : Nat) (s : State) : readReg k .fscale s = s.fscale &&& 0x0FFFFFFF#32 := rfl
theorem readReg_fact (k : Nat) (s : State) : readReg k .fact s = s.fact &&& 0x0FFFFFFF#32 := rfl
theorem readReg_txid (k : Nat) (s : State) : readReg k .txid s = s.txid &&& 0xFFE00001#32 := rfl

/-- Bit 0 of TXID as read is TXRQ. -/
theorem seqRead_txid_bit0 (s : State) : (seqRead .txid s).getLsbD 0 = s.txrq := by
  simp [seqRead, readReg, definedBits, State.txrq]

/-- Bit 0 of STS as read is INAK. -/
theorem seqRead_sts_bit0 (s : State) : (seqRead .sts s).getLsbD 0 = s.inak := by
  cases h : s.inak <;> simp [seqRead, readReg, h]

/-- The count bits of RXF as read. -/
theorem seqRead_rxf_count (s : State) : (seqRead .rxf s).extractLsb' 0 2 = s.fmp := by
  apply word_ext
  intro k hk
  simp only [seqRead, readReg]
  interval_cases k <;> simp

/-! ## Field writes of the registers SEQ alone owns -/

/-- CTL.INRQ written with 1. -/
theorem fieldWrite_inrq_one (s : State) :
    fieldWrite inrqField 1 s = { s with ctl := (s.ctl &&& 0x00000001#32) ||| 0x00000001#32 } := by
  simp only [fieldWrite, writeReg, seqRead, readReg, inrqField, withField_one, definedBits]
  congr 1
  exact or_bit_masked 1#32 s.ctl 0 rfl

/-- CTL.INRQ written with 0. -/
theorem fieldWrite_inrq_zero (s : State) :
    fieldWrite inrqField 0 s = { s with ctl := (s.ctl &&& 0x00000001#32) &&& 0xFFFFFFFE#32 } := by
  simp only [fieldWrite, writeReg, seqRead, readReg, inrqField, withField_zero, definedBits]
  congr 1
  exact andnot_bit_masked 1#32 s.ctl 0

/-- FCTL.FINIT written with 1. -/
theorem fieldWrite_finit_one (s : State) :
    fieldWrite finitField 1 s = { s with fctl := (s.fctl &&& 0x00000001#32) ||| 0x00000001#32 } := by
  simp only [fieldWrite, writeReg, seqRead, readReg, finitField, withField_one, definedBits]
  congr 1
  exact or_bit_masked 1#32 s.fctl 0 rfl

/-- FCTL.FINIT written with 0. -/
theorem fieldWrite_finit_zero (s : State) :
    fieldWrite finitField 0 s = { s with fctl := (s.fctl &&& 0x00000001#32) &&& 0xFFFFFFFE#32 } := by
  simp only [fieldWrite, writeReg, seqRead, readReg, finitField, withField_zero, definedBits]
  congr 1
  exact andnot_bit_masked 1#32 s.fctl 0

/-- FMODE[b] written with 0: mask mode. -/
theorem fieldWrite_modeBit_zero (b : Nat) (s : State) :
    fieldWrite (modeBit b) 0 s = { s with fmode := (s.fmode &&& 0x0FFFFFFF#32) &&& ~~~(1#32 <<< b) } := by
  simp only [fieldWrite, writeReg, seqRead, readReg, modeBit, withField_zero, definedBits]
  congr 1
  exact andnot_bit_masked _ _ _

/-- FSCALE[b] written with 0: 16-bit packing. -/
theorem fieldWrite_scaleBit_zero (b : Nat) (s : State) :
    fieldWrite (scaleBit b) 0 s =
      { s with fscale := (s.fscale &&& 0x0FFFFFFF#32) &&& ~~~(1#32 <<< b) } := by
  simp only [fieldWrite, writeReg, seqRead, readReg, scaleBit, withField_zero, definedBits]
  congr 1
  exact andnot_bit_masked _ _ _

/-- FSCALE[b] written with 1: 32-bit packing. -/
theorem fieldWrite_scaleBit_one (b : Nat) (hb : b < 28) (s : State) :
    fieldWrite (scaleBit b) 1 s =
      { s with fscale := (s.fscale &&& 0x0FFFFFFF#32) ||| (1#32 <<< b) } := by
  simp only [fieldWrite, writeReg, seqRead, readReg, scaleBit, withField_one, definedBits]
  congr 1
  exact or_bit_masked _ _ _ ((bankMask_bit b).trans (by simpa using hb))

/-- FACT[b] written with 1: the bank is allocated. -/
theorem fieldWrite_activeBit_one (b : Nat) (hb : b < 28) (s : State) :
    fieldWrite (activeBit b) 1 s =
      { s with fact := (s.fact &&& 0x0FFFFFFF#32) ||| (1#32 <<< b) } := by
  simp only [fieldWrite, writeReg, seqRead, readReg, activeBit, withField_one, definedBits]
  congr 1
  exact or_bit_masked _ _ _ ((bankMask_bit b).trans (by simpa using hb))

/-- BTR written whole with a timing word. -/
theorem writeReg_btr (p : Profile) (s : State) : writeReg .btr (btrVal p) s = { s with btr := btrVal p } := by
  simp only [writeReg]
  congr 1
  exact btrVal_masked p

/-- The release: RXF.RFOM written with 1 removes the head of FIFO (48_core_agent.md R235). -/
theorem fieldWrite_rfom (s : State) : fieldWrite rfomField 1 s = { s with fifo := s.fifo.tail } := by
  have h : rfomField.reg = .rxf := rfl
  simp only [fieldWrite, h, writeReg, withField_rfom_bit, if_true]

/-! ## The transmit mailbox -/

/-- With TXRQ = 0 the mailbox is SEQ's and a write happens. -/
theorem mailboxWrite_free (f : State → State) (s : State) (h : s.txrq = false) :
    mailboxWrite f s = f s := by
  simp [mailboxWrite, h]

/-- With TXRQ = 1 a write happens or is ignored, by one free choice, which is used up (43_transmit.md R197). -/
theorem mailboxWrite_pending (f : State → State) (s : State) (h : s.txrq = true) :
    mailboxWrite f s = (if Config.raceLands s.draws then f s else s).drawn := by
  simp only [mailboxWrite, h, if_true]
  split <;> rfl

/-- TXDT.DLC written with a length, the mailbox free. -/
theorem fieldWrite_dlc_free (l : BitVec 4) (s : State) (h : s.txrq = false) :
    fieldWrite dlcField (l.zeroExtend 32) s = { s with txdt := l.zeroExtend 32 } := by
  have hr : dlcField.reg = .txdt := rfl
  simp only [fieldWrite, hr, writeReg, mailboxWrite_free _ s h, seqRead, readReg]
  rw [withField_dlc]

/-- TXDT.DLC written with a length while a request is pending. -/
theorem fieldWrite_dlc_pending (l : BitVec 4) (s : State) (h : s.txrq = true) :
    fieldWrite dlcField (l.zeroExtend 32) s = { s with
      txdt := if Config.raceLands s.draws then l.zeroExtend 32 else s.txdt
      draws := s.draws + 1 } := by
  have hr : dlcField.reg = .txdt := rfl
  simp only [fieldWrite, hr, writeReg, seqRead, readReg, withField_dlc, mailboxWrite_pending _ s h]
  cases Config.raceLands s.draws <;> simp [State.drawn]

/-- The word a write of TXRQ = 1 stores. -/
theorem withField_txrq (t : Word) :
    withField txrqField 1 (t &&& definedBits .txid) &&& definedBits .txid =
      (t &&& 0xFFE00001#32) ||| 0x00000001#32 := by
  rw [txrqField, withField_one]
  exact or_bit_masked 0xFFE00001#32 t 0 rfl

/-- TXID.TXRQ written with 1, the mailbox free. -/
theorem fieldWrite_txrq_free (s : State) (h : s.txrq = false) :
    fieldWrite txrqField 1 s = { s with txid := (s.txid &&& 0xFFE00001#32) ||| 0x00000001#32 } := by
  have hr : txrqField.reg = .txid := rfl
  simp only [fieldWrite, hr, writeReg, mailboxWrite_free _ s h, seqRead, readReg]
  rw [withField_txrq]

/-- TXID.TXRQ written with 1 while a request is pending. -/
theorem fieldWrite_txrq_pending (s : State) (h : s.txrq = true) :
    fieldWrite txrqField 1 s = { s with
      txid := if Config.raceLands s.draws then (s.txid &&& 0xFFE00001#32) ||| 0x00000001#32 else s.txid
      draws := s.draws + 1 } := by
  have hr : txrqField.reg = .txid := rfl
  simp only [fieldWrite, hr, writeReg, seqRead, readReg]
  rw [withField_txrq, mailboxWrite_pending _ s h]
  cases Config.raceLands s.draws <;> simp [State.drawn]

/-- TXID written whole, the mailbox free. -/
theorem writeReg_txid_free (id : Ident) (s : State) (h : s.txrq = false) :
    writeReg .txid (txidVal id) s = { s with txid := txidVal id } := by
  simp only [writeReg, mailboxWrite_free _ s h, txidVal_defined]

/-- TXID written whole while a request is pending. -/
theorem writeReg_txid_pending (id : Ident) (s : State) (h : s.txrq = true) :
    writeReg .txid (txidVal id) s = { s with
      txid := if Config.raceLands s.draws then txidVal id else s.txid
      draws := s.draws + 1 } := by
  simp only [writeReg, txidVal_defined, mailboxWrite_pending _ s h]
  cases Config.raceLands s.draws <;> simp [State.drawn]

theorem writeReg_txdl_free (v : Word) (s : State) (h : s.txrq = false) :
    writeReg .txdl v s = { s with txdl := v } := by
  simp only [writeReg, mailboxWrite_free _ s h]

theorem writeReg_txdl_pending (v : Word) (s : State) (h : s.txrq = true) :
    writeReg .txdl v s = { s with
      txdl := if Config.raceLands s.draws then v else s.txdl
      draws := s.draws + 1 } := by
  simp only [writeReg, mailboxWrite_pending _ s h]
  cases Config.raceLands s.draws <;> simp [State.drawn]

theorem writeReg_txdh_free (v : Word) (s : State) (h : s.txrq = false) :
    writeReg .txdh v s = { s with txdh := v } := by
  simp only [writeReg, mailboxWrite_free _ s h]

theorem writeReg_txdh_pending (v : Word) (s : State) (h : s.txrq = true) :
    writeReg .txdh v s = { s with
      txdh := if Config.raceLands s.draws then v else s.txdh
      draws := s.draws + 1 } := by
  simp only [writeReg, mailboxWrite_pending _ s h]
  cases Config.raceLands s.draws <;> simp [State.drawn]

/-- A write to a register of the transmit mailbox is one mailbox write, with one choice while a request is pending
(43_transmit.md R197). -/
theorem writeReg_txMailbox (r : Reg) (hr : r ∈ txMailboxRegs.toList) (v : Word) :
    ∃ f : State → State, writeReg r v = mailboxWrite f := by
  simp only [txMailboxRegs, Vector.toList_mk, List.mem_cons, List.not_mem_nil, or_false] at hr
  rcases hr with rfl | rfl | rfl | rfl <;> exact ⟨_, rfl⟩

/-- The registers that show the head of the FIFO ignore writes (10_state.md R29 to R31). -/
theorem writeReg_rxMailbox (r : Reg) (hr : r ∈ rxMailboxRegs.toList) (v : Word) (s : State) :
    writeReg r v s = s := by
  simp only [rxMailboxRegs, Vector.toList_mk, List.mem_cons, List.not_mem_nil, or_false] at hr
  rcases hr with rfl | rfl | rfl | rfl <;> rfl

/-! ## Addressed accesses to the filter banks -/

/-- The first sub-register of a bank is at its offset (42_filter_alloc.md R173). -/
theorem regAt_bankR1 (b : Fin 28) : regAt (bankR1Offset b.val) = some (.fbR1 b) := by
  revert b
  decide

/-- The second sub-register of a bank is at its offset. -/
theorem regAt_bankR2 (b : Fin 28) : regAt (bankR2Offset b.val) = some (.fbR2 b) := by
  revert b
  decide

/-- Addressed writes of a bank's sub-registers, whole and upper half. -/
theorem memWrite_bankR1 (b : Fin 28) (v : Word) (s : State) :
    memWrite (bankR1Offset b.val) v s =
      some { s with banks := s.banks.set b { s.banks[b] with r1 := v } } := by
  simp only [memWrite, regAt_bankR1, writeReg]

theorem memWrite_bankR2 (b : Fin 28) (v : Word) (s : State) :
    memWrite (bankR2Offset b.val) v s =
      some { s with banks := s.banks.set b { s.banks[b] with r2 := v } } := by
  simp only [memWrite, regAt_bankR2, writeReg]

theorem upperHalfWrite_bankR1 (b : Fin 28) (h : Half) (s : State) :
    upperHalfWrite (bankR1Offset b.val) h s = some { s with
      banks := s.banks.set b { s.banks[b] with r1 := h ++ (s.banks[b]).r1.extractLsb' 0 16 } } := by
  simp only [upperHalfWrite, memRead, regAt_bankR1, seqRead, readReg, memWrite, writeReg, withUpperHalf_eq]

theorem upperHalfWrite_bankR2 (b : Fin 28) (h : Half) (s : State) :
    upperHalfWrite (bankR2Offset b.val) h s = some { s with
      banks := s.banks.set b { s.banks[b] with r2 := h ++ (s.banks[b]).r2.extractLsb' 0 16 } } := by
  simp only [upperHalfWrite, memRead, regAt_bankR2, seqRead, readReg, memWrite, writeReg, withUpperHalf_eq]

/-- A cursor below saturation names a bank that exists (42_filter_alloc.md R173). -/
theorem bankOf_toNat (c : BitVec 7) (h : c.toNat < 112) : (bankOf c).toNat = c.toNat / 4 := by
  simp only [bankOf, Config.slotsPerBank, BitVec.toNat_ofNat]
  omega

theorem slotOf_toNat (c : BitVec 7) : (slotOf c).toNat = c.toNat % 4 := by
  simp only [slotOf, Config.slotsPerBank, BitVec.toNat_ofNat]
  omega

/-! ## Wait steps -/

/-- The two unbounded waits of INIT (41_mode_control.md R153, R156). -/
theorem initI2_eq (p : Profile) (s : State) :
    initI2 p s = if s.coreMode = .init then { s with upc := .i3 p } else s := by
  simp only [initI2, waitStep, seqRead_sts_bit0, State.inak]
  by_cases h : s.coreMode = .init <;> simp [h]

theorem initI6_eq (s : State) :
    initI6 s = if s.coreMode = .init then s else { s with upc := .i7 } := by
  simp only [initI6, waitStep, seqRead_sts_bit0, State.inak]
  by_cases h : s.coreMode = .init <;> simp [h]

/-- One poll of TX (43_transmit.md R195), by what it sees. -/
theorem txT6_clear (s : State) (h : s.txrq = false) : txT6 s = State.retire doneWord s := by
  simp only [txT6, waitStep, seqRead_txid_bit0, h, Bool.not_false, if_true]

theorem txT6_pending (s : State) (h : s.txrq = true) :
    txT6 s =
      if s.poll + 1 = BitVec.ofNat 20 Config.txPollBound
      then State.retire notDoneWord { s with poll := s.poll + 1 } else { s with poll := s.poll + 1 } := by
  simp only [txT6, waitStep, seqRead_txid_bit0, h, Bool.not_true, Bool.false_eq_true, if_false]

/-- When the count reaches the bound (10_state.md R42). -/
theorem poll_at_bound (p : BitVec 20) (h : p.toNat < 1000000) :
    p + 1 = BitVec.ofNat 20 Config.txPollBound ↔ p.toNat + 1 = 1000000 := by
  rw [← BitVec.toNat_inj, BitVec.toNat_add, BitVec.toNat_ofNat, show (1 : BitVec 20).toNat = 1 from rfl,
    show Config.txPollBound = 1000000 from rfl]
  omega

/-! ## Issue -/

theorem issue_accepted (i : Instr) (s : State) (h : s.mode = gateMode i) :
    issue i s = { s with
      cw := encode i, upc := firstLabel i, history := s.history ++ [.issue (encode i)] } := by
  simp [issue, h]

theorem issue_refused (i : Instr) (s : State) (h : s.mode ≠ gateMode i) :
    issue i s = s.refuse (encode i) := by
  simp [issue, h]

/-- At IDLE every command's meaning is its Issue. -/
theorem exec_idle (i : Instr) (s : State) (h : s.upc = .idle) : exec i s = .next (issue i s) := by
  cases i <;> simp [exec, execInit, execAlloc, execTx, execAvail, execRx, h]

/-! ## CORE -/

theorem coreStep_enabled (a : CoreAct) (s : State) (h : coreEnabled a s = true) :
    coreStep a s = coreEffect a s := by
  simp [coreStep, h]

theorem coreStep_not_enabled (a : CoreAct) (s : State) (h : coreEnabled a s = false) :
    coreStep a s = s := by
  simp [coreStep, h]

theorem ackInit_enabled (s : State) :
    coreEnabled .ackInit s = true ↔ s.inrq = true ∧ s.coreMode ≠ .init := by
  simp [coreEnabled]

theorem ackNormal_enabled (s : State) :
    coreEnabled .ackNormal s = true ↔ s.inrq = false ∧ s.coreMode = .init := by
  simp [coreEnabled]

theorem txDone_enabled (s : State) :
    coreEnabled .txDone s = true ↔ s.coreMode = .normal ∧ s.txrq = true := by
  simp [coreEnabled]

theorem rxPush_enabled (f : Frame) (s : State) :
    coreEnabled (.rxPush f) s = true ↔
      s.coreMode = .normal ∧ s.fifo.length < 2 ∧ accept (filterState s) f.id = true := by
  simp [coreEnabled, Config.fifoDepth, and_assoc]

/-! ## Reserved bits -/

/-- Reserved bits read 0 in every register (10_state.md R37). -/
theorem readReg_reserved (k : Nat) (r : Reg) (s : State) : readReg k r s &&& definedBits r = readReg k r s := by
  apply word_ext
  intro j hj
  cases r <;> simp only [readReg, definedBits, BitVec.getLsbD_and]
  all_goals try (interval_cases j <;> simp; done)
  case sts => cases s.inak <;> interval_cases j <;> simp
  case rxid =>
    cases s.fifo <;> simp only [txidVal, Config.txidShift] <;> interval_cases j <;> simp
  case rxdt => cases s.fifo <;> simp only [] <;> interval_cases j <;> simp

end Sys2Proof.Machine
end

