-- ==== Sys2Proof/Laws/Step.lean ====
section
/-! SUPPORT. What one step can do, said once: `SeqStep` lists the micro-steps of the five commands, each with its
result in closed form, and `StepCase` lists the turns. Invariants follow by cases on these, with nothing unfolded. -/

namespace Sys2Proof.Machine

/-- One step of SEQ: from which label, and to which state. -/
inductive SeqStep : Instr → State → State → Prop where
  | i0 {sel s} : s.upc = .i0 →
      SeqStep (.init sel) s { s with mode := .initializing, cursor := 0, upc := .i1 (bt sel) }
  | i1 {sel s p} : s.upc = .i1 p →
      SeqStep (.init sel) s { s with ctl := (s.ctl &&& 0x00000001#32) ||| 0x00000001#32, upc := .i2 p }
  | i2go {sel s p} : s.upc = .i2 p → s.coreMode = .init → SeqStep (.init sel) s { s with upc := .i3 p }
  | i2stay {sel s p} : s.upc = .i2 p → s.coreMode ≠ .init → SeqStep (.init sel) s s
  | i3 {sel s p} : s.upc = .i3 p → SeqStep (.init sel) s { s with btr := btrVal p, upc := .i4a }
  | i4a {sel s} : s.upc = .i4a →
      SeqStep (.init sel) s { s with fscale := (s.fscale &&& 0x0FFFFFFF#32) ||| (1#32 <<< 0), upc := .i4b }
  | i4b {sel s} : s.upc = .i4b →
      SeqStep (.init sel) s { s with fmode := (s.fmode &&& 0x0FFFFFFF#32) &&& ~~~(1#32 <<< 0), upc := .i4c }
  | i4c {sel s} : s.upc = .i4c →
      SeqStep (.init sel) s
        { s with banks := s.banks.set (0 : Fin 28) { s.banks[(0 : Fin 28)] with r1 := 0 }, upc := .i4d }
  | i4d {sel s} : s.upc = .i4d →
      SeqStep (.init sel) s
        { s with banks := s.banks.set (0 : Fin 28) { s.banks[(0 : Fin 28)] with r2 := 0 }, upc := .i4e }
  | i4e {sel s} : s.upc = .i4e →
      SeqStep (.init sel) s { s with fact := (s.fact &&& 0x0FFFFFFF#32) ||| (1#32 <<< 0), upc := .i5 }
  | i5 {sel s} : s.upc = .i5 →
      SeqStep (.init sel) s { s with ctl := (s.ctl &&& 0x00000001#32) &&& 0xFFFFFFFE#32, upc := .i6 }
  | i6stay {sel s} : s.upc = .i6 → s.coreMode = .init → SeqStep (.init sel) s s
  | i6go {sel s} : s.upc = .i6 → s.coreMode ≠ .init → SeqStep (.init sel) s { s with upc := .i7 }
  | i7 {sel s} : s.upc = .i7 →
      SeqStep (.init sel) s
        { s with mode := .normal, upc := .idle, history := s.history ++ [.retire doneWord] }
  | a0full {id s} : s.upc = .a0 → s.cursor = 112 →
      SeqStep (.alloc id) s { s with upc := .idle, history := s.history ++ [.retire doneWord] }
  | a0go {id s} : s.upc = .a0 → s.cursor ≠ 112 → SeqStep (.alloc id) s { s with upc := .a1 }
  | a1 {id s} : s.upc = .a1 →
      SeqStep (.alloc id) s { s with
        fctl := (s.fctl &&& 0x00000001#32) ||| 0x00000001#32, mode := .filterConfiguration, upc := .a2 }
  | a2 {id s} : s.upc = .a2 →
      SeqStep (.alloc id) s { s with upc := .a3a (bankOf s.cursor) (slotOf s.cursor) (half id) }
  | a3slot0 {id s bank h} : s.upc = .a3a bank 0 h →
      SeqStep (.alloc id) s { s with
        fmode := (s.fmode &&& 0x0FFFFFFF#32) &&& ~~~(1#32 <<< bank.toNat), upc := .a3b bank h }
  | a3slot1 {id s bank h} (b : Fin 28) : bank.toNat = b.val → s.upc = .a3a bank 1 h →
      SeqStep (.alloc id) s { s with
        banks := s.banks.set b { s.banks[b] with r1 := h ++ (s.banks[b]).r1.extractLsb' 0 16 }
        upc := .a4 }
  | a3slot2 {id s bank h} (b : Fin 28) : bank.toNat = b.val → s.upc = .a3a bank 2 h →
      SeqStep (.alloc id) s { s with
        banks := s.banks.set b { s.banks[b] with r2 := bothHalves h }, upc := .a4 }
  | a3slot3 {id s bank h} (b : Fin 28) : bank.toNat = b.val → s.upc = .a3a bank 3 h →
      SeqStep (.alloc id) s { s with
        banks := s.banks.set b { s.banks[b] with r2 := h ++ (s.banks[b]).r2.extractLsb' 0 16 }
        upc := .a4 }
  | a3b {id s bank h} : s.upc = .a3b bank h →
      SeqStep (.alloc id) s { s with
        fscale := (s.fscale &&& 0x0FFFFFFF#32) &&& ~~~(1#32 <<< bank.toNat), upc := .a3c bank h }
  | a3c {id s bank h} (b : Fin 28) : bank.toNat = b.val → s.upc = .a3c bank h →
      SeqStep (.alloc id) s { s with
        banks := s.banks.set b { s.banks[b] with r1 := bothHalves h }, upc := .a3d bank h }
  | a3d {id s bank h} (b : Fin 28) : bank.toNat = b.val → s.upc = .a3d bank h →
      SeqStep (.alloc id) s { s with
        banks := s.banks.set b { s.banks[b] with r2 := bothHalves h }, upc := .a3e bank }
  | a3e {id s bank} : s.upc = .a3e bank → bank.toNat < 28 →
      SeqStep (.alloc id) s { s with
        fact := (s.fact &&& 0x0FFFFFFF#32) ||| (1#32 <<< bank.toNat), upc := .a4 }
  /-- No state that meets `StateInv` is here. -/
  | a3eNoBank {id s bank} : s.upc = .a3e bank → 28 ≤ bank.toNat →
      SeqStep (.alloc id) s { s with fact := s.fact &&& 0x0FFFFFFF#32, upc := .a4 }
  | a4 {id s} : s.upc = .a4 → SeqStep (.alloc id) s { s with cursor := s.cursor + 1, upc := .a5 }
  | a5 {id s} : s.upc = .a5 →
      SeqStep (.alloc id) s { s with
        fctl := (s.fctl &&& 0x00000001#32) &&& 0xFFFFFFFE#32, mode := .normal, upc := .idle
        history := s.history ++ [.retire doneWord] }
  | t1free {id len d s} : s.upc = .t1 → s.txrq = false →
      SeqStep (.tx id len d) s { s with txid := txidVal id, upc := .t2 }
  | t1race {id len d s} (v : Word) : s.upc = .t1 → s.txrq = true → v = s.txid ∨ v = txidVal id →
      SeqStep (.tx id len d) s { s with txid := v, draws := s.draws + 1, upc := .t2 }
  | t2free {id len d s} : s.upc = .t2 → s.txrq = false →
      SeqStep (.tx id len d) s { s with txdt := (dlcVal len).zeroExtend 32, upc := .t3 }
  | t2race {id len d s} (v : Word) : s.upc = .t2 → s.txrq = true →
      v = s.txdt ∨ v = (dlcVal len).zeroExtend 32 →
      SeqStep (.tx id len d) s { s with txdt := v, draws := s.draws + 1, upc := .t3 }
  | t3free {id len d s} : s.upc = .t3 → s.txrq = false →
      SeqStep (.tx id len d) s { s with txdl := lowWord d, upc := .t4 }
  | t3race {id len d s} (v : Word) : s.upc = .t3 → s.txrq = true → v = s.txdl ∨ v = lowWord d →
      SeqStep (.tx id len d) s { s with txdl := v, draws := s.draws + 1, upc := .t4 }
  | t4free {id len d s} : s.upc = .t4 → s.txrq = false →
      SeqStep (.tx id len d) s { s with txdh := highWord d, upc := .t5 }
  | t4race {id len d s} (v : Word) : s.upc = .t4 → s.txrq = true → v = s.txdh ∨ v = highWord d →
      SeqStep (.tx id len d) s { s with txdh := v, draws := s.draws + 1, upc := .t5 }
  | t5free {id len d s} : s.upc = .t5 → s.txrq = false →
      SeqStep (.tx id len d) s { s with
        txid := (s.txid &&& 0xFFE00001#32) ||| 0x00000001#32, poll := 0, upc := .t6 }
  | t5race {id len d s} (v : Word) : s.upc = .t5 → s.txrq = true →
      v = s.txid ∨ v = (s.txid &&& 0xFFE00001#32) ||| 0x00000001#32 →
      SeqStep (.tx id len d) s { s with txid := v, draws := s.draws + 1, poll := 0, upc := .t6 }
  | t6done {id len d s} : s.upc = .t6 → s.txrq = false →
      SeqStep (.tx id len d) s { s with upc := .idle, history := s.history ++ [.retire doneWord] }
  | t6poll {id len d s} : s.upc = .t6 → s.txrq = true → s.poll + 1 ≠ BitVec.ofNat 20 Config.txPollBound →
      SeqStep (.tx id len d) s { s with poll := s.poll + 1 }
  | t6bound {id len d s} : s.upc = .t6 → s.txrq = true → s.poll + 1 = BitVec.ofNat 20 Config.txPollBound →
      SeqStep (.tx id len d) s { s with
        poll := s.poll + 1, upc := .idle, history := s.history ++ [.retire notDoneWord] }
  | v1 {s} : s.upc = .v1 →
      SeqStep .avail s { s with upc := .idle, history := s.history ++ [.retire (availWord s.fmp)] }
  | r1 {s} (n : Nat) : s.upc = .r1 → n = s.draws ∨ n = s.draws + 1 →
      SeqStep .rx s { s with draws := n, upc := .r2 (seqRead .rxid s) }
  | r2 {s w1} (n : Nat) : s.upc = .r2 w1 → n = s.draws ∨ n = s.draws + 1 →
      SeqStep .rx s { s with draws := n, upc := .r3 w1 (seqRead .rxdt s) }
  | r3 {s w1 w2} (n : Nat) : s.upc = .r3 w1 w2 → n = s.draws ∨ n = s.draws + 1 →
      SeqStep .rx s { s with draws := n, upc := .r4 w1 w2 (seqRead .rxdl s) }
  | r4 {s w1 w2 w3} (n : Nat) : s.upc = .r4 w1 w2 w3 → n = s.draws ∨ n = s.draws + 1 →
      SeqStep .rx s { s with draws := n, upc := .r5 w1 w2 w3 (seqRead .rxdh s) }
  | r5 {s w1 w2 w3 w4} : s.upc = .r5 w1 w2 w3 w4 →
      SeqStep .rx s { s with
        fifo := s.fifo.tail, upc := .idle, history := s.history ++ [.retire (rxWord w1 w2 w3 w4)] }

/-- A read of the receive mailbox uses a draw or does not. -/
theorem afterMailboxRead_eq (s : State) :
    ∃ n, (n = s.draws ∨ n = s.draws + 1) ∧ afterMailboxRead s = { s with draws := n } := by
  cases h : s.fifo.isEmpty
  · exact ⟨s.draws, .inl rfl, by simp [afterMailboxRead, h]⟩
  · exact ⟨s.draws + 1, .inr rfl, by simp [afterMailboxRead, h, State.drawn]⟩

/-- Where there is a bank, there is a register at its offsets, and nowhere else. -/
theorem regAt_bank_none (n : Nat) (h : n < 32) (h' : 28 ≤ n) :
    regAt (bankR1Offset n) = none ∧ regAt (bankR2Offset n) = none := by
  interval_cases n <;> decide

/-! ## The command families, inverted -/

theorem execInit_cases (sel : Byte) (s t : State) (hu : s.upc ≠ .idle)
    (h : execInit sel s = .next t) : SeqStep (.init sel) s t := by
  unfold execInit at h
  split at h <;> (try cases h) <;> rename_i hl
  · exact absurd hl hu
  · exact .i0 hl
  · rw [initI1, fieldWrite_inrq_one]
    exact .i1 hl
  · rw [initI2_eq]
    split
    · exact .i2go hl ‹_›
    · exact .i2stay hl ‹_›
  · rw [initI3, writeReg_btr]
    exact .i3 hl
  · rw [initI4a, fieldWrite_scaleBit_one 0 (by omega)]
    exact .i4a hl
  · rw [initI4b, fieldWrite_modeBit_zero]
    exact .i4b hl
  · exact .i4c hl
  · exact .i4d hl
  · rw [initI4e, fieldWrite_activeBit_one 0 (by omega)]
    exact .i4e hl
  · rw [initI5, fieldWrite_inrq_zero]
    exact .i5 hl
  · rw [initI6_eq]
    split
    · exact .i6stay hl ‹_›
    · exact .i6go hl ‹_›
  · exact .i7 hl

/-- An addressed access that answers a next state touched a bank that exists. -/
theorem afterAccess_next {a : Nat} {u : Upc} {x : Option State} {t : State}
    (h : afterAccess a u x = .next t) : ∃ s', x = some s' ∧ t = { s' with upc := u } := by
  cases x with
  | none => cases h
  | some s' => cases h; exact ⟨s', rfl, rfl⟩

/-- A bank number names a bank that exists, or its offsets hold no register. -/
theorem bank_exists_or (bank : BitVec 5) : (∃ b : Fin 28, bank.toNat = b.val) ∨
    (28 ≤ bank.toNat ∧ regAt (bankR1Offset bank.toNat) = none ∧ regAt (bankR2Offset bank.toNat) = none) := by
  by_cases hb : bank.toNat < 28
  · exact .inl ⟨⟨bank.toNat, hb⟩, rfl⟩
  · exact .inr ⟨by omega, regAt_bank_none _ bank.isLt (by omega)⟩

/-- The step A3a by slot, in closed form (42_filter_alloc.md R174 to R177). -/
theorem allocA3a_slot0 (bank : BitVec 5) (h : Half) (s : State) :
    allocA3a bank 0 h s = .next { s with
      fmode := (s.fmode &&& 0x0FFFFFFF#32) &&& ~~~(1#32 <<< bank.toNat), upc := .a3b bank h } := by
  change Host.Outcome.next { fieldWrite (modeBit bank.toNat) 0 s with upc := .a3b bank h } = _
  rw [fieldWrite_modeBit_zero]

theorem allocA3a_slot1 (bank : BitVec 5) (b : Fin 28) (hb : bank.toNat = b.val) (h : Half) (s : State) :
    allocA3a bank 1 h s = .next { s with
      banks := s.banks.set b { s.banks[b] with r1 := h ++ (s.banks[b]).r1.extractLsb' 0 16 }
      upc := .a4 } := by
  change afterAccess _ .a4 (upperHalfWrite (bankR1Offset bank.toNat) h s) = _
  rw [hb, upperHalfWrite_bankR1]
  rfl

theorem allocA3a_slot2 (bank : BitVec 5) (b : Fin 28) (hb : bank.toNat = b.val) (h : Half) (s : State) :
    allocA3a bank 2 h s = .next { s with
      banks := s.banks.set b { s.banks[b] with r2 := bothHalves h }, upc := .a4 } := by
  change afterAccess _ .a4 (memWrite (bankR2Offset bank.toNat) (bothHalves h) s) = _
  rw [hb, memWrite_bankR2]
  rfl

theorem allocA3a_slot3 (bank : BitVec 5) (b : Fin 28) (hb : bank.toNat = b.val) (h : Half) (s : State) :
    allocA3a bank 3 h s = .next { s with
      banks := s.banks.set b { s.banks[b] with r2 := h ++ (s.banks[b]).r2.extractLsb' 0 16 }
      upc := .a4 } := by
  change afterAccess _ .a4 (upperHalfWrite (bankR2Offset bank.toNat) h s) = _
  rw [hb, upperHalfWrite_bankR2]
  rfl

theorem allocA3c_bank (bank : BitVec 5) (b : Fin 28) (hb : bank.toNat = b.val) (h : Half) (s : State) :
    allocA3c bank h s = .next { s with
      banks := s.banks.set b { s.banks[b] with r1 := bothHalves h }, upc := .a3d bank h } := by
  rw [allocA3c, hb, memWrite_bankR1]
  rfl

theorem allocA3d_bank (bank : BitVec 5) (b : Fin 28) (hb : bank.toNat = b.val) (h : Half) (s : State) :
    allocA3d bank h s = .next { s with
      banks := s.banks.set b { s.banks[b] with r2 := bothHalves h }, upc := .a3e bank } := by
  rw [allocA3d, hb, memWrite_bankR2]
  rfl

theorem allocA3e_bank (bank : BitVec 5) (hb : bank.toNat < 28) (s : State) :
    allocA3e bank s = { s with
      fact := (s.fact &&& 0x0FFFFFFF#32) ||| (1#32 <<< bank.toNat), upc := .a4 } := by
  rw [allocA3e, fieldWrite_activeBit_one _ hb]

theorem allocA3e_noBank (bank : BitVec 5) (hb : 28 ≤ bank.toNat) (s : State) :
    allocA3e bank s = { s with fact := s.fact &&& 0x0FFFFFFF#32, upc := .a4 } := by
  simp only [allocA3e, fieldWrite, writeReg, seqRead, readReg, activeBit, withField_one, definedBits]
  congr 1
  apply word_ext
  intro k hk
  have hm := bankMask_bit k
  simp only [BitVec.getLsbD_and, BitVec.getLsbD_or, BitVec.getLsbD_shiftLeft, BitVec.getLsbD_one]
  rw [show (0x0FFFFFFF : Word) = 0x0FFFFFFF#32 from rfl, hm]
  by_cases h1 : k < bank.toNat <;> by_cases h2 : k - bank.toNat = 0 <;> by_cases h3 : k < 28 <;>
    simp [h1, h2, h3]
  omega

/-- The slot is one of four. -/
theorem slot_cases (slot : BitVec 2) : slot = 0 ∨ slot = 1 ∨ slot = 2 ∨ slot = 3 := by
  revert slot
  decide

/-- At a bank that does not exist, every addressed step stops. -/
theorem allocA3a_noBank (bank : BitVec 5) (slot : BitVec 2) (h : Half) (s t : State)
    (h1 : regAt (bankR1Offset bank.toNat) = none) (h2 : regAt (bankR2Offset bank.toNat) = none)
    (h0 : slot ≠ 0) : allocA3a bank slot h s ≠ .next t := by
  rcases slot_cases slot with rfl | rfl | rfl | rfl
  · exact absurd rfl h0
  all_goals simp [allocA3a, upperHalfWrite, memRead, memWrite, h1, h2, afterAccess]

theorem allocA3a_cases (id : Ident) (bank : BitVec 5) (slot : BitVec 2) (hh : Half) (s t : State)
    (hl : s.upc = .a3a bank slot hh) (h : allocA3a bank slot hh s = .next t) :
    SeqStep (.alloc id) s t := by
  rcases bank_exists_or bank with ⟨b, hb⟩ | ⟨-, h1, h2⟩
  · rcases slot_cases slot with rfl | rfl | rfl | rfl
    · rw [allocA3a_slot0] at h
      cases h
      exact .a3slot0 hl
    · rw [allocA3a_slot1 bank b hb] at h
      cases h
      exact .a3slot1 b hb hl
    · rw [allocA3a_slot2 bank b hb] at h
      cases h
      exact .a3slot2 b hb hl
    · rw [allocA3a_slot3 bank b hb] at h
      cases h
      exact .a3slot3 b hb hl
  · by_cases h0 : slot = 0
    · subst h0
      rw [allocA3a_slot0] at h
      cases h
      exact .a3slot0 hl
    · exact absurd h (allocA3a_noBank bank slot hh s t h1 h2 h0)

theorem allocA3c_cases (id : Ident) (bank : BitVec 5) (hh : Half) (s t : State)
    (hl : s.upc = .a3c bank hh) (h : allocA3c bank hh s = .next t) : SeqStep (.alloc id) s t := by
  rcases bank_exists_or bank with ⟨b, hb⟩ | ⟨-, h1, h2⟩
  · rw [allocA3c_bank bank b hb] at h
    cases h
    exact .a3c b hb hl
  · simp [allocA3c, memWrite, h1, afterAccess] at h

theorem allocA3d_cases (id : Ident) (bank : BitVec 5) (hh : Half) (s t : State)
    (hl : s.upc = .a3d bank hh) (h : allocA3d bank hh s = .next t) : SeqStep (.alloc id) s t := by
  rcases bank_exists_or bank with ⟨b, hb⟩ | ⟨-, h1, h2⟩
  · rw [allocA3d_bank bank b hb] at h
    cases h
    exact .a3d b hb hl
  · simp [allocA3d, memWrite, h2, afterAccess] at h

theorem allocA3e_cases (id : Ident) (bank : BitVec 5) (s : State) (hl : s.upc = .a3e bank) :
    SeqStep (.alloc id) s (allocA3e bank s) := by
  by_cases hb : bank.toNat < 28
  · rw [allocA3e_bank bank hb]
    exact .a3e hl hb
  · rw [allocA3e_noBank bank (by omega)]
    exact .a3eNoBank hl (by omega)

theorem execAlloc_cases (id : Ident) (s t : State) (hu : s.upc ≠ .idle)
    (h : execAlloc id s = .next t) : SeqStep (.alloc id) s t := by
  cases hl : s.upc <;> simp only [execAlloc, hl] at h <;> first
    | cases h
      first
        | exact absurd hl hu
        | exact .a2 hl
        | exact .a4 hl
        | exact allocA3e_cases id _ s hl
        | (rw [allocA3b, fieldWrite_scaleBit_zero]; exact .a3b hl)
        | (rw [allocA1, fieldWrite_finit_one]; exact .a1 hl)
        | (rw [allocA5, fieldWrite_finit_zero]; exact .a5 hl)
        | (unfold allocA0; split <;> [exact .a0full hl ‹_›; exact .a0go hl ‹_›])
        | done
    | exact allocA3a_cases id _ _ _ s t hl h
    | exact allocA3c_cases id _ _ s t hl h
    | exact allocA3d_cases id _ _ s t hl h

theorem execTx_cases (id : Ident) (len : Byte) (d : Payload) (s t : State) (hu : s.upc ≠ .idle)
    (h : execTx id len d s = .next t) : SeqStep (.tx id len d) s t := by
  unfold execTx at h
  split at h <;> (try cases h) <;> rename_i hl
  · exact absurd hl hu
  · rw [txT1]
    cases hq : s.txrq
    · rw [writeReg_txid_free id s hq]
      exact .t1free hl hq
    · rw [writeReg_txid_pending id s hq]
      exact .t1race _ hl hq (ite_eq_or_eq _ _ _).symm
  · rw [txT2]
    cases hq : s.txrq
    · rw [fieldWrite_dlc_free _ s hq]
      exact .t2free hl hq
    · rw [fieldWrite_dlc_pending (dlcVal len) s hq]
      exact .t2race _ hl hq (ite_eq_or_eq _ _ _).symm
  · rw [txT3]
    cases hq : s.txrq
    · rw [writeReg_txdl_free _ s hq]
      exact .t3free hl hq
    · rw [writeReg_txdl_pending (lowWord d) s hq]
      exact .t3race _ hl hq (ite_eq_or_eq _ _ _).symm
  · rw [txT4]
    cases hq : s.txrq
    · rw [writeReg_txdh_free _ s hq]
      exact .t4free hl hq
    · rw [writeReg_txdh_pending (highWord d) s hq]
      exact .t4race _ hl hq (ite_eq_or_eq _ _ _).symm
  · rw [txT5]
    cases hq : s.txrq
    · rw [fieldWrite_txrq_free s hq]
      exact .t5free hl hq
    · rw [fieldWrite_txrq_pending s hq]
      exact .t5race _ hl hq (ite_eq_or_eq _ _ _).symm
  · cases hq : s.txrq
    · rw [txT6_clear s hq]
      exact .t6done hl hq
    · rw [txT6_pending s hq]
      split
      · exact .t6bound hl hq ‹_›
      · exact .t6poll hl hq ‹_›

theorem execAvail_cases (s t : State) (hu : s.upc ≠ .idle) (h : execAvail s = .next t) :
    SeqStep .avail s t := by
  unfold execAvail at h
  split at h <;> (try cases h) <;> rename_i hl
  · exact absurd hl hu
  · rw [availV1, seqRead_rxf_count]
    exact .v1 hl

theorem execRx_cases (s t : State) (hu : s.upc ≠ .idle) (h : execRx s = .next t) : SeqStep .rx s t := by
  obtain ⟨n, hn, hr⟩ := afterMailboxRead_eq s
  unfold execRx at h
  split at h <;> (try cases h) <;> rename_i hl
  · exact absurd hl hu
  · rw [rxR1, hr]
    exact .r1 n hl hn
  · rw [rxR2, hr]
    exact .r2 n hl hn
  · rw [rxR3, hr]
    exact .r3 n hl hn
  · rw [rxR4, hr]
    exact .r4 n hl hn
  · rw [rxR5, fieldWrite_rfom]
    exact .r5 hl

/-- Everything a running command can do in one step. -/
theorem exec_cases (i : Instr) (s t : State) (hu : s.upc ≠ .idle) (h : exec i s = .next t) :
    SeqStep i s t := by
  cases i with
  | init sel => exact execInit_cases sel s t hu h
  | alloc id => exact execAlloc_cases id s t hu h
  | tx id len d => exact execTx_cases id len d s t hu h
  | avail => exact execAvail_cases s t hu h
  | rx => exact execRx_cases s t hu h

/-! ## The turns -/

theorem step_core (s : State) (a : CoreAct) (h : nextTurn s = .core a) :
    step s = .next (coreStep a s.popTurn) := by
  simp only [step, h, takeTurn]

theorem step_block (s : State) (h : nextTurn s = .block) : step s = blockTurn s.popTurn := by
  simp only [step, h, takeTurn]

theorem blockTurn_quiet (s : State) (hu : s.upc = .idle) (hp : s.port = []) : blockTurn s = .next s := by
  simp [blockTurn, hu, hp]

theorem blockTurn_issue (s : State) (w : CmdWord) (ws : List CmdWord) (i : Instr) (hu : s.upc = .idle)
    (hp : s.port = w :: ws) (hd : decode w = .ok i) : blockTurn s = exec i { s with port := ws } := by
  simp [blockTurn, hu, hp, hd]

theorem blockTurn_illegal (s : State) (w : CmdWord) (ws : List CmdWord) (c : Illegal) (hu : s.upc = .idle)
    (hp : s.port = w :: ws) (hd : decode w = .error c) :
    blockTurn s = .next (State.refuse w { s with port := ws }) := by
  simp [blockTurn, hu, hp, hd]

theorem blockTurn_busy (s : State) (i : Instr) (hu : s.upc ≠ .idle) (hd : decode s.cw = .ok i) :
    blockTurn s = exec i s := by
  simp only [blockTurn, hd]

/-- What a turn of HOST and SEQ can do. -/
inductive BlockCase (s t : State) : Prop where
  | quiet : s.upc = .idle → s.port = [] → t = s → BlockCase s t
  | illegal (w : CmdWord) (ws : List CmdWord) (c : Illegal) : s.upc = .idle → s.port = w :: ws →
      decode w = .error c → t = State.refuse w { s with port := ws } → BlockCase s t
  | accepted (w : CmdWord) (ws : List CmdWord) (i : Instr) : s.upc = .idle → s.port = w :: ws →
      decode w = .ok i → s.mode = gateMode i →
      t = { s with
        port := ws, cw := encode i, upc := firstLabel i, history := s.history ++ [.issue (encode i)] } →
      BlockCase s t
  | gated (w : CmdWord) (ws : List CmdWord) (i : Instr) : s.upc = .idle → s.port = w :: ws →
      decode w = .ok i → s.mode ≠ gateMode i → t = State.refuse (encode i) { s with port := ws } →
      BlockCase s t
  | seq (i : Instr) : s.upc ≠ .idle → decode s.cw = .ok i → SeqStep i s t → BlockCase s t

theorem blockTurn_cases (s t : State) (h : blockTurn s = .next t) : BlockCase s t := by
  by_cases hu : s.upc = .idle
  · cases hp : s.port with
    | nil =>
      rw [blockTurn_quiet s hu hp] at h
      cases h
      exact .quiet hu hp rfl
    | cons w ws =>
      cases hd : decode w with
      | error c =>
        rw [blockTurn_illegal s w ws c hu hp hd] at h
        cases h
        exact .illegal w ws c hu hp hd rfl
      | ok i =>
        rw [blockTurn_issue s w ws i hu hp hd, exec_idle i { s with port := ws } hu] at h
        cases h
        by_cases hm : s.mode = gateMode i
        · exact .accepted w ws i hu hp hd hm (issue_accepted i _ hm)
        · exact .gated w ws i hu hp hd hm (issue_refused i _ hm)
  · cases hd : decode s.cw with
    | error c =>
      simp only [blockTurn, hd] at h
      cases h
    | ok i =>
      rw [blockTurn_busy s i hu hd] at h
      exact .seq i hu hd (exec_cases i s t hu h)

/-- What a step can do: one turn, taken on the state with the turn removed from the schedule. -/
theorem step_cases (s t : State) (h : step s = .next t) :
    (∃ a, nextTurn s = .core a ∧ t = coreStep a s.popTurn) ∨
    (nextTurn s = .block ∧ BlockCase s.popTurn t) := by
  cases hn : nextTurn s with
  | core a =>
    rw [step_core s a hn] at h
    cases h
    exact .inl ⟨a, rfl, rfl⟩
  | block =>
    rw [step_block s hn] at h
    exact .inr ⟨rfl, blockTurn_cases _ _ h⟩

end Sys2Proof.Machine
end

