-- ==== Sys2Proof/Laws/Safety.lean ====
section
/-! SUPPORT. Small lemmas of the definitions of Safety.lean: the part of each label, by rewriting. -/

namespace Sys2Proof.Machine

@[simp] theorem phase_idle : Upc.phase Upc.idle = .idle := rfl
@[simp] theorem phase_i0 : Upc.phase Upc.i0 = .initFirst := rfl
@[simp] theorem phase_i1 (p : Profile) : Upc.phase (Upc.i1 p) = .initRest := rfl
@[simp] theorem phase_i2 (p : Profile) : Upc.phase (Upc.i2 p) = .initRest := rfl
@[simp] theorem phase_i3 (p : Profile) : Upc.phase (Upc.i3 p) = .initRest := rfl
@[simp] theorem phase_i4a : Upc.phase Upc.i4a = .initRest := rfl
@[simp] theorem phase_i4b : Upc.phase Upc.i4b = .initRest := rfl
@[simp] theorem phase_i4c : Upc.phase Upc.i4c = .initRest := rfl
@[simp] theorem phase_i4d : Upc.phase Upc.i4d = .initRest := rfl
@[simp] theorem phase_i4e : Upc.phase Upc.i4e = .initRest := rfl
@[simp] theorem phase_i5 : Upc.phase Upc.i5 = .initRest := rfl
@[simp] theorem phase_i6 : Upc.phase Upc.i6 = .initRest := rfl
@[simp] theorem phase_i7 : Upc.phase Upc.i7 = .initRest := rfl
@[simp] theorem phase_a0 : Upc.phase Upc.a0 = .allocFirst := rfl
@[simp] theorem phase_a1 : Upc.phase Upc.a1 = .allocFirst := rfl
@[simp] theorem phase_a2 : Upc.phase Upc.a2 = .bracket := rfl
@[simp] theorem phase_a3a (b : BitVec 5) (s : BitVec 2) (h : Half) : Upc.phase (Upc.a3a b s h) = .bracket := rfl
@[simp] theorem phase_a3b (b : BitVec 5) (h : Half) : Upc.phase (Upc.a3b b h) = .bracket := rfl
@[simp] theorem phase_a3c (b : BitVec 5) (h : Half) : Upc.phase (Upc.a3c b h) = .bracket := rfl
@[simp] theorem phase_a3d (b : BitVec 5) (h : Half) : Upc.phase (Upc.a3d b h) = .bracket := rfl
@[simp] theorem phase_a3e (b : BitVec 5) : Upc.phase (Upc.a3e b) = .bracket := rfl
@[simp] theorem phase_a4 : Upc.phase Upc.a4 = .bracket := rfl
@[simp] theorem phase_a5 : Upc.phase Upc.a5 = .bracket := rfl
@[simp] theorem phase_t1 : Upc.phase Upc.t1 = .tx := rfl
@[simp] theorem phase_t2 : Upc.phase Upc.t2 = .tx := rfl
@[simp] theorem phase_t3 : Upc.phase Upc.t3 = .tx := rfl
@[simp] theorem phase_t4 : Upc.phase Upc.t4 = .tx := rfl
@[simp] theorem phase_t5 : Upc.phase Upc.t5 = .tx := rfl
@[simp] theorem phase_t6 : Upc.phase Upc.t6 = .tx := rfl
@[simp] theorem phase_v1 : Upc.phase Upc.v1 = .avail := rfl
@[simp] theorem phase_r1 : Upc.phase Upc.r1 = .rx := rfl
@[simp] theorem phase_r2 (w : Word) : Upc.phase (Upc.r2 w) = .rx := rfl
@[simp] theorem phase_r3 (w : Word) (x : Word) : Upc.phase (Upc.r3 w x) = .rx := rfl
@[simp] theorem phase_r4 (w : Word) (x : Word) (y : Word) : Upc.phase (Upc.r4 w x y) = .rx := rfl
@[simp] theorem phase_r5 (w : Word) (x : Word) (y : Word) (z : Word) : Upc.phase (Upc.r5 w x y z) = .rx := rfl

/-- Every label of the micro-programs belongs to one command only, so the latch says which. -/
theorem belongs_of_latch {s : State} {i : Instr} (h : latchFits s = true) (hu : s.upc ≠ .idle)
    (hd : decode s.cw = .ok i) : s.upc.belongsTo i = true := by
  simp only [latchFits, hd] at h
  simpa [hu] using h

/-- A busy block has a legal word in its latch. -/
theorem latched_command {s : State} (h : latchFits s = true) (hu : s.upc ≠ .idle) :
    ∃ i, decode s.cw = .ok i := by
  cases hd : decode s.cw with
  | ok i => exact ⟨i, rfl⟩
  | error c =>
    simp only [latchFits, hd] at h
    exact absurd (by simpa using h) hu

end Sys2Proof.Machine
end

