-- ==== Sys2Proof/Laws/Run.lean ====
section
/-! SUPPORT. Runs of several steps: how one step, and one part, of a run is taken off it. -/

namespace Sys2Proof.Machine

theorem runSteps_zero (s : State) : runSteps 0 s = .next s := rfl

theorem runSteps_succ {s t : State} (n : Nat) (h : step s = .next t) : runSteps (n + 1) s = runSteps n t := by
  simp only [runSteps, h]

/-- A run is the composition of its parts. -/
theorem runSteps_add {s t : State} (m n : Nat) (h : runSteps m s = .next t) :
    runSteps (m + n) s = runSteps n t := by
  induction m generalizing s with
  | zero =>
    cases h
    rw [Nat.zero_add]
  | succ m ih =>
    simp only [runSteps] at h
    cases hs : step s with
    | next u =>
      rw [hs] at h
      rw [Nat.succ_add, runSteps_succ _ hs]
      exact ih h
    | fault r => simp [hs] at h
    | refused r => simp [hs] at h

/-- With the schedule exhausted a turn takes nothing off it. -/
theorem popTurn_of_nil {s : State} (h : s.sched = []) : s.popTurn = s := by
  cases s
  cases h
  rfl

theorem nextTurn_nil {s : State} (h : s.sched = []) : nextTurn s = .block := by
  simp only [nextTurn, h]

theorem nextTurn_cons {s : State} {t : Turn} {ts : List Turn} (h : s.sched = t :: ts) : nextTurn s = t := by
  simp only [nextTurn, h]

theorem popTurn_cons {s : State} {t : Turn} {ts : List Turn} (h : s.sched = t :: ts) :
    s.popTurn = { s with sched := ts } := by
  simp only [State.popTurn, h, List.tail_cons]

/-- A busy block takes its next micro-step. -/
theorem step_seq {s : State} {i : Instr} (hn : nextTurn s = .block) (hu : s.upc ≠ .idle)
    (hd : decode s.cw = .ok i) : step s = exec i s.popTurn := by
  rw [step_block s hn]
  exact blockTurn_busy s.popTurn i hu hd

/-- An idle block issues the next word. -/
theorem step_issue {s : State} {w : CmdWord} {ws : List CmdWord} {i : Instr} (hn : nextTurn s = .block)
    (hu : s.upc = .idle) (hp : s.port = w :: ws) (hd : decode w = .ok i) :
    step s = .next (issue i { s.popTurn with port := ws }) := by
  rw [step_block s hn, blockTurn_issue s.popTurn w ws i hu hp hd]
  exact exec_idle i _ hu

end Sys2Proof.Machine
end

