-- ==== Sys2Proof/Laws/Invariant.lean ====
section
/-! SUPPORT. Each part of the invariant of Safety.lean under one step of SEQ: one lemma per part, by cases on
`SeqStep`. -/

namespace Sys2Proof.Machine

/-! ## Masked words -/

/-- A word stays within a mask when another word within the mask is merged in. -/
theorem or_within {x c m : Word} (hx : x &&& m = x) (hc : c &&& m = c) : (x ||| c) &&& m = x ||| c := by
  have h : (x ||| c) &&& m = (x &&& m) ||| (c &&& m) := by
    apply word_ext
    intro k _
    simp only [BitVec.getLsbD_and, BitVec.getLsbD_or, Bool.and_or_distrib_right]
  rw [h, hx, hc]

/-- A word stays within a mask when bits are cleared. -/
theorem and_within {x m : Word} (c : Word) (hx : x &&& m = x) : (x &&& c) &&& m = x &&& c := by
  rw [BitVec.and_assoc, BitVec.and_comm c, ← BitVec.and_assoc, hx]

/-- One bank's bit is within the mask of the per-bank registers. -/
theorem bankBit_within (b : Nat) (hb : b < 28) : (1#32 <<< b) &&& 0x0FFFFFFF#32 = 1#32 <<< b := by
  revert b
  decide

/-- The bits of a per-bank register after one bank's bit is set. -/
theorem bit_set (x : Word) (b k : Nat) (hb : b < 28) (hx : x &&& 0x0FFFFFFF#32 = x) :
    ((x &&& 0x0FFFFFFF#32) ||| (1#32 <<< b)).getLsbD k = (x.getLsbD k || decide (k = b)) := by
  rw [hx]
  simp only [BitVec.getLsbD_or, BitVec.getLsbD_shiftLeft, BitVec.getLsbD_one]
  by_cases h1 : k < b <;> by_cases h2 : k = b <;> by_cases h3 : k - b = 0 <;> simp [h1, h2, h3] <;> omega

/-! ## The operands that a latched word carries -/

theorem argOf_latched {w : CmdWord} {sel : Byte} (h : decode w = .ok (.init sel)) : argOf w = sel := by
  simp only [decode, decodeFor] at h
  repeat' split at h
  all_goals simp_all

theorem idOf_latched {w : CmdWord} {id : Ident} (h : decode w = .ok (.alloc id)) : idOf w = id := by
  simp only [decode, decodeFor] at h
  repeat' split at h
  all_goals simp_all

/-! ## The parts of the invariant -/

section
variable {i : Instr} {s t : State}

theorem modeFits_kept (h : modeFits s.upc s.mode = true) (hs : SeqStep i s t) :
    modeFits t.upc t.mode = true := by
  cases hs <;> simp_all [modeFits]

theorem latchFits_kept (hd : decode s.cw = .ok i) (hs : SeqStep i s t) : latchFits t = true := by
  cases hs <;> simp_all [latchFits, Upc.belongsTo, Upc.ofInit, Upc.ofAlloc, Upc.ofTx]

theorem scratchFits_kept (hd : decode s.cw = .ok i) (h : scratchFits s = true) (hs : SeqStep i s t) :
    scratchFits t = true := by
  cases hs <;> simp only [scratchFits, ‹s.upc = _›] at h ⊢ <;>
    first
      | exact h
      | (have := argOf_latched hd; simp_all)
      | (have := idOf_latched hd; simp_all)

theorem cursorFits_kept (h : cursorFits s.upc s.cursor = true) (hs : SeqStep i s t) :
    cursorFits t.upc t.cursor = true := by
  cases hs <;> simp_all [cursorFits]
  all_goals try bv_omega

theorem pollFits_kept (h : pollFits s.upc s.poll = true) (hs : SeqStep i s t) :
    pollFits t.upc t.poll = true := by
  cases hs <;> simp_all [pollFits]
  all_goals try bv_omega
  rename_i h
  simp [Config.txPollBound] at h
  bv_omega

theorem coreFits_kept (hm : modeFits s.upc s.mode = true) (h : coreFits s = true) (hs : SeqStep i s t) :
    coreFits t = true := by
  cases hs <;> simp only [coreFits, modeFits, ‹s.upc = _›] at h hm ⊢ <;> simp_all [State.inrq]

theorem resetFits_kept (hm : modeFits s.upc s.mode = true) (h : resetFits s = true) (hs : SeqStep i s t) :
    resetFits t = true := by
  cases hs <;> simp only [resetFits, modeFits, ‹s.upc = _›] at h hm ⊢ <;> simp_all

theorem quietFits_kept (hm : modeFits s.upc s.mode = true) (hc : coreFits s = true)
    (h : quietFits s = true) (hs : SeqStep i s t) : quietFits t = true := by
  cases hs <;> simp only [quietFits, coreFits, modeFits, ‹s.upc = _›] at h hm hc ⊢ <;>
    simp_all [State.txrq]

theorem finitFits_kept (h : finitFits s = true) (hs : SeqStep i s t) : finitFits t = true := by
  cases hs <;> simp_all [finitFits, State.finit, Upc.insideBracket]

theorem maskMode_kept (h : s.fmode = 0) (hs : SeqStep i s t) : t.fmode = 0 := by
  cases hs <;> simp_all

theorem fifoLength_kept (h : s.fifo.length ≤ 2) (hs : SeqStep i s t) : t.fifo.length ≤ 2 := by
  cases hs <;> simp_all
  omega

theorem reservedFits_kept (h : reservedFits s = true) (hs : SeqStep i s t) : reservedFits t = true := by
  simp only [reservedFits, Bool.and_eq_true, beq_iff_eq, definedBits] at h ⊢
  obtain ⟨⟨⟨⟨⟨⟨⟨hctl, hbtr⟩, htxid⟩, htxdt⟩, hfctl⟩, hfmode⟩, hfscale⟩, hfact⟩ := h
  cases hs
  case i1 =>
    exact ⟨⟨⟨⟨⟨⟨⟨or_within (and_masked _ _) rfl, hbtr⟩, htxid⟩, htxdt⟩, hfctl⟩, hfmode⟩, hfscale⟩, hfact⟩
  case i3 =>
    exact ⟨⟨⟨⟨⟨⟨⟨hctl, btrVal_masked _⟩, htxid⟩, htxdt⟩, hfctl⟩, hfmode⟩, hfscale⟩, hfact⟩
  case i4a =>
    exact ⟨⟨⟨⟨⟨⟨⟨hctl, hbtr⟩, htxid⟩, htxdt⟩, hfctl⟩, hfmode⟩, or_within (and_masked _ _) rfl⟩, hfact⟩
  case i4b =>
    exact ⟨⟨⟨⟨⟨⟨⟨hctl, hbtr⟩, htxid⟩, htxdt⟩, hfctl⟩, and_within _ (and_masked _ _)⟩, hfscale⟩, hfact⟩
  case i4e =>
    exact ⟨⟨⟨⟨⟨⟨⟨hctl, hbtr⟩, htxid⟩, htxdt⟩, hfctl⟩, hfmode⟩, hfscale⟩, or_within (and_masked _ _) rfl⟩
  case i5 =>
    exact ⟨⟨⟨⟨⟨⟨⟨and_within _ (and_masked _ _), hbtr⟩, htxid⟩, htxdt⟩, hfctl⟩, hfmode⟩, hfscale⟩, hfact⟩
  case a1 =>
    exact ⟨⟨⟨⟨⟨⟨⟨hctl, hbtr⟩, htxid⟩, htxdt⟩, or_within (and_masked _ _) rfl⟩, hfmode⟩, hfscale⟩, hfact⟩
  case a3slot0 =>
    exact ⟨⟨⟨⟨⟨⟨⟨hctl, hbtr⟩, htxid⟩, htxdt⟩, hfctl⟩, and_within _ (and_masked _ _)⟩, hfscale⟩, hfact⟩
  case a3b =>
    exact ⟨⟨⟨⟨⟨⟨⟨hctl, hbtr⟩, htxid⟩, htxdt⟩, hfctl⟩, hfmode⟩, and_within _ (and_masked _ _)⟩, hfact⟩
  case a3e =>
    exact ⟨⟨⟨⟨⟨⟨⟨hctl, hbtr⟩, htxid⟩, htxdt⟩, hfctl⟩, hfmode⟩, hfscale⟩, or_within (and_masked _ _) (bankBit_within _ ‹_ < 28›)⟩
  case a3eNoBank =>
    exact ⟨⟨⟨⟨⟨⟨⟨hctl, hbtr⟩, htxid⟩, htxdt⟩, hfctl⟩, hfmode⟩, hfscale⟩, and_masked _ _⟩
  case a5 =>
    exact ⟨⟨⟨⟨⟨⟨⟨hctl, hbtr⟩, htxid⟩, htxdt⟩, and_within _ (and_masked _ _)⟩, hfmode⟩, hfscale⟩, hfact⟩
  case t1free =>
    exact ⟨⟨⟨⟨⟨⟨⟨hctl, hbtr⟩, txidVal_defined _⟩, htxdt⟩, hfctl⟩, hfmode⟩, hfscale⟩, hfact⟩
  case t2free =>
    exact ⟨⟨⟨⟨⟨⟨⟨hctl, hbtr⟩, htxid⟩, dlcWord_masked _⟩, hfctl⟩, hfmode⟩, hfscale⟩, hfact⟩
  case t5free =>
    exact ⟨⟨⟨⟨⟨⟨⟨hctl, hbtr⟩, or_within (and_masked _ _) rfl⟩, htxdt⟩, hfctl⟩, hfmode⟩, hfscale⟩, hfact⟩
  case t1race v _ _ hv =>
    have hv' : v &&& 0xFFE00001 = v := by
      rcases hv with rfl | rfl
      · exact htxid
      · exact txidVal_defined _
    exact ⟨⟨⟨⟨⟨⟨⟨hctl, hbtr⟩, hv'⟩, htxdt⟩, hfctl⟩, hfmode⟩, hfscale⟩, hfact⟩
  case t2race v _ _ hv =>
    have hv' : v &&& 0x0000000F = v := by
      rcases hv with rfl | rfl
      · exact htxdt
      · exact dlcWord_masked _
    exact ⟨⟨⟨⟨⟨⟨⟨hctl, hbtr⟩, htxid⟩, hv'⟩, hfctl⟩, hfmode⟩, hfscale⟩, hfact⟩
  case t5race v _ _ hv =>
    have hv' : v &&& 0xFFE00001 = v := by
      rcases hv with rfl | rfl
      · exact htxid
      · exact or_within (and_masked _ _) rfl
    exact ⟨⟨⟨⟨⟨⟨⟨hctl, hbtr⟩, hv'⟩, htxdt⟩, hfctl⟩, hfmode⟩, hfscale⟩, hfact⟩
  all_goals exact ⟨⟨⟨⟨⟨⟨⟨hctl, hbtr⟩, htxid⟩, htxdt⟩, hfctl⟩, hfmode⟩, hfscale⟩, hfact⟩

theorem factFits_kept (hr : s.fact &&& 0x0FFFFFFF#32 = s.fact) (hc : cursorFits s.upc s.cursor = true)
    (hm : modeFits s.upc s.mode = true) (hscr : scratchFits s = true) (h : FactFits s)
    (hs : SeqStep i s t) : FactFits t := by
  have hbank := bankOf_toNat s.cursor
  have hslot := slotOf_toNat s.cursor
  cases hs <;>
    simp only [FactFits, countedSlots, DefaultInstalled, scratchFits, ‹s.upc = _›] at h hscr ⊢
  all_goals try exact h
  all_goals
    intro b
    have hb := h b
    have hlt := b.isLt
    simp [modeFits, cursorFits, ‹s.upc = _›] at hc hm
  case i4e =>
    rw [bit_set _ _ _ (by omega) hr]
    simp at hb
    simp [hc, hm, hb]
  case a3e h2 h1 =>
    simp at hscr
    obtain ⟨hbk, hz⟩ := hscr
    subst hbk
    rw [hz] at hslot
    rw [bit_set _ _ _ h2 hr, hbank hc, Bool.or_eq_true, hb]
    simp [hm]
    simp at hslot
    omega
  case a3eNoBank h2 h1 =>
    simp at hscr
    obtain ⟨hbk, hz⟩ := hscr
    subst hbk
    rw [hbank hc] at h2
    omega
  case a4 =>
    rw [hb, show (s.cursor + 1).toNat = s.cursor.toNat + 1 by bv_omega]
  case a3slot1 | a3slot2 | a3slot3 =>
    simp at hscr
    rw [← hscr.1.2] at hslot
    simp at hslot
    simp [hb, hm]
    omega
  all_goals simp_all

theorem scaleFits_kept (hu : resetFits s = true) (hc : cursorFits s.upc s.cursor = true)
    (hscr : scratchFits s = true) (h : ScaleFits s) (hs : SeqStep i s t) : ScaleFits t := by
  have hbank := bankOf_toNat s.cursor
  have hslot := slotOf_toNat s.cursor
  cases hs <;>
    simp only [ScaleFits, BankZeroStarted, scratchFits, resetFits, ‹s.upc = _›] at h hscr hu ⊢
  all_goals simp [cursorFits, ‹s.upc = _›] at hc
  all_goals try (simp_all; done)
  all_goals simp at h hu hscr ⊢
  case a3b =>
    rcases h with h | ⟨h, h0⟩
    · simp [h]
    · rw [hscr.1.1, hbank hc, h, h0]
      decide
  all_goals
    rcases h with h | h
    · exact h
    · rw [h.2] at hscr
      exact absurd hscr.1.2 (by decide)

end

end Sys2Proof.Machine
end

