-- ==== Sys2Proof/Laws/PerInstr.lean ====
section
/-! SUPPORT. Facts stated once for every command as syntax, one lemma per constructor. -/

namespace Sys2Proof.Laws.OpcodeByte

/-- The opcodes of 30_encoding.md R102. -/
def opcode : Instr → Byte
  | .init _ => 0x01
  | .alloc _ => 0x02
  | .tx _ _ _ => 0x03
  | .avail => 0x04
  | .rx => 0x05

/-- The word of a command carries the command's opcode in bits 7:0 and zero in bits 31:27. -/
def Statement (i : Instr) : Prop := opcOf (encode i) = opcode i ∧ (encode i).extractLsb' 27 5 = 0

/-- Bits 31:27 of every laid out word are 0 (30_encoding.md R100). -/
theorem reserved_zero (data : BitVec 64) (id : Ident) (arg opc : Byte) :
    (wordOfFields data id arg opc).extractLsb' 27 5 = 0 := by
  apply word_ext
  intro k hk
  rw [BitVec.getLsbD_extractLsb', wordOfFields_bit, if_neg (by omega), if_neg (by omega),
    if_neg (by omega), if_pos (by omega)]
  simp

theorem init (sel : Byte) : Statement (.init sel) := ⟨opcOf_word _ _ _ _, reserved_zero _ _ _ _⟩
theorem alloc (id : Ident) : Statement (.alloc id) := ⟨opcOf_word _ _ _ _, reserved_zero _ _ _ _⟩
theorem tx (id : Ident) (len : Byte) (data : Payload) : Statement (.tx id len data) :=
  ⟨opcOf_word _ _ _ _, reserved_zero _ _ _ _⟩
theorem avail : Statement .avail := ⟨opcOf_word _ _ _ _, reserved_zero _ _ _ _⟩
theorem rx : Statement .rx := ⟨opcOf_word _ _ _ _, reserved_zero _ _ _ _⟩

end Sys2Proof.Laws.OpcodeByte
end

