-- ==== Sys2Proof/Tests/Slice0.lean ====
section
/-! SUPPORT. Tests on small states with expected values from spec/95_test_vectors.md, and for every obligation with
hypotheses a theorem that shows values meeting them. -/

namespace Sys2Proof.Machine.Tests

/-! ## Small states -/

/-- `S1` of spec/95_test_vectors.md: after `INIT 0` with the illustrative profile. -/
def s1 : State :=
  { State.reset with
    mode := .normal, coreMode := .normal, btr := 0x001C0005, fscale := 1, fact := 1 }

/-- `S1` at a label. -/
def atLabel (u : Upc) : State := { s1 with upc := u }

/-- Inside INIT, CORE being in mode `m`. -/
def inInit (u : Upc) (m : CoreMode) : State :=
  { State.reset with mode := .initializing, upc := u, coreMode := m, ctl := 1 }

/-- The payload AA BB CC DD EE FF 11 22. -/
def data : Payload := ⟨0xAA, 0xBB, 0xCC, 0xDD, 0xEE, 0xFF, 0x11, 0x22⟩

/-- A received frame. -/
def frame : Frame := ⟨0x555, 3, ⟨0xDE, 0xAD, 0xBE, 0, 0, 0, 0, 0⟩⟩

/-- A question about the next state, false of a stop. -/
def next? (o : Host.Outcome State Fault Refusal) (p : State → Bool) : Bool :=
  match o with
  | .next t => p t
  | .fault _ => false
  | .refused _ => false

/-! ## WellFormed and Decode (95_test_vectors.md 2.1) -/

/-- The one check of WellFormed: a selector at `NBITRATES` = 3 is refused, the one below is not. -/
theorem test_wellformed_selector :
    (Instr.init 3).wellFormedFor 2 = false ∧ (Instr.init 2).wellFormedFor 2 = true ∧
    (Instr.init 255).wellFormedFor 2 = false ∧ (Instr.init 0).wellFormedFor 0 = true := by decide

theorem test_decode_init :
    decodeFor 2 0x000000000000000000000201#96 = .ok (.init 2) ∧
    decodeFor 2 0x000000000000000000000301#96 = .error .selector ∧
    decodeFor 2 0x000000000000000000010001#96 = .error .mustBeZero := by decide

theorem test_decode_alloc :
    decode 0x000000000000000007FF0002#96 = .ok (.alloc 0x7FF) ∧
    decode 0x000000000000000001230102#96 = .error .mustBeZero ∧
    decode 0x000000000000000009230002#96 = .error .mustBeZero ∧
    decode 0x000000010000000001230002#96 = .error .mustBeZero := by decide

theorem test_decode_tx :
    decode 0x2211FFEEDDCCBBAA07FF0F03#96 = .ok (.tx 0x7FF 15 data) ∧
    decode 0x00000000000000000000FF03#96 = .ok (.tx 0 255 ⟨0, 0, 0, 0, 0, 0, 0, 0⟩) ∧
    decode 0x080706050403020109230803#96 = .error .mustBeZero := by decide

theorem test_decode_avail_rx :
    decode 0x000000000000000000000004#96 = .ok .avail ∧
    decode 0x000000000000000000000104#96 = .error .mustBeZero ∧
    decode 0x000000000000000000000005#96 = .ok .rx := by decide

theorem test_decode_no_opcode :
    decode 0x000000000000000000000000#96 = .error .opcode ∧
    decode 0x000000000000000000000006#96 = .error .opcode ∧
    decode 0xFFFFFFFFFFFFFFFFFFFFFFFF#96 = .error .opcode := by decide

theorem test_encode_tx : encode (.tx 0x7FF 15 data) = 0x2211FFEEDDCCBBAA07FF0F03#96 := by decide

theorem test_decode_table_word : decodeTableWord 96 0x000000000000000001230002 = some (.alloc 0x123) := by
  decide

/-- A mnemonic line gives the word of the table; bytes left out are 0 (30_encoding.md R117, R118). -/
theorem test_assemble :
    assembleWords (.tx 0 255 []) = some [0x00000000000000000000FF03#96] ∧
    assembleWords (.allocn [0x123, 0x7FF]) =
      some [0x000000000000000001230002#96, 0x000000000000000007FF0002#96] ∧
    assembleWords (.alloc 2048) = none := by decide

/-! ## Operands (95_test_vectors.md 2.2) -/

theorem test_txidVal : txidVal 0x123 = 0x24600000#32 ∧ txidVal 0x7FF = 0xFFE00000#32 := by decide

theorem test_half : half 0x123 = 0x2460#16 ∧ bothHalves (half 0x555) = 0xAAA0AAA0#32 := by decide

theorem test_dlc : dlcVal 15 = 15 ∧ dlcVal 16 = 0 ∧ dlcVal 24 = 8 ∧ dlcVal 255 = 15 := by decide

theorem test_data_words : lowWord data = 0xDDCCBBAA#32 ∧ highWord data = 0x2211FFEE#32 := by decide

theorem test_btr :
    btrVal ⟨13, 2, 6⟩ = 0x001C0005#32 ∧ btrVal ⟨16, 8, 1024⟩ = 0x007F03FF#32 ∧
    btrVal ⟨6, 1, 9⟩ = 0x00050008#32 := by decide

theorem test_response :
    rxWord 0xAAA00000 0x00000003 0x00BEADDE 0x00000000 = 0x0000000000BEADDE05550301#96 ∧
    availWord 2 = 0x000000000000000000000201#96 := by decide

/-! ## One step of each command -/

/-- I4a sets FSCALE[0] (95_test_vectors.md DV-I1). -/
theorem test_init_i4a :
    next? (exec (.init 0) (inInit .i4a .init)) (fun t => t.fscale == 1 && t.upc == .i4b) = true := by decide

/-- I2 stays while INAK reads 0 and goes on when it reads 1. -/
theorem test_init_i2 :
    next? (exec (.init 0) (inInit (.i2 ⟨13, 2, 6⟩) .off)) (fun t => t.upc == .i2 ⟨13, 2, 6⟩) = true ∧
    next? (exec (.init 0) (inInit (.i2 ⟨13, 2, 6⟩) .init)) (fun t => t.upc == .i3 ⟨13, 2, 6⟩) = true := by
  decide

/-- The bank of cursor 111 is the last one, its slot the last one. -/
theorem test_alloc_a2 :
    next? (exec (.alloc 0x123) { atLabel .a2 with cursor := 111 })
      (fun t => t.upc == .a3a 27 3 0x2460) = true := by decide

/-- Slot 1 replaces the upper half and leaves the lower one. -/
theorem test_alloc_slot1 :
    next? (exec (.alloc 0x101) { atLabel (.a3a 1 1 0x2020) with
        banks := s1.banks.set 1 ⟨0x20002000, 0x20002000⟩ })
      (fun t => t.banks[(1 : Fin 28)] == ⟨0x20202000, 0x20002000⟩) = true := by decide

/-- A length of 24 stores 8. -/
theorem test_tx_t2 :
    next? (exec (.tx 0x123 24 data) (atLabel .t2)) (fun t => t.txdt == 8 && t.upc == .t3) = true := by decide

/-- The millionth failed poll ends the command with DONE = 0. -/
theorem test_tx_bound :
    next? (exec (.tx 0x123 8 data) { atLabel .t6 with txid := 0x24600001, poll := 999999 })
      (fun t => t.poll == 1000000 && t.upc == .idle && t.history == [.retire 0]) = true := by decide

theorem test_avail :
    next? (exec .avail { atLabel .v1 with fifo := [frame, frame] })
      (fun t => t.history == [.retire 0x000000000000000000000201#96]) = true := by decide

/-- R5 delivers the words read and releases one frame. -/
theorem test_rx_r5 :
    next? (exec .rx { atLabel (.r5 0xAAA00000 3 0x00BEADDE 0) with fifo := [frame, ⟨1, 1, data⟩] })
      (fun t => t.fifo == [⟨1, 1, data⟩] && t.history == [.retire 0x0000000000BEADDE05550301#96]) = true := by
  decide

theorem test_rx_r1 :
    next? (exec .rx { atLabel .r1 with fifo := [frame] }) (fun t => t.upc == .r2 0xAAA00000) = true := by decide

/-! ## Issue and CORE -/

/-- Right after reset INIT is accepted and every other command is refused (60_exceptions.md R266). -/
theorem test_first_word :
    next? (step (State.reset.withFetchWord 96 0x000000000000000000000001)) (fun t => t.upc == .i0) = true ∧
    next? (step (State.reset.withFetchWord 96 0x000000000000000001230002))
      (fun t => t.upc == .idle && responses t.history == [0x000000000000000000000080#96]) = true := by decide

/-- A frame that finds the FIFO full is lost (48_core_agent.md R238). -/
theorem test_full_fifo :
    coreStep (.rxPush frame) { s1 with fifo := [frame, frame] } = { s1 with fifo := [frame, frame] } := by
  decide

/-- The default filter accepts (48_core_agent.md R236). -/
theorem test_default_accepts : accept (filterState s1) 0x7FF = true := by decide

/-! ## Witnesses: values that meet the hypotheses of each obligation -/

/-- The invariant from its parts, those that a state literal decides together. -/
theorem stateInv_of {s : State}
    (h : (modeFits s.upc s.mode && latchFits s && scratchFits s && cursorFits s.upc s.cursor &&
      pollFits s.upc s.poll && coreFits s && resetFits s && quietFits s && finitFits s &&
      s.fmode == 0 && reservedFits s && decide (s.fifo.length ≤ 2)) = true)
    (hf : FactFits s) (hs : ScaleFits s) : StateInv s := by
  simp only [Bool.and_eq_true, beq_iff_eq, decide_eq_true_eq] at h
  obtain ⟨⟨⟨⟨⟨⟨⟨⟨⟨⟨⟨h1, h2⟩, h3⟩, h4⟩, h5⟩, h6⟩, h7⟩, h8⟩, h9⟩, h10⟩, h11⟩, h12⟩ := h
  exact ⟨h1, h2, h3, h4, h5, h6, h7, h8, h9, h10, hf, hs, h11, h12⟩

/-- At a label outside ALLOC's bracket, after INIT: only bank 0 is allocated, in 32-bit packing. -/
theorem inv_idle : StateInv s1 :=
  stateInv_of (by decide)
    (by
      intro b
      simp only [s1, State.reset, DefaultInstalled, countedSlots]
      revert b
      decide)
    (.inr ⟨rfl, rfl, id⟩)

/-- AVAIL running. -/
def availState : State := { atLabel .v1 with cw := 0x000000000000000000000004 }

theorem inv_avail : StateInv availState :=
  stateInv_of (by decide)
    (by
      intro b
      simp only [availState, atLabel, s1, State.reset, DefaultInstalled, countedSlots]
      revert b
      decide)
    (.inr ⟨rfl, rfl, id⟩)

/-- ALLOC 0x7FF at A4 with the last slot being filled: every bank allocated. -/
def lastSlot : State :=
  { atLabel .a4 with
    mode := .filterConfiguration, cw := 0x000000000000000007FF0002, cursor := 111, fctl := 1, fscale := 0
    fact := 0x0FFFFFFF }

theorem inv_lastSlot : StateInv lastSlot :=
  stateInv_of (by decide)
    (by
      intro b
      simp only [lastSlot, atLabel, s1, State.reset, DefaultInstalled, countedSlots]
      revert b
      decide)
    (.inl rfl)

/-- INIT accepted, nothing done. -/
def initStart : State := { State.reset with upc := .i0, cw := 0x000000000000000000000001 }

theorem inv_initStart : StateInv initStart :=
  stateInv_of (by decide)
    (by
      intro b
      simp only [initStart, State.reset, DefaultInstalled, countedSlots]
      revert b
      decide)
    (.inl rfl)

/-- A request left pending by a TX that gave up. -/
def pending : State := { s1 with txid := 0x24600001, poll := 1000000 }

theorem inv_pending : StateInv pending :=
  stateInv_of (by decide)
    (by
      intro b
      simp only [pending, s1, State.reset, DefaultInstalled, countedSlots]
      revert b
      decide)
    (.inr ⟨rfl, rfl, id⟩)

/-! ### Encoding and registers -/

theorem witness_DecodeOfEncodeIsTheCommand :
    (Instr.init 0).wellFormed = true ∧ (Instr.alloc 0x7FF).wellFormed = true ∧
    (Instr.tx 0 255 data).wellFormed = true ∧ Instr.avail.wellFormed = true ∧ Instr.rx.wellFormed = true :=
  ⟨rfl, rfl, rfl, rfl, rfl⟩

theorem witness_EncodeOfDecodeIsTheWord :
    decode 0x000000000000000000000001#96 = .ok (.init 0) ∧
    decode 0x000000000000000007FF0002#96 = .ok (.alloc 0x7FF) ∧
    decode 0x2211FFEEDDCCBBAA07FF0F03#96 = .ok (.tx 0x7FF 15 data) ∧
    decode 0x000000000000000000000005#96 = .ok .rx := by decide

/-- A word for each cause of 30_encoding.md R109, at the edges of the fields, and one that no cause holds of. -/
theorem witness_IllegalWordsExactly :
    opcOf 0x000000000000000000000000#96 = 0 ∧ opcOf 0x000000000000000000000006#96 = 6 ∧
    (0x000000000000000000010001#96).extractLsb' 16 80 ≠ 0 ∧
    (0x800000000000000000000001#96).extractLsb' 16 80 ≠ 0 ∧
    argOf 0x000000000000000001230102#96 ≠ 0 ∧
    (0x000000000000000009230002#96).extractLsb' 27 69 ≠ 0 ∧
    (0x080706050403020109230803#96).extractLsb' 27 5 ≠ 0 ∧
    (0x000000000000000000000104#96).extractLsb' 8 88 ≠ 0 ∧
    ¬Config.nBitrates ≤ (argOf 0x000000000000000000000001#96).toNat :=
  ⟨by decide, by decide, by decide, by decide, by decide, by decide, by decide, by decide, by
    simp [argOf, Config.nBitrates]⟩

theorem witness_TimingWordFields :
    Config.profileInRange ⟨1, 1, 1⟩ ∧ Config.profileInRange ⟨16, 8, 1024⟩ ∧
    Config.profileInRange ⟨13, 2, 6⟩ := by
  simp [Config.profileInRange]

theorem witness_RegisterMapIsOneToOne :
    regAt 0x000 = some .ctl ∧ regAt 0x240 = some (.fbR1 0) ∧ regAt 0x31C = some (.fbR2 27) ∧
    (∀ r, 0x008 ≠ regOffset r) ∧ (∀ r, 0x320 ≠ regOffset r) := by
  refine ⟨rfl, rfl, rfl, ?_, ?_⟩ <;> intro r <;> cases r <;>
    simp [regOffset, bankR1Offset, bankR2Offset, bankBytes, regBytes] <;> omega

theorem witness_ViewsOfHiddenState :
    { s1 with fifo := [frame] }.fifo = frame :: [] ∧
    { s1 with fifo := [frame, frame] }.fifo = frame :: [frame] ∧ s1.fifo = [] := ⟨rfl, rfl, rfl⟩

theorem witness_StoredRegisterReadsBack :
    s1.txrq = false ∧ Reg.txid ∉ [Reg.sts, .rxf, .rxid, .rxdt, .rxdl, .rxdh] ∧
    Reg.fbR2 27 ∉ [Reg.sts, .rxf, .rxid, .rxdt, .rxdl, .rxdh] ∧ Reg.rxf ≠ Reg.ctl ∧
    Reg.fbR1 27 ≠ Reg.fbR2 27 := by decide

/-! ### Issue and refusal -/

theorem witness_StepRunsTheDecodedCommand :
    nextTurn { s1 with port := [0x000000000000000000000004#96] } = .block ∧
    s1.upc = .idle ∧ decode 0x000000000000000000000004#96 = .ok .avail ∧
    nextTurn availState = .block ∧ availState.upc ≠ .idle ∧ decode availState.cw = .ok .avail ∧
    nextTurn s1 = .block ∧ s1.port = [] ∧
    nextTurn { s1 with sched := [.core (.rxPush frame)] } = .core (.rxPush frame) := by decide

theorem witness_IssueLatchesTheCommand :
    State.reset.upc = .idle ∧ State.reset.mode = gateMode (.init 0) ∧ s1.upc = .idle ∧
    s1.mode = gateMode (.alloc 0) ∧ s1.mode = gateMode (.tx 0 0 data) ∧ s1.mode = gateMode .avail ∧
    s1.mode = gateMode .rx := by decide

theorem witness_RefusalChangesNothing :
    State.reset.upc = .idle ∧ State.reset.mode ≠ .normal ∧ s1.upc = .idle ∧ s1.mode ≠ .uninitialized ∧
    nextTurn { s1 with port := [0#96, 5#96] } = .block ∧
    { s1 with port := [0#96, 5#96] }.port = 0#96 :: [5#96] ∧ decode 0#96 = .error .opcode := by decide

/-! ### INIT -/

theorem witness_InitRequestsInitialisation :
    initStart.upc = .i0 ∧ (inInit (.i1 ⟨13, 2, 6⟩) .off).upc = .i1 ⟨13, 2, 6⟩ ∧
    (inInit (.i1 ⟨13, 2, 6⟩) .off).coreMode ≠ .init := by decide

theorem witness_InitWaitsForAcknowledgments :
    (inInit (.i2 ⟨13, 2, 6⟩) .off).upc = .i2 ⟨13, 2, 6⟩ ∧ (inInit .i5 .init).upc = .i5 ∧
    (inInit .i5 .init).coreMode = .init ∧ (inInit .i6 .normal).upc = .i6 := by decide

theorem witness_InitProgramsTimingAndFilter :
    (inInit (.i3 ⟨16, 8, 1024⟩) .init).upc = .i3 ⟨16, 8, 1024⟩ ∧ (inInit .i4a .init).upc = .i4a ∧
    (inInit .i4b .init).upc = .i4b ∧ (inInit .i4c .init).upc = .i4c ∧ (inInit .i4d .init).upc = .i4d ∧
    (inInit .i4e .init).upc = .i4e := by decide

theorem witness_InitRetiresInNormal : (inInit .i7 .normal).upc = .i7 := rfl

/-! ### ALLOC -/

theorem witness_AllocSaturatesSilently :
    (atLabel .a0).upc = .a0 ∧ { atLabel .a0 with cursor := 112 }.cursor = 112 ∧
    { atLabel .a0 with cursor := 111 }.cursor ≠ 112 := by decide

theorem witness_AllocBracketAndCount :
    (atLabel .a1).upc = .a1 ∧ lastSlot.upc = .a4 ∧ lastSlot.cursor.toNat ≤ 111 ∧
    (atLabel .a5).upc = .a5 := by decide

theorem witness_AllocComputesBankAndSlot :
    { atLabel .a2 with cursor := 111 }.upc = .a2 ∧ { atLabel .a2 with cursor := 111 }.cursor.toNat ≤ 111 ∧
    (atLabel .a2).cursor.toNat ≤ 111 ∧ (27 : Fin 28).val = (bankOf 111).toNat ∧
    (0 : Fin 28).val = (bankOf 0).toNat := by decide

theorem witness_AllocSlotZeroStartsBank :
    (27 : BitVec 5).toNat = (27 : Fin 28).val ∧ (0 : BitVec 5).toNat = (0 : Fin 28).val ∧
    (atLabel (.a3a 27 0 0x2460)).upc = .a3a 27 0 0x2460 ∧ (atLabel (.a3b 27 0x2460)).upc = .a3b 27 0x2460 ∧
    (atLabel (.a3c 27 0x2460)).upc = .a3c 27 0x2460 ∧ (atLabel (.a3d 0 0x2460)).upc = .a3d 0 0x2460 ∧
    (atLabel (.a3e 27)).upc = .a3e 27 := by decide

theorem witness_AllocSlotsOneTwoThree :
    (27 : BitVec 5).toNat = (27 : Fin 28).val ∧ (atLabel (.a3a 27 1 0x2460)).upc = .a3a 27 1 0x2460 ∧
    (atLabel (.a3a 0 2 0xFFE0)).upc = .a3a 0 2 0xFFE0 ∧ (atLabel (.a3a 27 3 0)).upc = .a3a 27 3 0 := by decide

/-- The first and the last cursor below saturation, and one slot of each kind. -/
theorem witness_AllocWholeCommand :
    ∀ c ∈ [(0, 0), (1, 0), (2, 0), (108, 27), (111, 27)],
      let s := { s1 with cursor := BitVec.ofNat 7 c.1, port := [encode (.alloc 0x7FF)] }
      s.upc = .idle ∧ s.mode = .normal ∧ s.sched = [] ∧ s.port = encode (.alloc 0x7FF) :: [] ∧
      s.cursor.toNat < 112 ∧ s.cursor.toNat / 4 = (Fin.ofNat 28 c.2).val ∧ s.finit = false ∧
      reservedFits s = true := by decide

theorem witness_PackingLaw :
    let s := { s1 with
      cursor := 108
      port := [encode (.alloc 1), encode (.alloc 2), encode (.alloc 3), encode (.alloc 4)] }
    s.upc = .idle ∧ s.mode = .normal ∧ s.sched = [] ∧ s.cursor.toNat = 4 * (27 : Fin 28).val ∧
    s.port = encode (.alloc 1) :: encode (.alloc 2) :: encode (.alloc 3) :: encode (.alloc 4) :: [] := by
  decide

theorem witness_AllocnStopsAtSaturation :
    let s := { s1 with cursor := 111, port := (expandAllocn [1, 2]).map encode }
    s.upc = .idle ∧ s.mode = .normal ∧ s.sched = [] ∧ s.cursor.toNat ≤ 112 ∧
    s.port = (expandAllocn [1, 2]).map encode := by decide

/-! ### TX -/

theorem witness_TxLoadsMailboxAndRequests :
    s1.txrq = false ∧ (atLabel .t1).txrq = false ∧ (atLabel .t1).upc = .t1 ∧ (atLabel .t2).upc = .t2 ∧
    (atLabel .t3).upc = .t3 ∧ (atLabel .t4).upc = .t4 ∧ (atLabel .t5).upc = .t5 := by decide

theorem witness_TxPollsUpToBound :
    (atLabel .t6).upc = .t6 ∧ (atLabel .t6).txrq = false ∧
    { atLabel .t6 with txid := 1, poll := 999998 }.txrq = true ∧
    { atLabel .t6 with txid := 1, poll := 999998 }.poll.toNat + 1 < 1000000 ∧
    { atLabel .t6 with txid := 1, poll := 999999 }.poll.toNat + 1 = 1000000 := by decide

theorem witness_TxWhilePendingIsARace :
    { pending with upc := .t1 }.txrq = true ∧ { pending with upc := .t1 }.upc = .t1 ∧
    { pending with upc := .t2 }.upc = .t2 ∧ { pending with upc := .t3 }.upc = .t3 ∧
    { pending with upc := .t4 }.upc = .t4 ∧ { pending with upc := .t5 }.upc = .t5 ∧
    pending.coreMode = .normal := by decide

/-- No failed poll at all, and the most that end in service. -/
theorem witness_TxServedAfterPolls :
    ∀ k ∈ [0, 999999], k < 1000000 ∧ ∃ s : State, s.upc = .idle ∧ s.mode = .normal ∧
      s.coreMode = .normal ∧ s.txrq = false ∧ s.port = encode (.tx 0x123 8 data) :: [] ∧
      s.sched = List.replicate (6 + k) .block ++ .core .txDone :: .block :: [] := by
  intro k hk
  refine ⟨?_, { s1 with
    port := [encode (.tx 0x123 8 data)]
    sched := List.replicate (6 + k) .block ++ .core .txDone :: .block :: [] }, rfl, rfl, rfl, ?_, rfl, rfl⟩
  · simp only [List.mem_cons, List.not_mem_nil, or_false] at hk
    omega
  · exact (by decide : s1.txrq = false)

theorem witness_TxGivesUpAtBound :
    let s := { s1 with port := [encode (.tx 0x123 8 data)] }
    s.upc = .idle ∧ s.mode = .normal ∧ s.txrq = false ∧ s.sched = [] ∧
    s.port = encode (.tx 0x123 8 data) :: [] := by decide

/-! ### AVAIL and RX -/

theorem witness_AvailCountsFrames :
    availState.upc = .v1 ∧ availState.fifo.length ≤ 2 ∧
    { availState with fifo := [frame, frame] }.fifo.length ≤ 2 := by decide

theorem witness_RxReturnsOldestFrame :
    { atLabel .r1 with fifo := [frame, frame] }.fifo = frame :: [frame] ∧ (atLabel .r1).upc = .r1 ∧
    (atLabel (.r2 1)).upc = .r2 1 ∧ (atLabel (.r3 1 2)).upc = .r3 1 2 ∧
    (atLabel (.r4 1 2 3)).upc = .r4 1 2 3 ∧ (atLabel (.r5 1 2 3 4)).upc = .r5 1 2 3 4 := by decide

theorem witness_RxOnEmptyFifoReturnsDraws :
    (atLabel .r1).fifo = [] ∧ (atLabel .r1).upc = .r1 ∧ (atLabel (.r2 1)).upc = .r2 1 ∧
    (atLabel (.r3 1 2)).upc = .r3 1 2 ∧ (atLabel (.r4 1 2 3)).upc = .r4 1 2 3 ∧
    (atLabel (.r5 1 2 3 4)).upc = .r5 1 2 3 4 := by decide

theorem witness_RxWholeCommand :
    let s := { s1 with
      fifo := [frame]
      port := [encode .rx]
      sched := [.block, .block, .core (.rxPush frame), .block, .block, .block, .block] }
    s.upc = .idle ∧ s.mode = .normal ∧ s.coreMode = .normal ∧ s.fifo = [frame] ∧
    accept (filterState s) frame.id = true ∧ s.port = encode .rx :: [] ∧
    s.sched = .block :: .block :: .core (.rxPush frame) :: .block :: .block :: .block :: .block :: [] := by
  decide

theorem witness_LoopbackRoundTrip :
    let s := { s1 with
      port := [encode (.tx 0x123 8 data), encode .rx]
      sched := List.replicate 6 .block ++ .core .txDone :: .block ::
        .core (.rxPush ⟨0x123, (8 : Byte).extractLsb' 0 4, data⟩) :: List.replicate 6 .block }
    s.upc = .idle ∧ s.mode = .normal ∧ s.coreMode = .normal ∧ s.txrq = false ∧ s.fifo = [] ∧
    isDefaultFilter (filterState s) = true ∧
    s.port = encode (.tx 0x123 8 data) :: encode .rx :: [] ∧
    s.sched = List.replicate 6 .block ++ .core .txDone :: .block ::
      .core (.rxPush ⟨0x123, (8 : Byte).extractLsb' 0 4, data⟩) :: (List.replicate 6 .block ++ []) := by
  decide

/-! ### CORE -/

/-- Each step of CORE is enabled somewhere. -/
theorem witness_core_steps :
    coreEnabled .ackInit (inInit (.i2 ⟨13, 2, 6⟩) .off) = true ∧
    coreEnabled .ackNormal { inInit .i6 .init with ctl := 0 } = true ∧
    coreEnabled .txDone pending = true ∧
    coreEnabled (.rxPush frame) { s1 with fifo := [frame] } = true ∧
    { s1 with fifo := [frame, frame] }.fifo.length = 2 ∧
    State.reset.coreMode = .off ∧ State.reset.inrq = false ∧ (0x00000020#32).getLsbD 5 = true ∧
    (0x00000003#32).getLsbD 5 = false := by decide

theorem witness_AcceptanceHypotheses :
    ∃ A : FilterState → Ident → Bool, DefaultMatchAll A ∧ InactiveIgnored A ∧
      (filterState s1).fact &&& definedBits .fact = (filterState s1).fact :=
  ⟨fun _ _ => true, fun _ _ _ => rfl, fun _ _ _ _ _ => rfl, by decide⟩

theorem witness_DefaultFilterAcceptsAll :
    StateInv s1 ∧ s1.upc = .idle ∧ s1.mode = .normal ∧ s1.fscale = 1 ∧
    s1.banks[(0 : Fin 28)] = ⟨0, 0⟩ := ⟨inv_idle, rfl, rfl, rfl, by decide⟩

/-! ### The whole machine -/

/-- `StateInv` holds at reset's successor states of every kind: idle, inside INIT, inside ALLOC, a request pending. -/
theorem witness_invariants :
    StateInv s1 ∧ StateInv availState ∧ StateInv lastSlot ∧ StateInv initStart ∧ StateInv pending :=
  ⟨inv_idle, inv_avail, inv_lastSlot, inv_initStart, inv_pending⟩

/-- Steps that answer a next state: of the block, of a busy block, and of CORE. -/
theorem witness_steps :
    (∃ t, step s1 = .next t) ∧ (∃ t, step lastSlot = .next t ∧ lastSlot.upc ≠ .idle) ∧
    (∃ t, step { pending with sched := [.core .txDone] } = .next t) :=
  ⟨⟨_, rfl⟩, ⟨_, rfl, by decide⟩, ⟨_, rfl⟩⟩

theorem witness_ResponseInv_AckInv :
    ResponseInv State.reset ∧ AckInv State.reset ∧ StateInv initStart ∧ AckInv initStart :=
  ⟨⟨fun _ => rfl, fun h => absurd rfl h⟩, ⟨rfl, rfl⟩, inv_initStart, ⟨rfl, rfl⟩⟩

/-! ### Waiting, hanging, ending -/

theorem witness_InitHangsWithoutAcknowledgment :
    let s := { inInit (.i2 ⟨13, 2, 6⟩) .off with cw := 0x000000000000000000000001 }
    let u := { inInit .i6 .init with cw := 0x000000000000000000000001, ctl := 0 }
    s.sched = [] ∧ decode s.cw = .ok (.init 0) ∧ s.upc = .i2 ⟨13, 2, 6⟩ ∧ s.coreMode ≠ .init ∧
    u.sched = [] ∧ decode u.cw = .ok (.init 0) ∧ u.upc = .i6 ∧ u.coreMode = .init := by decide

theorem witness_InitWholeCommand :
    ∃ s : State, s.upc = .idle ∧ s.mode = .uninitialized ∧ s.coreMode ≠ .init ∧ reservedFits s = true ∧
      (Instr.init 0).wellFormed = true ∧ s.port = encode (.init 0) :: [] ∧
      s.sched = List.replicate (3 + 0) .block ++ .core .ackInit ::
        (List.replicate (8 + 0) .block ++ .core .ackNormal :: .block :: .block :: []) :=
  ⟨{ State.reset with
      port := [encode (.init 0)]
      sched := List.replicate (3 + 0) .block ++ .core .ackInit ::
        (List.replicate (8 + 0) .block ++ .core .ackNormal :: .block :: .block :: []) },
    rfl, rfl, by decide, by decide, rfl, rfl, rfl⟩

/-- The state that a turn leads to. -/
def after (t : Turn) (s : State) : State :=
  match takeTurn t s with
  | .next u => u
  | .fault _ => s
  | .refused _ => s

/-- The run that takes the turns `τ` from `s`. -/
def runFrom (s : State) (τ : Nat → Turn) : Nat → State
  | 0 => s
  | n + 1 => after (τ n) (runFrom s τ n)

/-- The turns of an INIT whose two requests are acknowledged in time. -/
def initTurns (n : Nat) : Turn := if n = 2 then .core .ackInit else if n = 11 then .core .ackNormal else .block

/-- An idle block with nothing to issue stays as it is. -/
theorem idle_stays {s : State} (hu : s.upc = .idle) (hp : s.port = []) : takeTurn .block s = .next s :=
  blockTurn_quiet s hu hp

theorem initRun_end (n : Nat) (h : 14 ≤ n) :
    runFrom initStart initTurns n = runFrom initStart initTurns 14 := by
  induction n with
  | zero => omega
  | succ n ih =>
    by_cases hn : n + 1 = 14
    · rw [hn]
    · have ht : initTurns n = .block := by
        simp only [initTurns]
        rw [if_neg (by omega), if_neg (by omega)]
      simp only [runFrom] at ih ⊢
      rw [ih (by omega), ht, after, idle_stays rfl rfl]

/-- A fair run of an INIT. -/
theorem witness_InitEndsUnderClockOk :
    ∃ (σ : Nat → State) (τ : Nat → Turn), IsRun σ τ ∧ SeqFair σ τ ∧ ClockOk σ τ ∧ StateInv (σ 0) ∧
      (σ 0).upc = .i0 := by
  refine ⟨runFrom initStart initTurns, initTurns, ?_, ?_, ⟨?_, ?_⟩, inv_initStart, rfl⟩
  · intro n
    by_cases h : n < 14
    · interval_cases n <;> rfl
    · have ht : initTurns n = .block := by
        simp only [initTurns]
        rw [if_neg (by omega), if_neg (by omega)]
      rw [initRun_end n (by omega), initRun_end (n + 1) (by omega), ht]
      exact idle_stays rfl rfl
  · intro n _
    refine ⟨n + 12, by omega, ?_⟩
    simp only [initTurns]
    rw [if_neg (by omega), if_neg (by omega)]
  · intro n h
    have := h (n + 14) (by omega)
    rw [initRun_end _ (by omega)] at this
    exact absurd this (by decide)
  · intro n h
    have := h (n + 14) (by omega)
    rw [initRun_end _ (by omega)] at this
    exact absurd this (by decide)

/-- A run of an AVAIL. -/
theorem witness_OtherCommandsAlwaysEnd :
    ∃ (σ : Nat → State) (τ : Nat → Turn), IsRun σ τ ∧ SeqFair σ τ ∧ StateInv (σ 0) ∧
      (σ 0).upc.ofInit = false ∧ (σ 0).upc ≠ .idle := by
  refine ⟨fun n => if n = 0 then availState else after .block availState, fun _ => .block, ?_, ?_,
    inv_avail, rfl, by decide⟩
  · intro n
    cases n with
    | zero => rfl
    | succ n => exact idle_stays rfl rfl
  · intro n _
    exact ⟨n, Nat.le_refl n, rfl⟩

/-- A run in which a pending request is cleared. -/
theorem witness_PendingRequestClearedUnderBusOk :
    ∃ (σ : Nat → State) (τ : Nat → Turn), IsRun σ τ ∧ BusOk σ τ ∧ StateInv (σ 0) ∧ (σ 0).txrq = true := by
  refine ⟨fun n => if n = 0 then pending else after (.core .txDone) pending,
    fun n => if n = 0 then .core .txDone else .block, ?_, ?_, inv_pending, by decide⟩
  · intro n
    cases n with
    | zero => rfl
    | succ n => exact idle_stays rfl rfl
  · intro n h
    have h1 : coreEnabled .txDone (after (.core .txDone) pending) = true := h (n + 1) (by omega)
    exact absurd h1 (by decide)

end Sys2Proof.Machine.Tests
end

section
/-! PROOF. The invariant of the reachable states is kept by every turn, and no turn stops inside it (10_state.md R44,
R51, 60_exceptions.md R260). One lemma for SEQ's steps, one for CORE's, one for Issue, then the turn. -/

namespace Sys2Proof.Machine

/-! ## The command that Issue latches -/

/-- The decoder answers well-formed commands only (30_encoding.md R109). -/
theorem wellFormed_of_decode {w : CmdWord} {i : Instr} (h : decode w = .ok i) : i.wellFormed = true := by
  simp only [decode, decodeFor] at h
  repeat' split at h
  all_goals cases h
  case _ hsel => exact hsel
  all_goals rfl

/-- A well-formed command is read back from its own word (30_encoding.md R110). -/
theorem decode_encode_of_wellFormed (i : Instr) (h : i.wellFormed = true) : decode (encode i) = .ok i := by
  cases i with
  | init sel =>
    have hsel : selectorLegal Config.maxSelector sel = true := h
    simp [decode, decodeFor, encode, opcOf_word, argOf_word, initRow_fits, hsel]
  | alloc id => simp [decode, decodeFor, encode, opcOf_word, idOf_word, allocRow_fits]
  | tx id len d =>
    simp [decode, decodeFor, encode, opcOf_word, argOf_word, idOf_word, dataOf_word, txRow_fits]
  | avail =>
    have hfits : availRow.fits (encode .avail) = true := by decide
    simp only [encode] at hfits
    simp [decode, decodeFor, encode, opcOf_word, hfits]
  | rx =>
    have hfits : rxRow.fits (encode .rx) = true := by decide
    simp only [encode] at hfits
    simp [decode, decodeFor, encode, opcOf_word, hfits]

/-- The word that Issue latches decodes to the command that was offered (log 16). -/
theorem decode_encode_of_decode {w : CmdWord} {i : Instr} (h : decode w = .ok i) : decode (encode i) = .ok i :=
  decode_encode_of_wellFormed i (wellFormed_of_decode h)

theorem belongsTo_firstLabel (i : Instr) : (firstLabel i).belongsTo i = true := by
  cases i <;> rfl

/-! ## What the invariant does not look at -/

/-- The invariant says nothing of the port, the schedule, the history or the count of draws. -/
theorem StateInv.of_unread {s : State} (h : StateInv s) (port : List CmdWord) (sched : List Turn)
    (history : List Event) (draws : Nat) :
    StateInv { s with port := port, sched := sched, history := history, draws := draws } :=
  ⟨h.mode, h.latch, h.scratch, h.cursor, h.poll, h.core, h.untouched, h.quiet, h.finit, h.maskMode, h.fact,
    h.scale, h.reserved, h.fifo⟩

theorem StateInv.popTurn_kept {s : State} (h : StateInv s) : StateInv s.popTurn :=
  h.of_unread s.port s.sched.tail s.history s.draws

theorem StateInv.refuse_kept {s : State} (h : StateInv s) (w : CmdWord) (ws : List CmdWord) :
    StateInv (State.refuse w { s with port := ws }) :=
  h.of_unread ws s.sched (State.refuse w s).history s.draws

/-! ## SEQ -/

/-- Every step of the command in the latch keeps the invariant. -/
theorem StateInv.seqStep_kept {i : Instr} {s t : State} (h : StateInv s) (hd : decode s.cw = .ok i)
    (hs : SeqStep i s t) : StateInv t := by
  have hfact : s.fact &&& 0x0FFFFFFF#32 = s.fact := by
    have hr := h.reserved
    simp only [reservedFits, Bool.and_eq_true, beq_iff_eq] at hr
    exact hr.2
  exact
    { mode := modeFits_kept h.mode hs
      latch := latchFits_kept hd hs
      scratch := scratchFits_kept hd h.scratch hs
      cursor := cursorFits_kept h.cursor hs
      poll := pollFits_kept h.poll hs
      core := coreFits_kept h.mode h.core hs
      untouched := resetFits_kept h.mode h.untouched hs
      quiet := quietFits_kept h.mode h.core h.quiet hs
      finit := finitFits_kept h.finit hs
      maskMode := maskMode_kept h.maskMode hs
      fact := factFits_kept hfact h.cursor h.mode h.scratch h.fact hs
      scale := scaleFits_kept h.untouched h.cursor h.scratch h.scale hs
      reserved := reservedFits_kept h.reserved hs
      fifo := fifoLength_kept h.fifo hs }

/-! ## HOST -/

/-- MODE is Uninitialized only before INIT's first step. -/
theorem StateInv.upc_of_uninitialized {s : State} (h : StateInv s) (hm : s.mode = .uninitialized) :
    s.upc = .idle ∨ s.upc = .i0 := by
  have hfit := h.mode
  cases hu : s.upc <;> simp_all [modeFits]

/-- In Uninitialized CORE is off and nothing has been written (10_state.md R44 (e)). -/
theorem StateInv.untouched_of_uninitialized {s : State} (h : StateInv s) (hm : s.mode = .uninitialized) :
    s.cursor = 0 ∧ s.inrq = false ∧ s.coreMode = .off ∧ s.btr = 0 ∧ s.txid = 0 ∧ s.txdt = 0 ∧ s.txdl = 0 ∧
      s.txdh = 0 ∧ s.fscale = 0 := by
  have hcur := h.cursor
  have hcore := h.core
  have hreset := h.untouched
  rcases h.upc_of_uninitialized hm with hu | hu <;>
    simp [cursorFits, coreFits, resetFits, hu, hm] at hcur hcore hreset <;>
    simp [hcur, hcore, hreset]

/-- In Normal CORE is in Normal too, with no request for another mode (41_mode_control.md R160). -/
theorem StateInv.core_of_normal {s : State} (h : StateInv s) (hm : s.mode = .normal) :
    s.coreMode = .normal ∧ s.inrq = false := by
  have hfit := h.mode
  have hcore := h.core
  cases hu : s.upc <;> simp_all [modeFits, coreFits]

/-- Issue of a command in the mode its gate asks for keeps the invariant. -/
theorem StateInv.issue_kept {i : Instr} {s : State} (h : StateInv s) (hu : s.upc = .idle)
    (hm : s.mode = gateMode i) (hd : decode (encode i) = .ok i) :
    StateInv { s with cw := encode i, upc := firstLabel i } := by
  have hcur : s.cursor.toNat ≤ 112 := by simpa [cursorFits, hu] using h.cursor
  have hpoll : s.poll.toNat ≤ 1000000 := by simpa [pollFits, hu] using h.poll
  have hfin : (s.finit == Upc.idle.insideBracket) = true := by simpa only [finitFits, hu] using h.finit
  have hfact := h.fact
  have hscale := h.scale
  simp only [FactFits, ScaleFits, countedSlots, DefaultInstalled, BankZeroStarted, hu] at hfact hscale
  cases i with
  | init sel =>
    have hm : s.mode = .uninitialized := hm
    obtain ⟨hcur0, hinrq, hcore, hbtr, htxid, htxdt, htxdl, htxdh, hfs⟩ := h.untouched_of_uninitialized hm
    exact
      { h with
        mode := by simp [modeFits, firstLabel, hm]
        latch := by simp [latchFits, hd, belongsTo_firstLabel]
        scratch := rfl
        cursor := by simp [cursorFits, firstLabel, hcur0]
        poll := by simp [pollFits, firstLabel, hpoll]
        core := by simpa [coreFits, firstLabel, State.inrq, hcore] using hinrq
        untouched := by simp [resetFits, firstLabel, hbtr, htxid, htxdt, htxdl, htxdh, hfs]
        finit := hfin
        fact := by simpa [FactFits, DefaultInstalled, firstLabel, hm] using hfact
        scale := hscale }
  | _ =>
    have hm : s.mode = .normal := hm
    obtain ⟨hcore, hinrq⟩ := h.core_of_normal hm
    exact
      { h with
        mode := by simp [modeFits, firstLabel, hm]
        latch := by simp [latchFits, hd, belongsTo_firstLabel]
        scratch := rfl
        cursor := by simp [cursorFits, firstLabel, hcur]
        poll := by simp [pollFits, firstLabel, hpoll]
        core := by simpa [coreFits, firstLabel, State.inrq, hm, hcore] using hinrq
        untouched := rfl
        finit := hfin
        fact := hfact
        scale := hscale }

/-! ## CORE -/

/-- CORE can acknowledge a request for initialisation mode only while INIT waits at I2 (48_core_agent.md R231). -/
theorem StateInv.upc_of_ackInit {s : State} (h : StateInv s) (ha : coreEnabled .ackInit s = true) :
    (∃ p, s.upc = .i2 p) ∧ s.coreMode = .off := by
  obtain ⟨hinrq, hnot⟩ := (ackInit_enabled s).mp ha
  have hc := h.core
  cases hu : s.upc <;> simp_all [coreFits]

/-- CORE can acknowledge a request for normal mode only while INIT waits at I6 (48_core_agent.md R232). -/
theorem StateInv.upc_of_ackNormal {s : State} (h : StateInv s) (ha : coreEnabled .ackNormal s = true) :
    s.upc = .i6 := by
  obtain ⟨hinrq, hinit⟩ := (ackNormal_enabled s).mp ha
  have hc := h.core
  cases hu : s.upc <;> simp_all [coreFits]

theorem StateInv.ackInit_kept {s : State} (h : StateInv s) (ha : coreEnabled .ackInit s = true) :
    StateInv (coreEffect .ackInit s) := by
  obtain ⟨⟨p, hu⟩, hoff⟩ := h.upc_of_ackInit ha
  have hinrq := ((ackInit_enabled s).mp ha).1
  have hquiet := h.quiet
  simp only [quietFits, hoff] at hquiet
  exact
    { h with
      core := by simpa [coreFits, coreEffect, hu, State.inrq] using hinrq
      quiet := hquiet }

theorem StateInv.ackNormal_kept {s : State} (h : StateInv s) (ha : coreEnabled .ackNormal s = true) :
    StateInv (coreEffect .ackNormal s) := by
  have hu := h.upc_of_ackNormal ha
  have hinrq := ((ackNormal_enabled s).mp ha).1
  exact
    { h with
      core := by simpa [coreFits, coreEffect, hu, State.inrq] using hinrq
      quiet := rfl }

/-- Clearing bits of TXID leaves a register that INIT has not reached at its reset value. -/
theorem resetFits_maskTxid {s : State} (m : Word) (h : resetFits s = true) :
    resetFits { s with txid := s.txid &&& m } = true := by
  cases hu : s.upc
  case idle => by_cases hm : s.mode = .uninitialized <;> simp_all [resetFits]
  all_goals simp_all [resetFits]

theorem StateInv.txDone_kept {s : State} (h : StateInv s) (ha : coreEnabled .txDone s = true) :
    StateInv (coreEffect .txDone s) := by
  have hnormal := ((txDone_enabled s).mp ha).1
  have hreserved := h.reserved
  simp only [reservedFits, Bool.and_eq_true, beq_iff_eq] at hreserved
  obtain ⟨⟨⟨⟨⟨⟨⟨hctl, hbtr⟩, htxid⟩, htxdt⟩, hfctl⟩, hfmode⟩, hfscale⟩, hfact⟩ := hreserved
  exact
    { h with
      untouched := resetFits_maskTxid _ h.untouched
      quiet := by simp [quietFits, coreEffect, hnormal]
      reserved := by
        simp only [reservedFits, Bool.and_eq_true, beq_iff_eq]
        exact ⟨⟨⟨⟨⟨⟨⟨hctl, hbtr⟩, and_within _ htxid⟩, htxdt⟩, hfctl⟩, hfmode⟩, hfscale⟩, hfact⟩ }

theorem StateInv.rxPush_kept {s : State} {f : Frame} (h : StateInv s) (ha : coreEnabled (.rxPush f) s = true) :
    StateInv (coreEffect (.rxPush f) s) := by
  obtain ⟨hnormal, hroom, -⟩ := (rxPush_enabled f s).mp ha
  exact
    { h with
      quiet := by simp [quietFits, coreEffect, hnormal]
      fifo := by
        simp only [coreEffect, record_fifo, List.length_append, List.length_singleton]
        exact hroom }

/-- Every turn of CORE keeps the invariant. -/
theorem StateInv.coreStep_kept {s : State} (h : StateInv s) (a : CoreAct) : StateInv (coreStep a s) := by
  cases ha : coreEnabled a s with
  | false => rwa [coreStep_not_enabled a s ha]
  | true =>
    rw [coreStep_enabled a s ha]
    cases a with
    | ackInit => exact h.ackInit_kept ha
    | ackNormal => exact h.ackNormal_kept ha
    | txDone => exact h.txDone_kept ha
    | rxPush f => exact h.rxPush_kept ha

/-! ## The turn -/

theorem StateInv.blockCase_kept {s t : State} (h : StateInv s) (hb : BlockCase s t) : StateInv t := by
  cases hb with
  | quiet _ _ ht => rwa [ht]
  | illegal w ws _ _ _ _ ht => exact ht ▸ h.refuse_kept w ws
  | gated _ ws i _ _ _ _ ht => exact ht ▸ h.refuse_kept (encode i) ws
  | accepted w ws i hu _ hd hm ht =>
    have hissue := h.issue_kept hu hm (decode_encode_of_decode hd)
    exact ht ▸ hissue.of_unread ws s.sched (s.history ++ [.issue (encode i)]) s.draws
  | seq i _ hd hs => exact h.seqStep_kept hd hs

/-- The invariant is kept by every step that answers a next state. -/
theorem StateInv.step_kept {s t : State} (h : StateInv s) (hs : step s = .next t) : StateInv t := by
  rcases step_cases s t hs with ⟨a, -, ht⟩ | ⟨-, hb⟩
  · exact ht ▸ h.popTurn_kept.coreStep_kept a
  · exact h.popTurn_kept.blockCase_kept hb

/-! ## No turn stops -/

section
variable {s : State}

theorem execInit_answers (sel : Byte) (h : s.upc.ofInit = true) : ∃ t, execInit sel s = .next t := by
  cases hu : s.upc <;> simp_all [execInit, Upc.ofInit]

/-- Between A3a and A3e the label's bank is that of a cursor below saturation, so it exists (42_filter_alloc.md
R173). -/
theorem bank_exists {bank : BitVec 5} (hb : bank = bankOf s.cursor) (hc : s.cursor.toNat < 112) :
    ∃ b : Fin 28, bank.toNat = b.val :=
  ⟨⟨s.cursor.toNat / 4, by omega⟩, by rw [hb, bankOf_toNat _ hc]⟩

theorem allocA3a_answers {bank : BitVec 5} {b : Fin 28} (hb : bank.toNat = b.val) (slot : BitVec 2) (h : Half) :
    ∃ t, allocA3a bank slot h s = .next t := by
  rcases slot_cases slot with rfl | rfl | rfl | rfl
  · exact ⟨_, allocA3a_slot0 bank h s⟩
  · exact ⟨_, allocA3a_slot1 bank b hb h s⟩
  · exact ⟨_, allocA3a_slot2 bank b hb h s⟩
  · exact ⟨_, allocA3a_slot3 bank b hb h s⟩

theorem execAlloc_answers (id : Ident) (hinv : StateInv s) (h : s.upc.ofAlloc = true) :
    ∃ t, execAlloc id s = .next t := by
  have hscr := hinv.scratch
  have hcur := hinv.cursor
  cases hu : s.upc
  case a3a bank slot hh =>
    simp [scratchFits, cursorFits, hu] at hscr hcur
    obtain ⟨b, hb⟩ := bank_exists hscr.1.1 hcur
    simpa only [execAlloc, hu] using allocA3a_answers hb slot hh
  case a3c bank hh =>
    simp [scratchFits, cursorFits, hu] at hscr hcur
    obtain ⟨b, hb⟩ := bank_exists hscr.1.1 hcur
    simpa only [execAlloc, hu] using ⟨_, allocA3c_bank bank b hb hh s⟩
  case a3d bank hh =>
    simp [scratchFits, cursorFits, hu] at hscr hcur
    obtain ⟨b, hb⟩ := bank_exists hscr.1.1 hcur
    simpa only [execAlloc, hu] using ⟨_, allocA3d_bank bank b hb hh s⟩
  all_goals simp_all [execAlloc, Upc.ofAlloc]

theorem execTx_answers (id : Ident) (len : Byte) (d : Payload) (h : s.upc.ofTx = true) :
    ∃ t, execTx id len d s = .next t := by
  cases hu : s.upc <;> simp_all [execTx, Upc.ofTx]

theorem execAvail_answers (h : s.upc.phase = .avail) : ∃ t, execAvail s = .next t := by
  cases hu : s.upc <;> simp_all [execAvail]

theorem execRx_answers (h : s.upc.phase = .rx) : ∃ t, execRx s = .next t := by
  cases hu : s.upc <;> simp_all [execRx]

/-- A command that runs at one of its own labels goes on or retires. -/
theorem StateInv.exec_answers {i : Instr} (hinv : StateInv s) (h : s.upc.belongsTo i = true) :
    ∃ t, exec i s = .next t := by
  cases i with
  | init sel => exact execInit_answers sel h
  | alloc id => exact execAlloc_answers id hinv h
  | tx id len d => exact execTx_answers id len d h
  | avail => exact execAvail_answers (beq_iff_eq.mp h)
  | rx => exact execRx_answers (beq_iff_eq.mp h)

theorem StateInv.blockTurn_answers (h : StateInv s) : ∃ t, blockTurn s = .next t := by
  by_cases hu : s.upc = .idle
  · cases hp : s.port with
    | nil => exact ⟨_, blockTurn_quiet s hu hp⟩
    | cons w ws =>
      cases hd : decode w with
      | error c => exact ⟨_, blockTurn_illegal s w ws c hu hp hd⟩
      | ok i =>
        rw [blockTurn_issue s w ws i hu hp hd]
        exact ⟨_, exec_idle i { s with port := ws } hu⟩
  · obtain ⟨i, hd⟩ := latched_command h.latch hu
    rw [blockTurn_busy s i hu hd]
    exact h.exec_answers (belongs_of_latch h.latch hu hd)

theorem StateInv.step_answers (h : StateInv s) : ∃ t, step s = .next t := by
  cases hn : nextTurn s with
  | core a => exact ⟨_, step_core s a hn⟩
  | block =>
    rw [step_block s hn]
    exact h.popTurn_kept.blockTurn_answers

end

/-- Settles O44: inside the invariant every turn answers a next state, and each kind of turn keeps every part of it. -/
theorem invariantKeptByEveryStep : Obligations.InvariantKeptByEveryStep := by
  unfold Obligations.InvariantKeptByEveryStep
  intro s h
  obtain ⟨t, ht⟩ := h.step_answers
  exact ⟨t, ht, h.step_kept ht⟩

end Sys2Proof.Machine
end

section
/-! PROOF. The register map and the views: every register at its own offset, what an observation there reads, and
the state after reset (10_state.md R21, R37, R47, R50). -/

namespace Sys2Proof.Machine

/-! ## The register map -/

/-- Every register is found at its own offset (10_state.md R21). -/
theorem regAt_regOffset (r : Reg) : regAt (regOffset r) = some r := by
  cases r with
  | fbR1 b => exact regAt_bankR1 b
  | fbR2 b => exact regAt_bankR2 b
  | _ => rfl

/-- An offset at a multiple of 8 from the first bank is that bank's first sub-register (10_state.md R36). -/
theorem bankR1Offset_of_dvd {a : Nat} (ha : 0x240 ≤ a) (hr : (a - 0x240) % bankBytes = 0) :
    a = bankR1Offset ((a - 0x240) / bankBytes) := by
  simp only [bankR1Offset, bankBytes, regBytes, Config.subregs, Config.regw] at hr ⊢
  omega

theorem bankR2Offset_of_rem {a : Nat} (ha : 0x240 ≤ a) (hr : (a - 0x240) % bankBytes = regBytes) :
    a = bankR2Offset ((a - 0x240) / bankBytes) := by
  simp only [bankR2Offset, bankR1Offset, bankBytes, regBytes, Config.subregs, Config.regw] at hr ⊢
  omega

/-- An offset that finds a register is that register's own. -/
theorem regOffset_of_regAt {a : Nat} {r : Reg} (h : regAt a = some r) : a = regOffset r := by
  unfold regAt at h
  iterate 16
    rcases ite_eq_iff.mp h with ⟨ha, hr⟩ | ⟨-, h⟩
    · cases hr
      exact ha
  split at h
  next hbank =>
    split at h
    next hr => cases h; exact bankR1Offset_of_dvd hbank.1 hr
    next =>
      split at h
      next hr => cases h; exact bankR2Offset_of_rem hbank.1 hr
      next => cases h
  next => cases h

/-- An observation at a register's offset is a read of that register (20_memory.md R85). -/
theorem observe_regOffset (k : Nat) (r : Reg) (s : State) : observe k (regOffset r) s = readReg k r s := by
  rw [observe, regAt_regOffset]

/-- An observation anywhere else gives 0 (10_state.md R37). -/
theorem observe_elsewhere (k : Nat) {a : Nat} (s : State) (h : ∀ r, a ≠ regOffset r) : observe k a s = 0 := by
  rw [observe]
  cases hr : regAt a with
  | none => rfl
  | some r => exact absurd (regOffset_of_regAt hr) (h r)

/-- Settles O8: the map and its inverse agree in both directions, by cases on the register and on the offset. -/
theorem registerMapIsOneToOne : Obligations.RegisterMapIsOneToOne := by
  unfold Obligations.RegisterMapIsOneToOne
  exact ⟨regAt_regOffset, fun _ _ => regOffset_of_regAt, fun k _ s => observe_elsewhere k s⟩

/-! ## The views -/

/-- STS reads INAK (10_state.md R23). -/
theorem readReg_sts (k : Nat) (s : State) : readReg k .sts s = if s.coreMode = .init then 1 else 0 := by
  simp only [readReg, State.inak, beq_iff_eq]

/-- The count field of RXF, whatever draw the read is given. -/
theorem readReg_rxf_count (k : Nat) (s : State) : (readReg k .rxf s).extractLsb' 0 2 = s.fmp :=
  seqRead_rxf_count s

/-- The receive mailbox shows the head of a FIFO that is not empty (10_state.md R29 to R31). -/
theorem readReg_rxMailbox_cons (k : Nat) {s : State} {f : Frame} {fs : List Frame} (h : s.fifo = f :: fs) :
    readReg k .rxid s = txidVal f.id ∧ readReg k .rxdt s = f.dlc.zeroExtend 32 ∧
      readReg k .rxdl s = lowWord f.data ∧ readReg k .rxdh s = highWord f.data := by
  simp only [readReg, h, and_self]

/-- On an empty FIFO it shows a draw in each named field (44_receive.md R216). -/
theorem readReg_rxMailbox_nil (k : Nat) {s : State} (h : s.fifo = []) :
    readReg k .rxid s = txidVal (Config.drawId k) ∧ readReg k .rxdt s = (Config.drawDlc k).zeroExtend 32 ∧
      readReg k .rxdl s = Config.drawLow k ∧ readReg k .rxdh s = Config.drawHigh k := by
  simp only [readReg, h, and_self]

/-- No reserved bit of a read is 1 (10_state.md R37). -/
theorem readReg_and_not_definedBits (k : Nat) (r : Reg) (s : State) :
    readReg k r s &&& ~~~definedBits r = 0 := by
  rw [← readReg_reserved, BitVec.and_assoc, BitVec.and_not_self]
  exact BitVec.and_zero

/-- Settles O11: each view by its read, TXID_VAL and the data words written out. -/
theorem viewsOfHiddenState : Obligations.ViewsOfHiddenState := by
  unfold Obligations.ViewsOfHiddenState
  intro k s
  exact ⟨readReg_sts k s, readReg_rxf_count k s, fun _ _ h => readReg_rxMailbox_cons k h,
    fun h => readReg_rxMailbox_nil k h, fun r => readReg_and_not_definedBits k r s⟩

/-! ## Reset -/

/-- Settles O9: an observation at a register's offset is a read, and every field a listed register shows is 0. -/
theorem stateAfterReset : Obligations.StateAfterReset := by
  unfold Obligations.StateAfterReset
  refine ⟨?_, rfl, rfl, rfl, rfl, rfl, rfl⟩
  intro k r hr
  rw [observe_regOffset]
  fin_cases hr <;> rfl

/-- After reset no bank is allocated, as INIT has not run. -/
theorem factFits_reset : FactFits State.reset := by
  intro b
  simp [State.reset, DefaultInstalled]

theorem stateInv_reset : StateInv State.reset where
  mode := rfl
  latch := rfl
  scratch := rfl
  cursor := rfl
  poll := rfl
  core := rfl
  untouched := rfl
  quiet := rfl
  finit := rfl
  maskMode := rfl
  fact := factFits_reset
  scale := .inl rfl
  reserved := rfl
  fifo := Nat.zero_le _

/-- Settles O10: each part of the state's invariant at reset, and the two counts over the empty history. -/
theorem invariantAfterReset : Obligations.InvariantAfterReset := by
  unfold Obligations.InvariantAfterReset
  exact ⟨stateInv_reset, ⟨fun _ => rfl, fun h => absurd rfl h⟩, rfl, rfl⟩

end Sys2Proof.Machine
end

section
/-! PROOF. What the invariant says of SEQ's own state and of the shared state (10_state.md R44, R51, 41_mode_control.md
R160): the parts of `StateInv` read off where MODE or CURSOR, rather than the label, is known. -/

namespace Sys2Proof.Machine

section
variable {s : State}

/-! ## MODE, FINIT and CURSOR -/

/-- MODE is Initializing exactly at I1 to I7 (10_state.md R44 (b)). -/
theorem StateInv.initializing_iff (h : StateInv s) : s.mode = .initializing ↔ s.upc.insideInit = true := by
  have hm := h.mode
  cases hp : s.upc.phase <;> simp [modeFits, Upc.insideInit, hp] at hm ⊢
  case idle => rcases hm with hm | hm <;> simp [hm]
  all_goals simp [hm]

/-- MODE is FilterConfiguration exactly at A2 to A5 (10_state.md R44 (c)). -/
theorem StateInv.filterConfiguration_iff (h : StateInv s) :
    s.mode = .filterConfiguration ↔ s.upc.insideBracket = true := by
  have hm := h.mode
  cases hp : s.upc.phase <;> simp [modeFits, Upc.insideBracket, hp] at hm ⊢
  case idle => rcases hm with hm | hm <;> simp [hm]
  all_goals simp [hm]

theorem StateInv.finit_iff (h : StateInv s) : s.finit = true ↔ s.upc.insideBracket = true := by
  rw [beq_iff_eq.mp h.finit]

theorem StateInv.mode_of_idle (h : StateInv s) (hu : s.upc = .idle) :
    s.mode = .uninitialized ∨ s.mode = .normal := by
  simpa [modeFits, hu] using h.mode

/-- CURSOR never passes its saturation value, at whatever label (10_state.md R44 (d)). -/
theorem StateInv.cursor_le (h : StateInv s) : s.cursor.toNat ≤ 112 := by
  have hc := h.cursor
  cases hp : s.upc.phase <;> simp only [cursorFits, hp, beq_iff_eq, decide_eq_true_eq] at hc
  case initFirst | initRest => simp [hc]
  case allocFirst | bracket => split at hc <;> simp only [decide_eq_true_eq] at hc <;> omega
  all_goals exact hc

/-! ## The registers in Uninitialized -/

/-- In Uninitialized FINIT is 0, as no ALLOC runs. -/
theorem StateInv.finit_of_uninitialized (h : StateInv s) (hm : s.mode = .uninitialized) : s.finit = false := by
  rw [← Bool.not_eq_true, h.finit_iff, ← h.filterConfiguration_iff, hm]
  decide

/-- In Uninitialized no frame has been received, as CORE is off. -/
theorem StateInv.fifo_of_uninitialized (h : StateInv s) (hm : s.mode = .uninitialized) : s.fifo = [] := by
  obtain ⟨-, -, hoff, -⟩ := h.untouched_of_uninitialized hm
  have hq := h.quiet
  simp [quietFits, hoff] at hq
  exact hq.1

/-- In Uninitialized no filter bank is allocated. -/
theorem StateInv.fact_of_uninitialized (h : StateInv s) (hm : s.mode = .uninitialized) (k : Nat) :
    readReg k .fact s = 0 := by
  have hnot : ¬DefaultInstalled s := by
    rcases h.upc_of_uninitialized hm with hu | hu <;> simp [DefaultInstalled, hu, hm]
  rw [readReg_fact]
  apply word_ext
  intro j hj
  have hbit : ¬(s.fact.getLsbD j = true ∧ j < 28) := fun ⟨hbit, hb⟩ => hnot ((h.fact ⟨j, hb⟩).mp hbit).1
  simpa [bankMask_bit] using hbit

/-- In Uninitialized every register with a reset value reads 0 (10_state.md R44 (e)). -/
theorem StateInv.reads_of_uninitialized (h : StateInv s) (hm : s.mode = .uninitialized) (k : Nat) (r : Reg)
    (hr : r ∈ [Reg.ctl, .sts, .rxf, .btr, .txid, .txdt, .txdl, .txdh, .fctl, .fmode, .fscale, .fact]) :
    readReg k r s = 0 := by
  obtain ⟨-, hinrq, hoff, hbtr, htxid, htxdt, htxdl, htxdh, hfscale⟩ := h.untouched_of_uninitialized hm
  have hfinit := h.finit_of_uninitialized hm
  have hfifo := h.fifo_of_uninitialized hm
  have hctl : s.ctl.getLsbD 0 = false := hinrq
  have hfctl : s.fctl.getLsbD 0 = false := hfinit
  simp only [List.mem_cons, List.not_mem_nil, or_false] at hr
  rcases hr with rfl | rfl | rfl | rfl | rfl | rfl | rfl | rfl | rfl | rfl | rfl | rfl
  · rw [readReg_ctl, and_one_eq, hctl]
    rfl
  · rw [readReg_sts, hoff]
    rfl
  · simp [readReg, State.fmp, hfifo]
  · simp [readReg, hbtr]
  · simp [readReg, htxid]
  · simp [readReg, htxdt]
  · simp [readReg, htxdl]
  · simp [readReg, htxdh]
  · rw [readReg_fctl, and_one_eq, hfctl]
    rfl
  · simp [readReg, h.maskMode]
  · simp [readReg, hfscale]
  · exact h.fact_of_uninitialized hm k

/-! ## The shared state -/

/-- FMP reads the length of FIFO, which fits its two bits (10_state.md R51 (a)). -/
theorem StateInv.fmp_toNat (h : StateInv s) : s.fmp.toNat = s.fifo.length := by
  have hlen : s.fifo.length ≤ 2 := h.fifo
  rw [State.fmp, BitVec.toNat_ofNat]
  omega

/-- At IDLE in Normal FACT is bank 0 and the banks with an allocated slot (10_state.md R51 (c), log 23). -/
theorem StateInv.fact_of_idle_normal (h : StateInv s) (hu : s.upc = .idle) (hm : s.mode = .normal) (b : Fin 28) :
    s.fact.getLsbD b = true ↔ b.val = 0 ∨ 4 * b.val < s.cursor.toNat := by
  have hf := h.fact b
  simpa only [DefaultInstalled, countedSlots, hu, hm, ne_eq, reduceCtorEq, not_false_eq_true, true_and] using hf

/-- Once a slot is allocated no bank is in 32-bit packing (10_state.md R51 (d)). -/
theorem StateInv.fscale_of_cursor_pos (h : StateInv s) (hc : 0 < s.cursor.toNat) : s.fscale = 0 := by
  rcases h.scale with hs | ⟨-, h0, -⟩
  · exact hs
  · rw [h0] at hc
    exact absurd hc (by decide)

end

/-- Settles O45: (a) to (d) from MODE, FINIT and CURSOR by phase, (e) from what is untouched before INIT. -/
theorem privateStateInvariants : Obligations.PrivateStateInvariants := by
  unfold Obligations.PrivateStateInvariants
  intro s h
  exact ⟨h.mode_of_idle, h.initializing_iff, h.filterConfiguration_iff, h.finit_iff, h.cursor_le, fun hm =>
    ⟨(h.untouched_of_uninitialized hm).1, fun k r hr => h.reads_of_uninitialized hm k r hr⟩⟩

/-- Settles O46: each clause is a part of the invariant, or a fact of every state (INAK, reserved bits). -/
theorem sharedStateInvariants : Obligations.SharedStateInvariants := by
  unfold Obligations.SharedStateInvariants
  intro s h
  refine ⟨h.fifo, h.fmp_toNat, beq_iff_eq, h.fact_of_idle_normal, ?_,
    fun k r => readReg_and_not_definedBits k r s, h.core_of_normal⟩
  intro b hb
  rw [h.maskMode, h.fscale_of_cursor_pos (by omega)]
  exact ⟨BitVec.getLsbD_zero, BitVec.getLsbD_zero⟩

end Sys2Proof.Machine
end

section
/-! PROOF. Who sets and clears each flag (10_state.md R39), over every step of every state: the turns that only keep
the model's books are set apart once, and each flag is then followed through SEQ's and CORE's steps. -/

namespace Sys2Proof.Machine

section
variable {i : Instr} {s t : State}

/-! ## The turns that write no register -/

/-- `t` differs from `s` at most in what Issue and the schedule keep: the latch, the label, the history, the port and
the turns to come. -/
def SameHardware (s t : State) : Prop :=
  t = { s with upc := t.upc, cw := t.cw, history := t.history, port := t.port, sched := t.sched }

/-- A turn of HOST and SEQ is a step of SEQ or leaves the hardware as it is. -/
theorem BlockCase.seq_or_same (h : BlockCase s t) : (∃ i, SeqStep i s t) ∨ SameHardware s t := by
  cases h with
  | quiet _ _ ht | illegal _ _ _ _ _ _ ht | accepted _ _ _ _ _ _ _ ht | gated _ _ _ _ _ _ _ ht =>
    exact .inr (ht ▸ rfl)
  | seq i _ _ hs => exact .inl ⟨i, hs⟩

/-- A step is an enabled step of CORE, a step of SEQ, or leaves the hardware as it is. -/
theorem step_agent (h : step s = .next t) :
    (∃ a, nextTurn s = .core a ∧ t = coreEffect a s.popTurn) ∨ (∃ i, SeqStep i s.popTurn t) ∨
      SameHardware s t := by
  rcases step_cases s t h with ⟨a, hn, ht⟩ | ⟨-, hb⟩
  · cases ha : coreEnabled a s.popTurn with
    | false =>
      rw [coreStep_not_enabled a _ ha] at ht
      exact .inr (.inr (ht ▸ rfl))
    | true =>
      rw [coreStep_enabled a _ ha] at ht
      exact .inl ⟨a, hn, ht⟩
  · rcases hb.seq_or_same with hs | hsame
    · exact .inr (.inl hs)
    · exact .inr (.inr hsame)

/-! ## The flags in SEQ's steps -/

theorem SeqStep.inrq_cases (h : SeqStep i s t) :
    t.inrq = s.inrq ∨ ((∃ p, s.upc = .i1 p) ∧ t.inrq = true) ∨ (s.upc = .i5 ∧ t.inrq = false) := by
  unfold State.inrq
  cases h
  case i1 hu => exact .inr (.inl ⟨⟨_, hu⟩, by simp⟩)
  case i5 hu => exact .inr (.inr ⟨hu, by simp⟩)
  all_goals exact .inl rfl

theorem SeqStep.inak_eq (h : SeqStep i s t) : t.inak = s.inak := by
  unfold State.inak
  cases h <;> rfl

theorem SeqStep.finit_cases (h : SeqStep i s t) :
    t.finit = s.finit ∨ (s.upc = .a1 ∧ t.finit = true) ∨ (s.upc = .a5 ∧ t.finit = false) := by
  unfold State.finit
  cases h
  case a1 hu => exact .inr (.inl ⟨hu, by simp⟩)
  case a5 hu => exact .inr (.inr ⟨hu, by simp⟩)
  all_goals exact .inl rfl

/-- While a request is pending T1 may clear it and T5 leaves it (43_transmit.md R197). -/
theorem SeqStep.txrq_cases (h : SeqStep i s t) :
    t.txrq = s.txrq ∨ (s.upc = .t5 ∧ t.txrq = true) ∨ (s.upc = .t1 ∧ t.txrq = false) := by
  unfold State.txrq
  cases h
  case t1free id _ _ hu _ => exact .inr (.inr ⟨hu, txidVal_bit0 id⟩)
  case t1race id _ _ v hu _ hv =>
    rcases hv with rfl | rfl
    · exact .inl rfl
    · exact .inr (.inr ⟨hu, txidVal_bit0 id⟩)
  case t5free hu _ => exact .inr (.inl ⟨hu, by simp⟩)
  case t5race v hu _ hv =>
    rcases hv with rfl | rfl
    · exact .inl rfl
    · exact .inr (.inl ⟨hu, by simp⟩)
  all_goals exact .inl rfl

theorem SeqStep.fifo_cases (h : SeqStep i s t) :
    t.fifo = s.fifo ∨ ((∃ w1 w2 w3 w4, s.upc = .r5 w1 w2 w3 w4) ∧ t.fifo = s.fifo.tail) := by
  cases h
  case r5 hu => exact .inr ⟨⟨_, _, _, _, hu⟩, rfl⟩
  all_goals exact .inl rfl

/-! ## The flags in CORE's steps -/

theorem coreEffect_inrq (a : CoreAct) (s : State) : (coreEffect a s).inrq = s.inrq := by
  cases a <;> rfl

theorem coreEffect_finit (a : CoreAct) (s : State) : (coreEffect a s).finit = s.finit := by
  cases a <;> rfl

theorem coreEffect_inak_cases (a : CoreAct) (s : State) :
    (coreEffect a s).inak = s.inak ∨ (a = .ackInit ∧ (coreEffect a s).inak = true) ∨
      (a = .ackNormal ∧ (coreEffect a s).inak = false) := by
  cases a with
  | ackInit => exact .inr (.inl ⟨rfl, rfl⟩)
  | ackNormal => exact .inr (.inr ⟨rfl, rfl⟩)
  | txDone => exact .inl rfl
  | rxPush f => exact .inl rfl

theorem coreEffect_txrq_cases (a : CoreAct) (s : State) :
    (coreEffect a s).txrq = s.txrq ∨ (a = .txDone ∧ (coreEffect a s).txrq = false) := by
  cases a with
  | txDone => exact .inr ⟨rfl, by simp [State.txrq, coreEffect]⟩
  | ackInit => exact .inl rfl
  | ackNormal => exact .inl rfl
  | rxPush f => exact .inl rfl

theorem coreEffect_fifo_cases (a : CoreAct) (s : State) :
    (coreEffect a s).fifo = s.fifo ∨ ∃ f, a = .rxPush f ∧ (coreEffect a s).fifo = s.fifo ++ [f] := by
  cases a with
  | rxPush f => exact .inr ⟨f, rfl, rfl⟩
  | ackInit => exact .inl rfl
  | ackNormal => exact .inl rfl
  | txDone => exact .inl rfl

/-! ## The flags in every step -/

theorem inrq_change (h : step s = .next t) (hne : t.inrq ≠ s.inrq) :
    ((∃ p, s.upc = .i1 p) ∧ t.inrq = true) ∨ (s.upc = .i5 ∧ t.inrq = false) := by
  rcases step_agent h with ⟨a, -, rfl⟩ | ⟨i, hs⟩ | hsame
  · exact absurd (coreEffect_inrq a s.popTurn) hne
  · exact hs.inrq_cases.resolve_left hne
  · exact absurd (congrArg State.inrq hsame) hne

theorem inak_change (h : step s = .next t) (hne : t.inak ≠ s.inak) :
    (nextTurn s = .core .ackInit ∧ t.inak = true) ∨ (nextTurn s = .core .ackNormal ∧ t.inak = false) := by
  rcases step_agent h with ⟨a, hn, rfl⟩ | ⟨i, hs⟩ | hsame
  · exact ((coreEffect_inak_cases a s.popTurn).resolve_left hne).imp
      (fun ⟨ha, hv⟩ => ⟨ha ▸ hn, hv⟩) (fun ⟨ha, hv⟩ => ⟨ha ▸ hn, hv⟩)
  · exact absurd hs.inak_eq hne
  · exact absurd (congrArg State.inak hsame) hne

theorem finit_change (h : step s = .next t) (hne : t.finit ≠ s.finit) :
    (s.upc = .a1 ∧ t.finit = true) ∨ (s.upc = .a5 ∧ t.finit = false) := by
  rcases step_agent h with ⟨a, -, rfl⟩ | ⟨i, hs⟩ | hsame
  · exact absurd (coreEffect_finit a s.popTurn) hne
  · exact hs.finit_cases.resolve_left hne
  · exact absurd (congrArg State.finit hsame) hne

theorem txrq_change (h : step s = .next t) (hne : t.txrq ≠ s.txrq) :
    (s.upc = .t5 ∧ t.txrq = true) ∨ (t.txrq = false ∧ (nextTurn s = .core .txDone ∨ s.upc = .t1)) := by
  rcases step_agent h with ⟨a, hn, rfl⟩ | ⟨i, hs⟩ | hsame
  · obtain ⟨ha, hv⟩ := (coreEffect_txrq_cases a s.popTurn).resolve_left hne
    exact .inr ⟨hv, .inl (ha ▸ hn)⟩
  · exact (hs.txrq_cases.resolve_left hne).imp_right fun ⟨hu, hv⟩ => ⟨hv, .inr hu⟩
  · exact absurd (congrArg State.txrq hsame) hne

theorem fifo_change (h : step s = .next t) (hne : t.fifo ≠ s.fifo) :
    (∃ f, nextTurn s = .core (.rxPush f) ∧ t.fifo = s.fifo ++ [f]) ∨
      ((∃ w1 w2 w3 w4, s.upc = .r5 w1 w2 w3 w4) ∧ t.fifo = s.fifo.tail) := by
  rcases step_agent h with ⟨a, hn, rfl⟩ | ⟨i, hs⟩ | hsame
  · obtain ⟨f, ha, hv⟩ := (coreEffect_fifo_cases a s.popTurn).resolve_left hne
    exact .inl ⟨f, ha ▸ hn, hv⟩
  · exact .inr (hs.fifo_cases.resolve_left hne)
  · exact absurd (congrArg State.fifo hsame) hne

end

/-- Settles O48: each flag's changes through the three kinds of turn; RFOM is never stored. -/
theorem flagChangesComplete : Obligations.FlagChangesComplete := by
  unfold Obligations.FlagChangesComplete
  refine ⟨?_, rfl, rfl, rfl, rfl, rfl, rfl⟩
  intro s t h
  exact ⟨inrq_change h, inak_change h, finit_change h, txrq_change h, fifo_change h, rfl⟩

end Sys2Proof.Machine
end

section
/-! PROOF. Writes of the stored registers against the reads of all registers (20_memory.md R73, R74). -/

namespace Sys2Proof.Machine

/-! ## The sub-registers of the banks -/

theorem readReg_fbR1_set (k : Nat) (b c : Fin 28) (x : Bank) (s : State) :
    readReg k (.fbR1 c) { s with banks := s.banks.set b x } =
      if b = c then x.r1 else readReg k (.fbR1 c) s := by
  simp only [readReg, Fin.getElem_fin, Vector.getElem_set, Fin.val_inj, apply_ite Bank.r1]

theorem readReg_fbR2_set (k : Nat) (b c : Fin 28) (x : Bank) (s : State) :
    readReg k (.fbR2 c) { s with banks := s.banks.set b x } =
      if b = c then x.r2 else readReg k (.fbR2 c) s := by
  simp only [readReg, Fin.getElem_fin, Vector.getElem_set, Fin.val_inj, apply_ite Bank.r2]

/-- A write of R1 replaces the bank by one with the same R2, so R2 reads as before, of that bank too. -/
theorem readReg_writeReg_fbR1_of_ne (k : Nat) {b : Fin 28} {r' : Reg} (v : Word) (s : State) (h : r' ≠ .fbR1 b) :
    readReg k r' (writeReg (.fbR1 b) v s) = readReg k r' s := by
  rw [writeReg]
  cases r' with
  | fbR1 c => rw [readReg_fbR1_set, if_neg fun hbc : b = c => h (hbc ▸ rfl)]
  | fbR2 c =>
    rw [readReg_fbR2_set]
    exact ite_eq_right_iff.mpr fun hbc => by rw [hbc]; rfl
  | _ => rfl

theorem readReg_writeReg_fbR2_of_ne (k : Nat) {b : Fin 28} {r' : Reg} (v : Word) (s : State) (h : r' ≠ .fbR2 b) :
    readReg k r' (writeReg (.fbR2 b) v s) = readReg k r' s := by
  rw [writeReg]
  cases r' with
  | fbR1 c =>
    rw [readReg_fbR1_set]
    exact ite_eq_right_iff.mpr fun hbc => by rw [hbc]; rfl
  | fbR2 c => rw [readReg_fbR2_set, if_neg fun hbc : b = c => h (hbc ▸ rfl)]
  | _ => rfl

/-! ## Every stored register -/

/-- The write stores the defined bits and the read masks them once more. -/
theorem readReg_writeReg_same (k : Nat) {r : Reg} (v : Word) {s : State} (hfree : s.txrq = false)
    (hr : r ∉ [Reg.sts, .rxf, .rxid, .rxdt, .rxdl, .rxdh]) :
    readReg k r (writeReg r v s) = v &&& definedBits r := by
  have masked_twice (m : Word) : v &&& m &&& m = v &&& m := by rw [BitVec.and_assoc, BitVec.and_self]
  have all_defined : v = v &&& 0xFFFFFFFF := (BitVec.and_allOnes (x := v)).symm
  cases r with
  | sts | rxf | rxid | rxdt | rxdl | rxdh => exact absurd (by decide) hr
  | ctl | btr | fctl | fmode | fscale | fact => exact masked_twice _
  | txid | txdt =>
    rw [writeReg, mailboxWrite_free _ s hfree]
    exact masked_twice _
  | txdl | txdh =>
    rw [writeReg, mailboxWrite_free _ s hfree]
    exact all_defined
  | fbR1 b =>
    rw [writeReg, readReg_fbR1_set, if_pos rfl]
    exact all_defined
  | fbR2 b =>
    rw [writeReg, readReg_fbR2_set, if_pos rfl]
    exact all_defined

/-- A write touches what its own register shows and nothing else: `r'` is either `r`, which `hne` shuts out, or a
register that shows another part of the state. RXF is left out: a write there can release the head of FIFO, which the
receive mailbox shows (48_core_agent.md R235). -/
theorem readReg_writeReg_of_ne (k : Nat) {r r' : Reg} (v : Word) {s : State} (hfree : s.txrq = false)
    (hr : r ≠ .rxf) (hne : r' ≠ r) : readReg k r' (writeReg r v s) = readReg k r' s := by
  cases r with
  | sts | rxid | rxdt | rxdl | rxdh => rfl
  | rxf => exact absurd rfl hr
  | fbR1 b => exact readReg_writeReg_fbR1_of_ne k v s hne
  | fbR2 b => exact readReg_writeReg_fbR2_of_ne k v s hne
  | txid | txdt | txdl | txdh =>
    rw [writeReg, mailboxWrite_free _ s hfree]
    cases r' <;> trivial
  | ctl | btr | fctl | fmode | fscale | fact => cases r' <;> trivial

/-- Settles O12: each stored register holds its own word, and with TXRQ = 0 a mailbox write happens. -/
theorem storedRegisterReadsBack : Obligations.StoredRegisterReadsBack := by
  unfold Obligations.StoredRegisterReadsBack
  intro k r r' v s hfree hr
  have hrxf : r ≠ .rxf := by
    rintro rfl
    exact hr (by decide)
  exact ⟨readReg_writeReg_same k v hfree hr, readReg_writeReg_of_ne k v hfree hrxf⟩

end Sys2Proof.Machine
end

section
/-! PROOF. The command words: which bits each row of the opcode table forbids, what the decoder answers for each
opcode in terms of the fields, and the two directions of decoding and encoding (30_encoding.md R100 to R110). -/

namespace Sys2Proof.Machine

/-! ## Fields that are zero -/

section
variable {w : CmdWord}

/-- A field is zero when each of its bits is. -/
theorem field_eq_zero_iff (w : CmdWord) (lo n : Nat) :
    w.extractLsb' lo n = 0 ↔ ∀ k, lo ≤ k → k < lo + n → w.getLsbD k = false := by
  constructor
  · intro h k hlo hhi
    have hbit := congrArg (fun x => x.getLsbD (k - lo)) h
    rw [BitVec.getLsbD_extractLsb', decide_eq_true (by omega), Nat.add_sub_cancel' hlo] at hbit
    simpa using hbit
  · intro h
    apply word_ext
    intro k hk
    rw [BitVec.getLsbD_extractLsb', h (lo + k) (by omega) (by omega)]
    simp

/-- A field inside a zero field is zero. -/
theorem subfield_eq_zero {lo n : Nat} (h : w.extractLsb' lo n = 0) (lo' n' : Nat) (hlo : lo ≤ lo')
    (hhi : lo' + n' ≤ lo + n) : w.extractLsb' lo' n' = 0 := by
  rw [field_eq_zero_iff] at h ⊢
  intro k hk hk'
  exact h k (by omega) (by omega)

/-! ## The rows of the opcode table in terms of the fields -/

/-- A word with the opcode of a row fits it when the bits above the opcode that the row fixes are zero. -/
theorem fits_iff_of_opcOf {r : OpcodeRow} (hpat : r.pattern = (opcOf w).zeroExtend 96)
    (hopc : ∀ k, k < 8 → r.mask.getLsbD k = true) :
    r.fits w = true ↔ ∀ k, 8 ≤ k → k < 96 → r.mask.getLsbD k = true → w.getLsbD k = false := by
  rw [fits_iff, hpat]
  have hpattern (k : Nat) (hk : k < 96) :
      ((opcOf w).zeroExtend 96).getLsbD k = (decide (k < 8) && w.getLsbD k) := by
    simp [opcOf, hk]
  constructor
  · intro h k hlo hhi hm
    simpa [hm, hpattern k hhi, Nat.not_lt.mpr hlo] using h k hhi
  · intro h k hhi
    rw [hpattern k hhi]
    by_cases hk : k < 8
    · simp [hk, hopc k hk]
    · cases hm : r.mask.getLsbD k with
      | false => simp [hk]
      | true => simp [hk, h k (by omega) hhi hm]

/-- INIT uses OPC and ARG only (R103). -/
theorem initRow_fits_iff (h : opcOf w = 1) : initRow.fits w = true ↔ w.extractLsb' 16 80 = 0 := by
  have hmask : ∀ k, 8 ≤ k → k < 96 → (initRow.mask.getLsbD k = true ↔ 16 ≤ k) := by decide
  rw [fits_iff_of_opcOf (by rw [h]; rfl) (by decide), field_eq_zero_iff]
  grind

/-- ALLOC uses OPC and ID only (R104). -/
theorem allocRow_fits_iff (h : opcOf w = 2) :
    allocRow.fits w = true ↔ argOf w = 0 ∧ w.extractLsb' 27 69 = 0 := by
  have hmask : ∀ k, 8 ≤ k → k < 96 → (allocRow.mask.getLsbD k = true ↔ k < 16 ∨ 27 ≤ k) := by decide
  rw [fits_iff_of_opcOf (by rw [h]; rfl) (by decide), argOf, field_eq_zero_iff, field_eq_zero_iff]
  grind

/-- TX uses everything but bits 31:27 (R105). -/
theorem txRow_fits_iff (h : opcOf w = 3) : txRow.fits w = true ↔ w.extractLsb' 27 5 = 0 := by
  have hmask : ∀ k, 8 ≤ k → k < 96 → (txRow.mask.getLsbD k = true ↔ 27 ≤ k ∧ k < 32) := by decide
  rw [fits_iff_of_opcOf (by rw [h]; rfl) (by decide), field_eq_zero_iff]
  grind

/-- AVAIL uses OPC only (R106). -/
theorem availRow_fits_iff (h : opcOf w = 4) : availRow.fits w = true ↔ w.extractLsb' 8 88 = 0 := by
  have hmask : ∀ k, 8 ≤ k → k < 96 → availRow.mask.getLsbD k = true := by decide
  rw [fits_iff_of_opcOf (by rw [h]; rfl) (by decide), field_eq_zero_iff]
  grind

/-- RX uses OPC only (R107). -/
theorem rxRow_fits_iff (h : opcOf w = 5) : rxRow.fits w = true ↔ w.extractLsb' 8 88 = 0 := by
  have hmask : ∀ k, 8 ≤ k → k < 96 → rxRow.mask.getLsbD k = true := by decide
  rw [fits_iff_of_opcOf (by rw [h]; rfl) (by decide), field_eq_zero_iff]
  grind

/-! ## What the decoder answers, by opcode -/

/-- A selector is legal exactly below `NBITRATES`. -/
theorem selectorLegal_iff (sel : Byte) :
    selectorLegal Config.maxSelector sel = true ↔ sel.toNat < Config.nBitrates := by
  rw [selectorLegal, Bool.or_eq_true, beq_iff_eq, decide_eq_true_iff, Config.nBitrates]
  constructor
  · rintro (rfl | h)
    · simp
    · exact h
  · exact .inr

theorem decode_of_opc_init (h : opcOf w = 1) :
    decode w = if w.extractLsb' 16 80 = 0 then
        if (argOf w).toNat < Config.nBitrates then .ok (.init (argOf w)) else .error .selector
      else .error .mustBeZero := by
  simp [decode, decodeFor, h, initRow_fits_iff h, selectorLegal_iff]

theorem decode_of_opc_alloc (h : opcOf w = 2) :
    decode w = if argOf w = 0 ∧ w.extractLsb' 27 69 = 0 then .ok (.alloc (idOf w)) else .error .mustBeZero := by
  simp [decode, decodeFor, h, allocRow_fits_iff h]

theorem decode_of_opc_tx (h : opcOf w = 3) :
    decode w = if w.extractLsb' 27 5 = 0 then .ok (.tx (idOf w) (argOf w) (dataOf w))
      else .error .mustBeZero := by
  simp [decode, decodeFor, h, txRow_fits_iff h]

theorem decode_of_opc_avail (h : opcOf w = 4) :
    decode w = if w.extractLsb' 8 88 = 0 then .ok .avail else .error .mustBeZero := by
  simp [decode, decodeFor, h, availRow_fits_iff h]

theorem decode_of_opc_rx (h : opcOf w = 5) :
    decode w = if w.extractLsb' 8 88 = 0 then .ok .rx else .error .mustBeZero := by
  simp [decode, decodeFor, h, rxRow_fits_iff h]

/-- The opcode is none of the five of R102. -/
def OpcUnused (w : CmdWord) : Prop :=
  opcOf w ≠ 1 ∧ opcOf w ≠ 2 ∧ opcOf w ≠ 3 ∧ opcOf w ≠ 4 ∧ opcOf w ≠ 5

theorem decode_of_opc_unused (h : OpcUnused w) : decode w = .error .opcode := by
  obtain ⟨h1, h2, h3, h4, h5⟩ := h
  simp_all [decode, decodeFor]

/-- An answer behind a check is an error when the check fails or the answer is one. -/
theorem error_ite_iff {P : Prop} [Decidable P] (x : Except Illegal Instr) (c : Illegal) :
    (∃ c', (if P then x else .error c) = .error c') ↔ ¬P ∨ ∃ c', x = .error c' := by
  split <;> simp_all

theorem opcOf_cases (w : CmdWord) :
    opcOf w = 1 ∨ opcOf w = 2 ∨ opcOf w = 3 ∨ opcOf w = 4 ∨ opcOf w = 5 ∨ OpcUnused w := by
  unfold OpcUnused
  tauto

/-! ## The encoding of a decoded command is the word -/

/-- A word with nothing but OPC, ARG and ID is laid out from these. -/
theorem word_of_opc_arg_id (h : w.extractLsb' 27 69 = 0) :
    wordOfFields 0 (idOf w) (argOf w) (opcOf w) = w := by
  have hdata := subfield_eq_zero h 32 64 (by omega) (by omega)
  have hw := word_of_its_fields w (subfield_eq_zero h 27 5 (by omega) (by omega))
  rwa [hdata] at hw

/-- A word with nothing above ARG is laid out from OPC and ARG. -/
theorem word_of_opc_arg (h : w.extractLsb' 16 80 = 0) : wordOfFields 0 0 (argOf w) (opcOf w) = w := by
  have hid : idOf w = 0 := subfield_eq_zero h 16 11 (by omega) (by omega)
  have hw := word_of_opc_arg_id (subfield_eq_zero h 27 69 (by omega) (by omega))
  rwa [hid] at hw

/-- A word with nothing above OPC is laid out from OPC. -/
theorem word_of_opc (h : w.extractLsb' 8 88 = 0) : wordOfFields 0 0 0 (opcOf w) = w := by
  have harg : argOf w = 0 := subfield_eq_zero h 8 8 (by omega) (by omega)
  have hw := word_of_opc_arg (subfield_eq_zero h 16 80 (by omega) (by omega))
  rwa [harg] at hw

/-- A legal word is the encoding of what the decoder reads from it (30_encoding.md R110). -/
theorem encode_of_decode {i : Instr} (h : decode w = .ok i) : encode i = w := by
  rcases opcOf_cases w with hop | hop | hop | hop | hop | hop
  · rw [decode_of_opc_init hop] at h
    split_ifs at h with hzero hsel
    cases h
    have hw := word_of_opc_arg hzero
    rwa [hop] at hw
  · rw [decode_of_opc_alloc hop] at h
    split_ifs at h with hzero
    obtain ⟨harg, hzero⟩ := hzero
    cases h
    have hw := word_of_opc_arg_id hzero
    rwa [hop, harg] at hw
  · rw [decode_of_opc_tx hop] at h
    split_ifs at h with hzero
    cases h
    have hw := word_of_its_fields w hzero
    rwa [hop, ← bits_dataOf] at hw
  · rw [decode_of_opc_avail hop] at h
    split_ifs at h with hzero
    cases h
    have hw := word_of_opc hzero
    rwa [hop] at hw
  · rw [decode_of_opc_rx hop] at h
    split_ifs at h with hzero
    cases h
    have hw := word_of_opc hzero
    rwa [hop] at hw
  · rw [decode_of_opc_unused hop] at h
    cases h

end

/-! ## The obligations on decoding -/

/-- Settles O2: `decode_encode_of_wellFormed`, a case split on the command that reads back each field of its word. -/
theorem decodeOfEncodeIsTheCommand : Obligations.DecodeOfEncodeIsTheCommand := by
  unfold Obligations.DecodeOfEncodeIsTheCommand
  exact decode_encode_of_wellFormed

/-- Settles O3: the unused fields of a legal word are zero, so its used fields determine it. -/
theorem encodeOfDecodeIsTheWord : Obligations.EncodeOfDecodeIsTheWord := by
  unfold Obligations.EncodeOfDecodeIsTheWord
  intro w i h
  exact ⟨encode_of_decode h, wellFormed_of_decode h⟩

/-- Settles O4: what the decoder answers for each opcode, against the clauses that speak of that opcode. -/
theorem illegalWordsExactly : Obligations.IllegalWordsExactly := by
  unfold Obligations.IllegalWordsExactly
  intro w
  rcases opcOf_cases w with hop | hop | hop | hop | hop | hop
  · rw [decode_of_opc_init hop, error_ite_iff, error_ite_iff]
    simp [hop]
  · rw [decode_of_opc_alloc hop, error_ite_iff, not_and_or]
    simp [hop]
  · rw [decode_of_opc_tx hop, error_ite_iff]
    simp [hop]
  · rw [decode_of_opc_avail hop, error_ite_iff]
    simp [hop]
  · rw [decode_of_opc_rx hop, error_ite_iff]
    simp [hop]
  · exact iff_of_true ⟨.opcode, decode_of_opc_unused hop⟩ (.inl hop)

/-- Settles O1: the decoder evaluated on each word; selector 0 is legal whatever `NBITRATES` is. -/
theorem decodedSpecWords : Obligations.DecodedSpecWords := by
  unfold Obligations.DecodedSpecWords
  refine ⟨?_, ?_, ?_, ?_, ?_, ?_, ?_, ?_, ?_⟩ <;> decide

end Sys2Proof.Machine
end

section
/-! PROOF. Operand assembly: the fields of the mailbox words, of the response of RX, of the timing word and of the
filter words read back (30_encoding.md R111 to R116, 20_memory.md R77). -/

namespace Sys2Proof.Machine

/-! ## Fields -/

/-- A field has a value when its bits are the value's. -/
theorem field_eq_of_bits {n m : Nat} {w : BitVec n} {x : BitVec m} (lo : Nat)
    (h : ∀ k, k < m → w.getLsbD (lo + k) = x.getLsbD k) : w.extractLsb' lo m = x := by
  apply word_ext
  intro k hk
  rw [BitVec.getLsbD_extractLsb', decide_eq_true hk, Bool.true_and, h k hk]

/-! ## Frames -/

/-- STID of TXID_VAL is the identifier (R111). -/
theorem stidOf_txidVal (id : Ident) : stidOf (txidVal id) = id := by
  apply word_ext
  intro k hk
  rw [Config.idw] at hk
  simp [stidOf, txidVal, Config.txidShift, hk, show 21 + k < 32 by omega]

/-- DLC of a length code alone in its word (R112). -/
theorem dlcOf_zeroExtend (l : Dlc) : dlcOf (l.zeroExtend 32) = l := by
  apply word_ext
  intro k hk
  rw [Config.dlcw] at hk
  simp [dlcOf, hk, show k < 32 by omega]

/-- The response of RX carries the fields of the four words read (R116). -/
theorem frameOfResponse_rxWord (w1 w2 w3 w4 : Word) :
    frameOfResponse (rxWord w1 w2 w3 w4) = ⟨stidOf w1, dlcOf w2, payloadOf w3 w4⟩ := by
  have hid : (rxWord w1 w2 w3 w4).extractLsb' 16 11 = stidOf w1 :=
    field_eq_of_bits 16 (by grind [rxWord_bit])
  have hdlc : (rxWord w1 w2 w3 w4).extractLsb' 8 4 = dlcOf w2 :=
    field_eq_of_bits 8 (by grind [rxWord_bit])
  have hlow : (rxWord w1 w2 w3 w4).extractLsb' 32 32 = w3 :=
    field_eq_of_bits 32 (by grind [rxWord_bit])
  have hhigh : (rxWord w1 w2 w3 w4).extractLsb' 64 32 = w4 :=
    field_eq_of_bits 64 (by grind [rxWord_bit])
  rw [frameOfResponse, hid, hdlc, hlow, hhigh]

/-- Settles O5: DATA of a TX word is the two data words, and the words a frame is packed in give it back. -/
theorem framePackingAndUnpacking : Obligations.FramePackingAndUnpacking := by
  unfold Obligations.FramePackingAndUnpacking
  constructor
  · intro id len d
    have hlow := data_word d.bits id len 0x03#8 0 32 (by omega)
    have hhigh := data_word d.bits id len 0x03#8 32 32 (by omega)
    rw [payloadBits_low] at hlow
    rw [payloadBits_high] at hhigh
    exact ⟨hlow, hhigh⟩
  · intro f
    have hid := stidOf_txidVal f.id
    have hdlc := dlcOf_zeroExtend f.dlc
    have hdata := payloadOf_words f.data
    refine ⟨hid, hdlc, hdata, ?_⟩
    rw [frameOfResponse_rxWord, hid, hdlc, hdata]

/-! ## The timing word -/

/-- The timing word, field by field (R115): BRP in bits 9:0, TS1 in bits 19:16, TS2 in bits 22:20. -/
theorem btrVal_bit (p : Profile) (k : Nat) :
    (btrVal p).getLsbD k =
      if k < 10 then (BitVec.ofNat 10 (p.brp - 1)).getLsbD k else if k < 16 then false
      else if k < 20 then (BitVec.ofNat 4 (p.ts1 - 1)).getLsbD (k - 16)
      else (BitVec.ofNat 3 (p.ts2 - 1)).getLsbD (k - 20) := by
  simp only [btrVal, BitVec.getLsbD_or, BitVec.getLsbD_shiftLeft, BitVec.truncate_eq_setWidth,
    BitVec.getLsbD_setWidth, Config.regw]
  split_ifs <;> grind

theorem btrVal_brp (p : Profile) : (btrVal p).extractLsb' 0 10 = BitVec.ofNat 10 (p.brp - 1) :=
  field_eq_of_bits 0 (by grind [btrVal_bit])

theorem btrVal_ts1 (p : Profile) : (btrVal p).extractLsb' 16 4 = BitVec.ofNat 4 (p.ts1 - 1) :=
  field_eq_of_bits 16 (by grind [btrVal_bit])

theorem btrVal_ts2 (p : Profile) : (btrVal p).extractLsb' 20 3 = BitVec.ofNat 3 (p.ts2 - 1) :=
  field_eq_of_bits 20 (by grind [btrVal_bit])

/-- A value of at most `2 ^ n`, minus one, is not truncated to `n` bits. -/
theorem ofNat_pred_toNat {n v : Nat} (hlo : 1 ≤ v) (hhi : v ≤ 2 ^ n) :
    (BitVec.ofNat n (v - 1)).toNat + 1 = v := by
  rw [BitVec.toNat_ofNat, Nat.mod_eq_of_lt (by omega)]
  omega

/-- Settles O6: each field holds its value modulo the field's width, and R142's range keeps that from truncating. -/
theorem timingWordFields : Obligations.TimingWordFields := by
  unfold Obligations.TimingWordFields
  rintro p ⟨hts1, hts1', hts2, hts2', hbrp, hbrp'⟩
  rw [btrVal_brp, btrVal_ts1, btrVal_ts2]
  exact ⟨ofNat_pred_toNat hbrp hbrp', ofNat_pred_toNat hts1 hts1', ofNat_pred_toNat hts2 hts2', btrVal_masked p⟩

/-! ## The filter words -/

theorem half_id (id : Ident) : (half id).extractLsb' 5 11 = id := by
  apply word_ext
  intro k hk
  simp [half, Config.filtShift, hk, show 5 + k < 16 by omega]

theorem half_low (id : Ident) : (half id).extractLsb' 0 5 = 0 := by
  apply word_ext
  intro k hk
  simp [half, Config.filtShift, hk]

theorem twoHalves_upper (h l : Half) : BitVec.extractLsb' (n := 32) 16 16 (h ++ l) = h :=
  field_eq_of_bits 16 (by grind [twoHalves_bit])

theorem twoHalves_lower (h l : Half) : BitVec.extractLsb' (n := 32) 0 16 (h ++ l) = l :=
  field_eq_of_bits 0 (by grind [twoHalves_bit])

/-- Settles O7: both words are two halves one above the other, and `withUpperHalf_eq` says which. -/
theorem filterHalfFields : Obligations.FilterHalfFields := by
  unfold Obligations.FilterHalfFields
  constructor
  · intro id
    exact ⟨half_id id, half_low id, twoHalves_lower _ _, twoHalves_upper _ _⟩
  · intro h t
    rw [withUpperHalf_eq]
    exact ⟨twoHalves_upper _ _, twoHalves_lower _ _⟩

end Sys2Proof.Machine
end

section
/-! PROOF. INIT step by step (41_mode_control.md R150 to R158): one lemma per label with the exact next state, then the
waits, the hang and the whole command as runs of these steps. -/

namespace Sys2Proof.Machine

/-! ## The step at each label -/

section
variable {sel : Byte} {p : Profile} {s : State}

theorem exec_init_i0 (h : s.upc = .i0) :
    exec (.init sel) s = .next { s with mode := .initializing, cursor := 0, upc := .i1 (bt sel) } := by
  simp only [exec, execInit, h, initI0]

theorem exec_init_i1 (h : s.upc = .i1 p) :
    exec (.init sel) s = .next { s with ctl := (s.ctl &&& 1) ||| 1, upc := .i2 p } := by
  simp only [exec, execInit, h, initI1, fieldWrite_inrq_one]
  rfl

theorem exec_init_i2 (h : s.upc = .i2 p) :
    exec (.init sel) s = .next (if s.coreMode = .init then { s with upc := .i3 p } else s) := by
  simp only [exec, execInit, h, initI2_eq]

theorem exec_init_i3 (h : s.upc = .i3 p) :
    exec (.init sel) s = .next { s with btr := btrVal p, upc := .i4a } := by
  simp only [exec, execInit, h, initI3, writeReg_btr]

theorem exec_init_i4a (h : s.upc = .i4a) :
    exec (.init sel) s = .next { s with fscale := (s.fscale &&& 0x0FFFFFFF) ||| 1, upc := .i4b } := by
  simp only [exec, execInit, h, initI4a, fieldWrite_scaleBit_one 0 (by omega)]
  rfl

theorem exec_init_i4b (h : s.upc = .i4b) :
    exec (.init sel) s = .next { s with fmode := (s.fmode &&& 0x0FFFFFFF) &&& 0xFFFFFFFE, upc := .i4c } := by
  simp only [exec, execInit, h, initI4b, fieldWrite_modeBit_zero]
  rfl

theorem exec_init_i4c (h : s.upc = .i4c) :
    exec (.init sel) s = .next { s with banks := s.banks.set 0 { s.banks[0] with r1 := 0 }, upc := .i4d } := by
  simp only [exec, execInit, h]
  rfl

theorem exec_init_i4d (h : s.upc = .i4d) :
    exec (.init sel) s = .next { s with banks := s.banks.set 0 { s.banks[0] with r2 := 0 }, upc := .i4e } := by
  simp only [exec, execInit, h]
  rfl

theorem exec_init_i4e (h : s.upc = .i4e) :
    exec (.init sel) s = .next { s with fact := (s.fact &&& 0x0FFFFFFF) ||| 1, upc := .i5 } := by
  simp only [exec, execInit, h, initI4e, fieldWrite_activeBit_one 0 (by omega)]
  rfl

theorem exec_init_i5 (h : s.upc = .i5) :
    exec (.init sel) s = .next { s with ctl := (s.ctl &&& 1) &&& 0xFFFFFFFE, upc := .i6 } := by
  simp only [exec, execInit, h, initI5, fieldWrite_inrq_zero]
  rfl

theorem exec_init_i6 (h : s.upc = .i6) :
    exec (.init sel) s = .next (if s.coreMode = .init then s else { s with upc := .i7 }) := by
  simp only [exec, execInit, h, initI6_eq]

theorem exec_init_i7 (h : s.upc = .i7) :
    exec (.init sel) s =
      .next { s with mode := .normal, upc := .idle, history := s.history ++ [.retire doneWord] } := by
  simp only [exec, execInit, h, initI7, State.retire]

end

/-- Settles O16: the steps at I0 and I1; the word I1 stores has INRQ set. -/
theorem initRequestsInitialisation : Obligations.InitRequestsInitialisation := by
  unfold Obligations.InitRequestsInitialisation
  intro sel s
  refine ⟨exec_init_i0, fun p hu => ⟨_, exec_init_i1 hu, rfl, fun hc => ?_⟩⟩
  rw [ackInit_enabled]
  exact ⟨by simp [State.inrq], hc⟩

/-- Settles O17: the steps at I2, I5 and I6; the word I5 stores has INRQ clear. -/
theorem initWaitsForAcknowledgments : Obligations.InitWaitsForAcknowledgments := by
  unfold Obligations.InitWaitsForAcknowledgments
  intro sel s
  refine ⟨fun p => exec_init_i2, fun hu => ⟨_, exec_init_i5 hu, rfl, fun hc => ?_⟩, exec_init_i6⟩
  rw [ackNormal_enabled]
  exact ⟨by simp [State.inrq], hc⟩

/-- Settles O18: the steps at I3 to I4e. -/
theorem initProgramsTimingAndFilter : Obligations.InitProgramsTimingAndFilter := by
  unfold Obligations.InitProgramsTimingAndFilter
  intro sel s
  exact ⟨fun p => exec_init_i3, exec_init_i4a, exec_init_i4b, exec_init_i4c, exec_init_i4d, exec_init_i4e⟩

/-- Settles O19: the step at I7; Normal is the gate's mode of every command but INIT. -/
theorem initRetiresInNormal : Obligations.InitRetiresInNormal := by
  unfold Obligations.InitRetiresInNormal
  intro sel s hu
  exact ⟨_, exec_init_i7 hu, rfl, nofun, fun _ => rfl, fun _ _ _ => rfl, rfl, rfl⟩

/-! ## Waits -/

section
variable {sel : Byte} {s : State}

/-- INIT waits for CORE: at I2 without the acknowledgment, or at I6 with the old one (41_mode_control.md R157). -/
def InitWaits (s : State) : Prop :=
  (∃ p, s.upc = .i2 p) ∧ s.coreMode ≠ .init ∨ s.upc = .i6 ∧ s.coreMode = .init

theorem InitWaits.upc_ne_idle (h : InitWaits s) : s.upc ≠ .idle := by
  rcases h with ⟨⟨p, hu⟩, -⟩ | ⟨hu, -⟩ <;> simp [hu]

/-- A failed poll changes nothing (41_mode_control.md R153, R156). -/
theorem exec_init_failedPoll (h : InitWaits s) : exec (.init sel) s = .next s := by
  rcases h with ⟨⟨p, hu⟩, hc⟩ | ⟨hu, hc⟩
  · rw [exec_init_i2 hu, if_neg hc]
  · rw [exec_init_i6 hu, if_pos hc]

/-- Settles O54: by induction on the number of steps, each a failed poll. -/
theorem initHangsWithoutAcknowledgment : Obligations.InitHangsWithoutAcknowledgment := by
  unfold Obligations.InitHangsWithoutAcknowledgment
  intro n sel s hsched hd hwait
  have hstep : step s = .next s := by
    rw [step_seq (nextTurn_nil hsched) (InitWaits.upc_ne_idle hwait) hd, popTurn_of_nil hsched,
      exec_init_failedPoll hwait]
  induction n with
  | zero => rfl
  | succ n ih => rw [runSteps_succ n hstep, ih]

/-! ## The parts of a whole INIT

Each rewrite below runs one step, or one part, of a run. A premise given as `by …` or `‹_›` is proved only after the
rewrite has found the state it speaks of. -/

/-- A busy block's turn at the head of the schedule begins a run. -/
theorem runSteps_busy {i : Instr} {t : State} {ts : List Turn} (n : Nat) (hsched : s.sched = .block :: ts)
    (hu : s.upc ≠ .idle) (hd : decode s.cw = .ok i) (he : exec i { s with sched := ts } = .next t) :
    runSteps (n + 1) s = runSteps n t := by
  apply runSteps_succ
  rw [step_seq (nextTurn_cons hsched) hu hd, popTurn_cons hsched, he]

/-- A turn of CORE at the head of the schedule, its step enabled. -/
theorem runSteps_core {a : CoreAct} {ts : List Turn} (hsched : s.sched = .core a :: ts)
    (ha : coreEnabled a { s with sched := ts } = true) :
    runSteps 1 s = .next (coreEffect a { s with sched := ts }) := by
  apply runSteps_succ
  rw [step_core s a (nextTurn_cons hsched), popTurn_cons hsched, coreStep_enabled a _ ha]

/-- Failed polls only use up their turns. -/
theorem runSteps_init_failedPolls (k : Nat) {ts : List Turn}
    (hsched : s.sched = List.replicate k .block ++ ts) (hd : decode s.cw = .ok (.init sel)) (h : InitWaits s) :
    runSteps k s = .next { s with sched := ts } := by
  induction k generalizing s with
  | zero =>
    have hts : s.sched = ts := hsched
    rw [runSteps_zero, ← hts]
  | succ k ih =>
    rw [runSteps_busy k hsched h.upc_ne_idle hd (exec_init_failedPoll h)]
    exact ih rfl hd h

/-- Issue, I0 and I1 (41_mode_control.md R151, R152). -/
theorem runSteps_init_request {ws : List CmdWord} {ts : List Turn} (hu : s.upc = .idle)
    (hm : s.mode = .uninitialized) (hwf : (Instr.init sel).wellFormed = true)
    (hport : s.port = encode (.init sel) :: ws) (hsched : s.sched = .block :: .block :: .block :: ts) :
    runSteps 3 s = .next { s with
      port := ws
      sched := ts
      cw := encode (.init sel)
      upc := .i2 (bt sel)
      mode := .initializing
      cursor := 0
      ctl := (s.ctl &&& 1) ||| 1
      history := s.history ++ [.issue (encode (.init sel))] } := by
  have hd := decode_encode_of_wellFormed _ hwf
  have hissue := step_issue (nextTurn_cons hsched) hu hport hd
  rw [popTurn_cons hsched, issue_accepted _ _ hm] at hissue
  rw [runSteps_succ 2 hissue, runSteps_busy 1 rfl (by nofun) ‹_› (exec_init_i0 rfl),
    runSteps_busy 0 rfl (by nofun) ‹_› (exec_init_i1 rfl), runSteps_zero]

/-- I2 on the acknowledgment, then I3 to I5 (41_mode_control.md R153 to R156). -/
theorem runSteps_init_program {p : Profile} {ts : List Turn} (hd : decode s.cw = .ok (.init sel))
    (hu : s.upc = .i2 p) (hc : s.coreMode = .init) (hsched : s.sched = List.replicate 8 .block ++ ts) :
    runSteps 8 s = .next { s with
      sched := ts
      upc := .i6
      btr := btrVal p
      fscale := (s.fscale &&& 0x0FFFFFFF) ||| 1
      fmode := (s.fmode &&& 0x0FFFFFFF) &&& 0xFFFFFFFE
      banks := s.banks.set 0 ⟨0, 0⟩
      fact := (s.fact &&& 0x0FFFFFFF) ||| 1
      ctl := (s.ctl &&& 1) &&& 0xFFFFFFFE } := by
  have hgo := exec_init_i2 (sel := sel) (s := { s with sched := List.replicate 7 .block ++ ts }) hu
  rw [if_pos hc] at hgo
  rw [runSteps_busy 7 hsched (by simp [hu]) hd hgo, runSteps_busy 6 rfl (by nofun) ‹_› (exec_init_i3 rfl),
    runSteps_busy 5 rfl (by nofun) ‹_› (exec_init_i4a rfl), runSteps_busy 4 rfl (by nofun) ‹_› (exec_init_i4b rfl),
    runSteps_busy 3 rfl (by nofun) ‹_› (exec_init_i4c rfl), runSteps_busy 2 rfl (by nofun) ‹_› (exec_init_i4d rfl),
    runSteps_busy 1 rfl (by nofun) ‹_› (exec_init_i4e rfl), runSteps_busy 0 rfl (by nofun) ‹_› (exec_init_i5 rfl),
    runSteps_zero]
  simp

/-- I6 on the acknowledgment, then I7 (41_mode_control.md R156, R158). -/
theorem runSteps_init_retire {ts : List Turn} (hd : decode s.cw = .ok (.init sel)) (hu : s.upc = .i6)
    (hc : s.coreMode ≠ .init) (hsched : s.sched = .block :: .block :: ts) :
    runSteps 2 s = .next { s with
      sched := ts
      upc := .idle
      mode := .normal
      history := s.history ++ [.retire doneWord] } := by
  have hgo := exec_init_i6 (sel := sel) (s := { s with sched := .block :: ts }) hu
  rw [if_neg hc] at hgo
  rw [runSteps_busy 1 hsched (by simp [hu]) hd hgo, runSteps_busy 0 rfl (by nofun) ‹_› (exec_init_i7 rfl),
    runSteps_zero]

end

/-- Settles O55: the request, failed polls, the acknowledgment, the programming, failed polls, the acknowledgment and
the retirement, one run after another. -/
theorem initWholeCommand : Obligations.InitWholeCommand := by
  unfold Obligations.InitWholeCommand
  intro k m sel ws ts s hu hm hc hr hwf hport hsched
  have hd := decode_encode_of_wellFormed _ hwf
  simp only [reservedFits, Bool.and_eq_true, beq_iff_eq, definedBits] at hr
  obtain ⟨⟨⟨-, (hfmode : s.fmode &&& 0x0FFFFFFF#32 = s.fmode)⟩,
    (hfscale : s.fscale &&& 0x0FFFFFFF#32 = s.fscale)⟩, (hfact : s.fact &&& 0x0FFFFFFF#32 = s.fact)⟩ := hr
  have hctl (x : Word) : x &&& 1#32 &&& 0xFFFFFFFE#32 = 0#32 := by
    rw [BitVec.and_assoc]
    exact BitVec.and_zero
  simp only [List.replicate_add, List.append_assoc] at hsched
  rw [show 15 + k + m = 3 + (k + (1 + (8 + (m + (1 + 2))))) by omega,
    runSteps_add _ _ (runSteps_init_request hu hm hwf hport hsched),
    runSteps_add _ _ (runSteps_init_failedPolls k rfl ‹_› (by exact .inl ⟨⟨_, rfl⟩, hc⟩)),
    runSteps_add _ _ (runSteps_core rfl ((ackInit_enabled _).mpr ⟨by simp [State.inrq], by exact hc⟩)),
    runSteps_add _ _ (runSteps_init_program (by exact hd) rfl rfl rfl),
    runSteps_add _ _ (runSteps_init_failedPolls m rfl ‹_› (by exact .inr ⟨rfl, rfl⟩)),
    runSteps_add _ _ (runSteps_core rfl ((ackNormal_enabled _).mpr ⟨by simp [State.inrq], rfl⟩)),
    runSteps_init_retire ‹_› rfl (by nofun) rfl]
  simp [coreEffect, State.record, hu, hctl, hfmode, hfscale, hfact, doneWord]

end Sys2Proof.Machine
end

section
/-! PROOF. Which command writes which register (41_mode_control.md R159, 43_transmit.md R198, 44_receive.md R215): each
group of registers through SEQ's and CORE's steps. -/

namespace Sys2Proof.Machine

section
variable {i : Instr} {s t : State}

/-! ## SEQ -/

theorem SeqStep.timing_control (h : SeqStep i s t) :
    (t.btr = s.btr ∧ t.ctl = s.ctl) ∨ s.upc.insideInit = true := by
  cases h
  case i1 hu | i3 hu | i5 hu => exact .inr (by simp [Upc.insideInit, hu])
  all_goals exact .inl ⟨rfl, rfl⟩

theorem SeqStep.mailbox (h : SeqStep i s t) :
    (t.txid = s.txid ∧ t.txdt = s.txdt ∧ t.txdl = s.txdl ∧ t.txdh = s.txdh) ∨ s.upc.ofTx = true := by
  cases h
  case t1free hu _ | t2free hu _ | t3free hu _ | t4free hu _ | t5free hu _ =>
    exact .inr (by simp [Upc.ofTx, hu])
  case t1race hu _ _ | t2race hu _ _ | t3race hu _ _ | t4race hu _ _ | t5race hu _ _ =>
    exact .inr (by simp [Upc.ofTx, hu])
  all_goals exact .inl ⟨rfl, rfl, rfl, rfl⟩

theorem SeqStep.filters (h : SeqStep i s t) :
    (t.fmode = s.fmode ∧ t.fscale = s.fscale ∧ t.fact = s.fact ∧ t.banks = s.banks) ∨
      s.upc.insideInit = true ∨ s.upc.insideBracket = true := by
  cases h
  case i4a hu | i4b hu | i4c hu | i4d hu | i4e hu => exact .inr (.inl (by simp [Upc.insideInit, hu]))
  case a3slot0 hu | a3slot1 hu | a3slot2 hu | a3slot3 hu | a3b hu | a3c hu | a3d hu =>
    exact .inr (.inr (by simp [Upc.insideBracket, hu]))
  case a3e _ hu | a3eNoBank _ hu => exact .inr (.inr (by simp [Upc.insideBracket, hu]))
  all_goals exact .inl ⟨rfl, rfl, rfl, rfl⟩

theorem SeqStep.filterControl (h : SeqStep i s t) : t.fctl = s.fctl ∨ s.upc.ofAlloc = true := by
  cases h
  case a1 hu | a5 hu => exact .inr (by simp [Upc.ofAlloc, hu])
  all_goals exact .inl rfl

/-! ## CORE -/

/-- CORE writes no register but TXID, and that by TX_DONE only (48_core_agent.md R239). -/
theorem coreEffect_txid (a : CoreAct) (s : State) : (coreEffect a s).txid = s.txid ∨ a = .txDone := by
  cases a with
  | txDone => exact .inr rfl
  | ackInit | ackNormal | rxPush f => exact .inl rfl

theorem coreEffect_registers (a : CoreAct) (s : State) :
    coreEffect a s = { s with
      txid := (coreEffect a s).txid
      coreMode := (coreEffect a s).coreMode
      fifo := (coreEffect a s).fifo
      history := (coreEffect a s).history } := by
  cases a <;> rfl

/-! ## Every step -/

theorem step_timing_control (h : step s = .next t) :
    (t.btr = s.btr ∧ t.ctl = s.ctl) ∨ s.upc.insideInit = true := by
  rcases step_agent h with ⟨a, -, rfl⟩ | ⟨i, hs⟩ | hsame
  · rw [coreEffect_registers]
    exact .inl ⟨rfl, rfl⟩
  · exact hs.timing_control
  · exact .inl ⟨(congrArg State.btr hsame :), (congrArg State.ctl hsame :)⟩

theorem step_mailboxData (h : step s = .next t) :
    (t.txdt = s.txdt ∧ t.txdl = s.txdl ∧ t.txdh = s.txdh) ∨ s.upc.ofTx = true := by
  rcases step_agent h with ⟨a, -, rfl⟩ | ⟨i, hs⟩ | hsame
  · rw [coreEffect_registers]
    exact .inl ⟨rfl, rfl, rfl⟩
  · exact hs.mailbox.imp_left And.right
  · exact .inl ⟨(congrArg State.txdt hsame :), (congrArg State.txdl hsame :), (congrArg State.txdh hsame :)⟩

theorem step_txid (h : step s = .next t) :
    t.txid = s.txid ∨ s.upc.ofTx = true ∨ nextTurn s = .core .txDone := by
  rcases step_agent h with ⟨a, hn, rfl⟩ | ⟨i, hs⟩ | hsame
  · rcases coreEffect_txid a s.popTurn with hkept | rfl
    · exact .inl hkept
    · exact .inr (.inr hn)
  · exact hs.mailbox.imp And.left .inl
  · exact .inl (congrArg State.txid hsame :)

theorem step_filters (h : step s = .next t) :
    (t.fmode = s.fmode ∧ t.fscale = s.fscale ∧ t.fact = s.fact ∧ t.banks = s.banks) ∨
      s.upc.insideInit = true ∨ s.upc.insideBracket = true := by
  rcases step_agent h with ⟨a, -, rfl⟩ | ⟨i, hs⟩ | hsame
  · rw [coreEffect_registers]
    exact .inl ⟨rfl, rfl, rfl, rfl⟩
  · exact hs.filters
  · exact .inl ⟨(congrArg State.fmode hsame :), (congrArg State.fscale hsame :), (congrArg State.fact hsame :),
      (congrArg State.banks hsame :)⟩

theorem step_filterControl (h : step s = .next t) : t.fctl = s.fctl ∨ s.upc.ofAlloc = true := by
  rcases step_agent h with ⟨a, -, rfl⟩ | ⟨i, hs⟩ | hsame
  · rw [coreEffect_registers]
    exact .inl rfl
  · exact hs.filterControl
  · exact .inl (congrArg State.fctl hsame :)

end

/-- Settles O49: each group of registers is kept by a step or written inside its command. -/
theorem registersWrittenByTheirCommandOnly : Obligations.RegistersWrittenByTheirCommandOnly := by
  unfold Obligations.RegistersWrittenByTheirCommandOnly
  intro s t h
  refine ⟨fun hne => (step_timing_control h).resolve_left ?_, fun hne => (step_mailboxData h).resolve_left ?_,
    (step_txid h).resolve_left, fun hne => (step_filters h).resolve_left ?_, (step_filterControl h).resolve_left⟩
  · rintro ⟨hbtr, hctl⟩
    simp [hbtr, hctl] at hne
  · rintro ⟨hdt, hdl, hdh⟩
    simp [hdt, hdl, hdh] at hne
  · rintro ⟨hmode, hscale, hfact, hbanks⟩
    simp [hmode, hscale, hfact, hbanks] at hne

/-! ## The default filter -/

section
variable {s : State}

/-- While bank 0 is in 32-bit packing no slot is allocated (10_state.md R51 (d)). -/
theorem StateInv.cursor_of_fscale_one (h : StateInv s) (hs : s.fscale = 1) : s.cursor = 0 := by
  rcases h.scale with h0 | ⟨-, hc, -⟩
  · rw [hs] at h0
    exact absurd h0 (by decide)
  · exact hc

/-- Between INIT and the first ALLOC bank 0 alone is allocated (41_mode_control.md R155). -/
theorem StateInv.fact_of_fscale_one (h : StateInv s) (hu : s.upc = .idle) (hm : s.mode = .normal)
    (hs : s.fscale = 1) : s.fact &&& 0x0FFFFFFF#32 = 1#32 := by
  apply word_ext
  intro k hk
  rw [BitVec.getLsbD_and, bankMask_bit, BitVec.getLsbD_one]
  by_cases hb : k < 28
  · have hbit := h.fact_of_idle_normal hu hm ⟨k, hb⟩
    rw [h.cursor_of_fscale_one hs] at hbit
    rw [Bool.eq_iff_iff]
    simpa [hb] using hbit
  · simp [hb]
    omega

end

/-- Settles O43: the invariant makes the filter state the default one, which every acceptance predicate accepts. -/
theorem defaultFilterAcceptsAll : Obligations.DefaultFilterAcceptsAll := by
  unfold Obligations.DefaultFilterAcceptsAll
  intro s id h hu hm hs hb
  have hfinit : s.finit = false := by
    rw [← Bool.not_eq_true, h.finit_iff, hu]
    decide
  have hfact := h.fact_of_fscale_one hu hm hs
  simp [accept, isDefaultFilter, filterState, definedBits, hfinit, hs, hb, hfact, h.maskMode]

end Sys2Proof.Machine
end

section
/-! PROOF. INIT ends on correctly clocked hardware (41_mode_control.md R157, 48_core_agent.md R246): at each place of INIT
one turn is the one that helps, every other turn leaves INIT where it is, and fairness brings the turn that helps. -/

namespace Sys2Proof.Machine

/-! ## Where INIT is -/

/-- The micro-steps and acknowledgments that INIT still needs, from its label and CORE's mode. -/
def initRemaining (u : Upc) (c : CoreMode) : Nat :=
  match u with
  | .i0 => 14
  | .i1 _ => 13
  | .i2 _ => if c = .init then 11 else 12
  | .i3 _ => 10
  | .i4a => 9
  | .i4b => 8
  | .i4c => 7
  | .i4d => 6
  | .i4e => 5
  | .i5 => 4
  | .i6 => if c = .init then 3 else 2
  | .i7 => 1
  | _ => 0

/-- The turn that takes INIT on: CORE's acknowledgment while INIT waits for one, otherwise SEQ's. -/
def initHelpful (u : Upc) (c : CoreMode) : Turn :=
  match u with
  | .i2 _ => if c = .init then .block else .core .ackInit
  | .i6 => if c = .init then .core .ackNormal else .block
  | _ => .block

/-- From INIT's step I3 on BTR holds the timing word of the latched selector (41_mode_control.md R154). -/
def TimingSet (s : State) : Prop :=
  match s.upc with
  | .i0 | .i1 _ | .i2 _ | .i3 _ => True
  | _ => s.btr = btrVal (bt (argOf s.cw))

/-- The INIT of the word `w` is under way, or has just ended. -/
structure InitProgress (w : CmdWord) (s : State) : Prop where
  inv : StateInv s
  latched : s.cw = w
  timing : TimingSet s
  place : s.upc.ofInit = true ∨ (s.upc = .idle ∧ s.mode = .normal)

section
variable {w : CmdWord} {i : Instr} {s t : State} {a : CoreAct}

theorem InitProgress.ofInit (h : InitProgress w s) (hu : s.upc ≠ .idle) : s.upc.ofInit = true :=
  h.place.resolve_right fun hidle => hu hidle.1

/-! ## SEQ -/

theorem SeqStep.cw_eq (hs : SeqStep i s t) : t.cw = s.cw := by
  cases hs <;> rfl

theorem SeqStep.eq_of_initWaits (hs : SeqStep i s t) (hwait : InitWaits s) : t = s := by
  cases hs <;> simp_all [InitWaits]

/-- Where INIT does not wait, a step of SEQ goes on to the next label or retires. -/
theorem SeqStep.init_advances (hs : SeqStep i s t) (hu : s.upc.ofInit = true) (hgo : ¬InitWaits s) :
    (t.upc.ofInit = true ∨ (t.upc = .idle ∧ t.mode = .normal)) ∧
      initRemaining t.upc t.coreMode < initRemaining s.upc s.coreMode := by
  cases hs
  case i2stay h2 hc => exact absurd (.inl ⟨⟨_, h2⟩, hc⟩) hgo
  case i6stay h6 hc => exact absurd (.inr ⟨h6, hc⟩) hgo
  case i1 h1 | i5 h5 =>
    refine ⟨.inl rfl, ?_⟩
    simp only [initRemaining, ‹s.upc = _›]
    split <;> decide
  all_goals simp_all [Upc.ofInit, initRemaining]

/-- I3 writes the timing word and no other step of INIT writes BTR. -/
theorem SeqStep.init_timing (hs : SeqStep i s t) (hu : s.upc.ofInit = true) (hscr : scratchFits s = true)
    (h : TimingSet s) : TimingSet t := by
  cases hs
  case i3 h3 =>
    simp only [scratchFits, h3, beq_iff_eq] at hscr
    rw [hscr]
    rfl
  all_goals simp_all [TimingSet, Upc.ofInit]

/-! ## CORE -/

/-- A turn of CORE leaves everything of SEQ's as it is (48_core_agent.md R239). -/
theorem coreStep_registers (a : CoreAct) (s : State) :
    coreStep a s = { s with
      txid := (coreStep a s).txid
      coreMode := (coreStep a s).coreMode
      fifo := (coreStep a s).fifo
      history := (coreStep a s).history } := by
  cases ha : coreEnabled a s with
  | false => rw [coreStep_not_enabled a s ha]
  | true =>
    rw [coreStep_enabled a s ha]
    exact coreEffect_registers a s

theorem InitProgress.coreStep_kept (h : InitProgress w s) (a : CoreAct) : InitProgress w (coreStep a s) := by
  have hinv := h.inv.coreStep_kept a
  rw [coreStep_registers] at hinv ⊢
  exact ⟨hinv, h.latched, h.timing, h.place⟩

/-- Only an acknowledgment helps INIT on. -/
theorem initHelpful_core {u : Upc} {c : CoreMode} (h : initHelpful u c = .core a) :
    a = .ackInit ∨ a = .ackNormal := by
  unfold initHelpful at h
  repeat' split at h
  all_goals cases h
  · exact .inl rfl
  · exact .inr rfl

/-- The acknowledgment that INIT waits for is enabled (41_mode_control.md R152, R156). -/
theorem StateInv.initHelpful_enabled (h : StateInv s) (ha : initHelpful s.upc s.coreMode = .core a) :
    coreEnabled a s = true := by
  have hcore := h.core
  cases hu : s.upc <;> simp only [initHelpful, hu, reduceCtorEq] at ha
  case i2 p =>
    split at ha <;> cases ha
    simp [coreFits, hu] at hcore
    exact (ackInit_enabled s).mpr ⟨hcore.1, ‹_›⟩
  case i6 =>
    split at ha <;> cases ha
    simp [coreFits, hu] at hcore
    exact (ackNormal_enabled s).mpr ⟨hcore.1, ‹_›⟩

/-! ## One turn -/

/-- A turn that leaves INIT where it is and is not the one that helps, or a turn that takes INIT on. -/
def InitMoves (τ : Turn) (s t : State) : Prop :=
  (t.upc = s.upc ∧ t.coreMode = s.coreMode ∧ τ ≠ initHelpful s.upc s.coreMode) ∨
    initRemaining t.upc t.coreMode < initRemaining s.upc s.coreMode

theorem StateInv.initMoves_coreEffect (h : StateInv s) (ha : coreEnabled a s = true) :
    InitMoves (.core a) s (coreEffect a s) := by
  cases a with
  | ackInit =>
    obtain ⟨⟨p, hu⟩, hoff⟩ := h.upc_of_ackInit ha
    exact .inr (by simp [hu, hoff, initRemaining, coreEffect])
  | ackNormal =>
    have hu := h.upc_of_ackNormal ha
    have hinit := ((ackNormal_enabled s).mp ha).2
    exact .inr (by simp [hu, hinit, initRemaining, coreEffect])
  | txDone | rxPush f => exact .inl ⟨rfl, rfl, fun hhelp => nomatch initHelpful_core hhelp.symm⟩

theorem StateInv.initMoves_coreStep (h : StateInv s) (a : CoreAct) : InitMoves (.core a) s (coreStep a s) := by
  cases ha : coreEnabled a s with
  | true =>
    rw [coreStep_enabled a s ha]
    exact h.initMoves_coreEffect ha
  | false =>
    rw [coreStep_not_enabled a s ha]
    refine .inl ⟨rfl, rfl, fun hhelp => ?_⟩
    rw [h.initHelpful_enabled hhelp.symm] at ha
    cases ha

theorem InitWaits.initHelpful_ne_block (h : InitWaits s) : initHelpful s.upc s.coreMode ≠ .block := by
  rcases h with ⟨⟨p, hu⟩, hc⟩ | ⟨hu, hc⟩ <;> simp [initHelpful, hu, hc]

theorem InitProgress.blockTurn_moves (h : InitProgress w s) (hu : s.upc ≠ .idle) (hb : BlockCase s t) :
    InitProgress w t ∧ InitMoves .block s t := by
  cases hb with
  | quiet hidle | illegal _ _ _ hidle | accepted _ _ _ hidle | gated _ _ _ hidle => exact absurd hidle hu
  | seq i _ hd hs =>
    by_cases hwait : InitWaits s
    · rw [hs.eq_of_initWaits hwait]
      exact ⟨h, .inl ⟨rfl, rfl, hwait.initHelpful_ne_block.symm⟩⟩
    · have hinit := h.ofInit hu
      obtain ⟨hplace, hlt⟩ := hs.init_advances hinit hwait
      exact ⟨⟨h.inv.seqStep_kept hd hs, hs.cw_eq.trans h.latched,
        hs.init_timing hinit h.inv.scratch h.timing, hplace⟩, .inr hlt⟩

theorem InitProgress.turn {τ : Turn} (h : InitProgress w s) (hu : s.upc ≠ .idle)
    (ht : takeTurn τ s = .next t) : InitProgress w t ∧ InitMoves τ s t := by
  cases τ with
  | block => exact h.blockTurn_moves hu (blockTurn_cases s t ht)
  | core a =>
    cases ht
    exact ⟨h.coreStep_kept a, h.inv.initMoves_coreStep a⟩

end

/-! ## Fair runs -/

section
variable {w : CmdWord} {σ : Nat → State} {τ : Nat → Turn} {n : Nat}

/-- Where INIT stays for ever, the turn that helps is taken. -/
theorem initHelpful_taken (hseq : SeqFair σ τ) (hclock : ClockOk σ τ) {u : Upc} {c : CoreMode} (hu : u ≠ .idle)
    (hstay : ∀ m, n ≤ m → StateInv (σ m) ∧ (σ m).upc = u ∧ (σ m).coreMode = c) :
    ∃ m, n ≤ m ∧ τ m = initHelpful u c := by
  cases hhelp : initHelpful u c with
  | block => exact hseq n ((hstay n le_rfl).2.1 ▸ hu)
  | core a =>
    have hen : ∀ m, n ≤ m → coreEnabled a (σ m) = true := by
      intro m hm
      obtain ⟨hinv, rfl, rfl⟩ := hstay m hm
      exact hinv.initHelpful_enabled hhelp
    rcases initHelpful_core hhelp with rfl | rfl
    · exact hclock.1 n hen
    · exact hclock.2 n hen

/-- INIT goes on: if it stayed where it is, the turn that helps would be taken, and that turn takes it on. -/
theorem InitProgress.advances (h : InitProgress w (σ n)) (hu : (σ n).upc ≠ .idle) (hrun : IsRun σ τ)
    (hseq : SeqFair σ τ) (hclock : ClockOk σ τ) :
    ∃ m, InitProgress w (σ m) ∧
      initRemaining (σ m).upc (σ m).coreMode < initRemaining (σ n).upc (σ n).coreMode := by
  by_contra! hno
  have hturn : ∀ m, InitProgress w (σ m) → (σ m).upc = (σ n).upc → (σ m).coreMode = (σ n).coreMode →
      InitProgress w (σ (m + 1)) ∧ (σ (m + 1)).upc = (σ n).upc ∧ (σ (m + 1)).coreMode = (σ n).coreMode ∧
        τ m ≠ initHelpful (σ n).upc (σ n).coreMode := by
    intro m hm hum hcm
    obtain ⟨hnext, ⟨hu', hc', hne⟩ | hlt⟩ := hm.turn (hum ▸ hu) (hrun m)
    · rw [hum] at hu' hne
      rw [hcm] at hc' hne
      exact ⟨hnext, hu', hc', hne⟩
    · rw [hum, hcm] at hlt
      exact absurd (hno (m + 1) hnext) (not_le.mpr hlt)
  have hstay : ∀ m, n ≤ m →
      InitProgress w (σ m) ∧ (σ m).upc = (σ n).upc ∧ (σ m).coreMode = (σ n).coreMode := by
    intro m hm
    induction m, hm using Nat.le_induction with
    | base => exact ⟨h, rfl, rfl⟩
    | succ m _ ih =>
      obtain ⟨hm, hum, hcm⟩ := ih
      obtain ⟨hnext, hu', hc', -⟩ := hturn m hm hum hcm
      exact ⟨hnext, hu', hc'⟩
  obtain ⟨m, hm, hhelp⟩ := initHelpful_taken hseq hclock hu fun m hm => (hstay m hm).imp_left InitProgress.inv
  obtain ⟨hprog, hum, hcm⟩ := hstay m hm
  exact (hturn m hprog hum hcm).2.2.2 hhelp

/-- INIT ends, by induction on the steps and acknowledgments that remain. -/
theorem InitProgress.ends (h : InitProgress w (σ n)) (hrun : IsRun σ τ) (hseq : SeqFair σ τ)
    (hclock : ClockOk σ τ) : ∃ m, InitProgress w (σ m) ∧ (σ m).upc = .idle := by
  induction hr : initRemaining (σ n).upc (σ n).coreMode using Nat.strong_induction_on generalizing n with
  | _ r ih =>
    by_cases hu : (σ n).upc = .idle
    · exact ⟨n, h, hu⟩
    · obtain ⟨m, hm, hlt⟩ := h.advances hu hrun hseq hclock
      exact ih _ (hr ▸ hlt) hm rfl

end

/-- Settles O56: INIT under way at I0 ends, and what its progress and the invariant say at IDLE is the claim. -/
theorem initEndsUnderClockOk : Obligations.InitEndsUnderClockOk := by
  unfold Obligations.InitEndsUnderClockOk
  intro σ τ hrun hseq hclock hinv hu
  have hstart : InitProgress (σ 0).cw (σ 0) :=
    ⟨hinv, rfl, by simp [TimingSet, hu], .inl (by simp [Upc.ofInit, hu])⟩
  obtain ⟨n, hn, hidle⟩ := hstart.ends hrun hseq hclock
  have hmode : (σ n).mode = .normal := by simpa [hidle, Upc.ofInit] using hn.place
  have hbtr : (σ n).btr = btrVal (bt (argOf (σ n).cw)) := by simpa [TimingSet, hidle] using hn.timing
  rw [hn.latched] at hbtr
  exact ⟨n, hidle, hmode, (hn.inv.core_of_normal hmode).1, hbtr⟩

end Sys2Proof.Machine
end

section
/-! PROOF. ALLOC step by step (42_filter_alloc.md R170 to R178): one lemma per label with the exact next state. -/

namespace Sys2Proof.Machine

/-! ## The address computation -/

/-- The bank is CURSOR[6:2] (42_filter_alloc.md R173). -/
theorem bankOf_eq_slice (c : BitVec 7) : bankOf c = c.extractLsb' 2 5 := by
  apply BitVec.eq_of_toNat_eq
  rw [BitVec.extractLsb'_toNat, Nat.shiftRight_eq_div_pow]
  exact BitVec.toNat_ofNat ..

/-- The slot is CURSOR[1:0] (42_filter_alloc.md R173). -/
theorem slotOf_eq_slice (c : BitVec 7) : slotOf c = c.extractLsb' 0 2 := by
  apply BitVec.eq_of_toNat_eq
  rw [BitVec.extractLsb'_toNat, slotOf_toNat]
  rfl

/-- Below saturation CURSOR counts up by one without wrapping. -/
theorem cursor_succ_toNat {c : BitVec 7} (h : c.toNat < 112) : (c + 1).toNat = c.toNat + 1 := by
  rw [BitVec.toNat_add]
  exact Nat.mod_eq_of_lt (by simp; omega)

/-! ## The step at each label -/

section
variable {id : Ident} {bank : BitVec 5} {b : Fin 28} {h : Half} {s : State}

theorem exec_alloc_a0_full (hu : s.upc = .a0) (hc : s.cursor = 112) :
    exec (.alloc id) s = .next { s with upc := .idle, history := s.history ++ [.retire doneWord] } := by
  simp only [exec, execAlloc, hu, allocA0]
  exact congrArg _ (if_pos hc)

theorem exec_alloc_a0_go (hu : s.upc = .a0) (hc : s.cursor ≠ 112) :
    exec (.alloc id) s = .next { s with upc := .a1 } := by
  simp only [exec, execAlloc, hu, allocA0]
  exact congrArg _ (if_neg hc)

theorem exec_alloc_a1 (hu : s.upc = .a1) :
    exec (.alloc id) s =
      .next { s with fctl := (s.fctl &&& 1) ||| 1, mode := .filterConfiguration, upc := .a2 } := by
  simp only [exec, execAlloc, hu, allocA1, fieldWrite_finit_one]
  rfl

theorem exec_alloc_a2 (hu : s.upc = .a2) :
    exec (.alloc id) s = .next { s with upc := .a3a (bankOf s.cursor) (slotOf s.cursor) (half id) } := by
  simp only [exec, execAlloc, hu, allocA2]

theorem exec_alloc_a3a_slot0 (hb : bank.toNat = b.val) (hu : s.upc = .a3a bank 0 h) :
    exec (.alloc id) s = .next { s with
      fmode := (s.fmode &&& 0x0FFFFFFF) &&& ~~~(1#32 <<< b.val), upc := .a3b bank h } := by
  simp only [exec, execAlloc, hu]
  rw [allocA3a_slot0, hb]
  rfl

theorem exec_alloc_a3a_slot1 (hb : bank.toNat = b.val) (hu : s.upc = .a3a bank 1 h) :
    exec (.alloc id) s = .next { s with
      banks := s.banks.set b { s.banks[b] with r1 := h ++ s.banks[b].r1.extractLsb' 0 16 }
      upc := .a4 } := by
  simp only [exec, execAlloc, hu]
  exact allocA3a_slot1 bank b hb h s

theorem exec_alloc_a3a_slot2 (hb : bank.toNat = b.val) (hu : s.upc = .a3a bank 2 h) :
    exec (.alloc id) s = .next { s with
      banks := s.banks.set b { s.banks[b] with r2 := h ++ h }, upc := .a4 } := by
  simp only [exec, execAlloc, hu]
  exact allocA3a_slot2 bank b hb h s

theorem exec_alloc_a3a_slot3 (hb : bank.toNat = b.val) (hu : s.upc = .a3a bank 3 h) :
    exec (.alloc id) s = .next { s with
      banks := s.banks.set b { s.banks[b] with r2 := h ++ s.banks[b].r2.extractLsb' 0 16 }
      upc := .a4 } := by
  simp only [exec, execAlloc, hu]
  exact allocA3a_slot3 bank b hb h s

theorem exec_alloc_a3b (hb : bank.toNat = b.val) (hu : s.upc = .a3b bank h) :
    exec (.alloc id) s = .next { s with
      fscale := (s.fscale &&& 0x0FFFFFFF) &&& ~~~(1#32 <<< b.val), upc := .a3c bank h } := by
  simp only [exec, execAlloc, hu, allocA3b, fieldWrite_scaleBit_zero, hb]
  rfl

theorem exec_alloc_a3c (hb : bank.toNat = b.val) (hu : s.upc = .a3c bank h) :
    exec (.alloc id) s = .next { s with
      banks := s.banks.set b { s.banks[b] with r1 := h ++ h }, upc := .a3d bank h } := by
  simp only [exec, execAlloc, hu]
  exact allocA3c_bank bank b hb h s

theorem exec_alloc_a3d (hb : bank.toNat = b.val) (hu : s.upc = .a3d bank h) :
    exec (.alloc id) s = .next { s with
      banks := s.banks.set b { s.banks[b] with r2 := h ++ h }, upc := .a3e bank } := by
  simp only [exec, execAlloc, hu]
  exact allocA3d_bank bank b hb h s

theorem exec_alloc_a3e (hb : bank.toNat = b.val) (hu : s.upc = .a3e bank) :
    exec (.alloc id) s = .next { s with
      fact := (s.fact &&& 0x0FFFFFFF) ||| (1#32 <<< b.val), upc := .a4 } := by
  simp only [exec, execAlloc, hu]
  rw [allocA3e_bank bank (by omega), hb]
  rfl

theorem exec_alloc_a4 (hu : s.upc = .a4) :
    exec (.alloc id) s = .next { s with cursor := s.cursor + 1, upc := .a5 } := by
  simp only [exec, execAlloc, hu, allocA4]

theorem exec_alloc_a5 (hu : s.upc = .a5) :
    exec (.alloc id) s = .next { s with
      fctl := (s.fctl &&& 1) &&& 0xFFFFFFFE
      mode := .normal
      upc := .idle
      history := s.history ++ [.retire doneWord] } := by
  simp only [exec, execAlloc, hu, allocA5, fieldWrite_finit_zero]
  rfl

end

/-! ## The obligations on the steps -/

/-- Settles O20: the two outcomes of A0. -/
theorem allocSaturatesSilently : Obligations.AllocSaturatesSilently := by
  unfold Obligations.AllocSaturatesSilently
  intro id s hu
  exact ⟨exec_alloc_a0_full hu, exec_alloc_a0_go hu⟩

/-- Settles O21: the steps at A1, A4 and A5; at most 111 leaves room for one more. -/
theorem allocBracketAndCount : Obligations.AllocBracketAndCount := by
  unfold Obligations.AllocBracketAndCount
  intro id s
  exact ⟨exec_alloc_a1, fun hu hc => ⟨_, exec_alloc_a4 hu, rfl, cursor_succ_toNat (Nat.lt_succ_of_le hc)⟩,
    exec_alloc_a5⟩

/-- Settles O22: the step at A2, bank and slot read as quotient, remainder and slices of CURSOR, and the register
map at the bank's offsets. -/
theorem allocComputesBankAndSlot : Obligations.AllocComputesBankAndSlot := by
  unfold Obligations.AllocComputesBankAndSlot
  intro id s hu hc
  have hbank : (bankOf s.cursor).toNat = s.cursor.toNat / 4 := bankOf_toNat _ (by omega)
  refine ⟨_, _, exec_alloc_a2 hu, hbank, slotOf_toNat _, bankOf_eq_slice _, slotOf_eq_slice _, by omega,
    fun b hb => ?_⟩
  rw [← hb]
  have hR2 : bankR2Offset b.val = 0x244 + 8 * b.val := Nat.add_right_comm ..
  exact ⟨regAt_bankR1 b, hR2 ▸ regAt_bankR2 b⟩

/-- Settles O23: the steps at A3a of slot 0 to A3e. -/
theorem allocSlotZeroStartsBank : Obligations.AllocSlotZeroStartsBank := by
  unfold Obligations.AllocSlotZeroStartsBank
  intro id b bank h s hb
  exact ⟨exec_alloc_a3a_slot0 hb, exec_alloc_a3b hb, exec_alloc_a3c hb, exec_alloc_a3d hb, exec_alloc_a3e hb⟩

/-- Settles O24: the step at A3a of each other slot. -/
theorem allocSlotsOneTwoThree : Obligations.AllocSlotsOneTwoThree := by
  unfold Obligations.AllocSlotsOneTwoThree
  intro id b bank h s hb
  exact ⟨exec_alloc_a3a_slot1 hb, exec_alloc_a3a_slot2 hb, exec_alloc_a3a_slot3 hb⟩

end Sys2Proof.Machine
end

section
/-! PROOF. Whole ALLOCs on the empty schedule (42_filter_alloc.md R170, R171, R179, R181): one command is a run of the
steps above, and the packing law and the batch form are runs of commands. -/

namespace Sys2Proof.Machine

/-! ## What one ALLOC leaves -/

/-- The block is idle in Normal with the words `ws` to issue, and no turn of CORE comes. -/
structure ReadyFor (ws : List CmdWord) (s : State) : Prop where
  upc : s.upc = .idle
  mode : s.mode = .normal
  sched : s.sched = []
  port : s.port = ws

/-- The registers of a bank after an ALLOC of its slot (42_filter_alloc.md R174 to R177). -/
def bankWithSlot (slot : Nat) (h : Half) (old : Bank) : Bank :=
  if slot = 0 then ⟨h ++ h, h ++ h⟩
  else if slot = 1 then { old with r1 := h ++ old.r1.extractLsb' 0 16 }
  else if slot = 2 then { old with r2 := h ++ h }
  else { old with r2 := h ++ old.r2.extractLsb' 0 16 }

/-- The state after a whole ALLOC below saturation, `b` being the cursor's bank. -/
def afterAlloc (id : Ident) (b : Fin 28) (ws : List CmdWord) (s : State) : State :=
  let slot := s.cursor.toNat % 4
  { s with
    port := ws
    cw := encode (.alloc id)
    cursor := s.cursor + 1
    fctl := 0
    fmode := if slot = 0 then (s.fmode &&& 0x0FFFFFFF) &&& ~~~(1#32 <<< b.val) else s.fmode
    fscale := if slot = 0 then (s.fscale &&& 0x0FFFFFFF) &&& ~~~(1#32 <<< b.val) else s.fscale
    fact := if slot = 0 then (s.fact &&& 0x0FFFFFFF) ||| (1#32 <<< b.val) else s.fact
    banks := s.banks.set b (bankWithSlot slot (half id) s.banks[b])
    history := s.history ++ [.issue (encode (.alloc id)), .retire doneWord] }

/-- The steps of a whole ALLOC below saturation (70_reset_and_hazards.md R304). -/
def allocSteps (cursor : BitVec 7) : Nat := if cursor.toNat % 4 = 0 then 11 else 7

/-! ## One ALLOC

As in the runs of INIT, a premise given as `by …` or `‹_›` is proved after the rewrite has found its state. -/

section
variable {id : Ident} {bank : BitVec 5} {b : Fin 28} {h : Half} {ws : List CmdWord} {s : State}

theorem decode_encode_alloc (id : Ident) : decode (encode (.alloc id)) = .ok (.alloc id) :=
  decode_encode_of_wellFormed _ rfl

/-- A busy block's turn on the empty schedule begins a run. -/
theorem runSteps_busy_nil {i : Instr} {t : State} (n : Nat) (hsched : s.sched = []) (hu : s.upc ≠ .idle)
    (hd : decode s.cw = .ok i) (he : exec i s = .next t) : runSteps (n + 1) s = runSteps n t := by
  apply runSteps_succ
  rw [step_seq (nextTurn_nil hsched) hu hd, popTurn_of_nil hsched, he]

/-- In Normal the Issue of an ALLOC is accepted. -/
theorem step_issue_alloc (hs : ReadyFor (encode (.alloc id) :: ws) s) :
    step s = .next { s with
      port := ws
      cw := encode (.alloc id)
      upc := .a0
      history := s.history ++ [.issue (encode (.alloc id))] } := by
  have hissue := step_issue (nextTurn_nil hs.sched) hs.upc hs.port (decode_encode_alloc id)
  rwa [popTurn_of_nil hs.sched, issue_accepted _ _ hs.mode] at hissue

/-- At saturation: Issue, then A0 retires (42_filter_alloc.md R171). -/
theorem runSteps_alloc_saturated (hs : ReadyFor (encode (.alloc id) :: ws) s) (hc : s.cursor = 112) :
    runSteps 2 s = .next { s with
      port := ws
      cw := encode (.alloc id)
      history := s.history ++ [.issue (encode (.alloc id)), .retire doneWord] } := by
  have hsched := hs.sched
  have hd := decode_encode_alloc id
  rw [runSteps_succ 1 (step_issue_alloc hs),
    runSteps_busy_nil 0 ‹_› (by nofun) ‹_› (exec_alloc_a0_full rfl (by exact hc)), runSteps_zero]
  simp [hs.upc]

/-- Issue and A0 to A2: into the bracket, with the address computed (42_filter_alloc.md R171 to R173). -/
theorem runSteps_alloc_enter (hs : ReadyFor (encode (.alloc id) :: ws) s) (hc : s.cursor ≠ 112) :
    runSteps 4 s = .next { s with
      port := ws
      cw := encode (.alloc id)
      fctl := (s.fctl &&& 1) ||| 1
      mode := .filterConfiguration
      upc := .a3a (bankOf s.cursor) (slotOf s.cursor) (half id)
      history := s.history ++ [.issue (encode (.alloc id))] } := by
  have hsched := hs.sched
  have hd := decode_encode_alloc id
  rw [runSteps_succ 3 (step_issue_alloc hs),
    runSteps_busy_nil 2 ‹_› (by nofun) ‹_› (exec_alloc_a0_go rfl (by exact hc)),
    runSteps_busy_nil 1 ‹_› (by nofun) ‹_› (exec_alloc_a1 rfl),
    runSteps_busy_nil 0 ‹_› (by nofun) ‹_› (exec_alloc_a2 rfl), runSteps_zero]

/-- A3a to A3e of slot 0 (42_filter_alloc.md R174). -/
theorem runSteps_alloc_slot0 (hsched : s.sched = []) (hd : decode s.cw = .ok (.alloc id))
    (hb : bank.toNat = b.val) (hu : s.upc = .a3a bank 0 h) :
    runSteps 5 s = .next { s with
      fmode := (s.fmode &&& 0x0FFFFFFF) &&& ~~~(1#32 <<< b.val)
      fscale := (s.fscale &&& 0x0FFFFFFF) &&& ~~~(1#32 <<< b.val)
      banks := s.banks.set b ⟨h ++ h, h ++ h⟩
      fact := (s.fact &&& 0x0FFFFFFF) ||| (1#32 <<< b.val)
      upc := .a4 } := by
  rw [runSteps_busy_nil 4 hsched (by simp [hu]) hd (exec_alloc_a3a_slot0 hb hu),
    runSteps_busy_nil 3 ‹_› (by nofun) ‹_› (exec_alloc_a3b hb rfl),
    runSteps_busy_nil 2 ‹_› (by nofun) ‹_› (exec_alloc_a3c hb rfl),
    runSteps_busy_nil 1 ‹_› (by nofun) ‹_› (exec_alloc_a3d hb rfl),
    runSteps_busy_nil 0 ‹_› (by nofun) ‹_› (exec_alloc_a3e hb rfl), runSteps_zero]
  simp

/-- A3a of slots 1, 2 and 3 is the whole of A3 (42_filter_alloc.md R175 to R177). -/
theorem exec_alloc_a3a_laterSlot {slot : BitVec 2} (hb : bank.toNat = b.val) (hu : s.upc = .a3a bank slot h)
    (h0 : slot ≠ 0) :
    exec (.alloc id) s = .next { s with
      banks := s.banks.set b (bankWithSlot slot.toNat h s.banks[b]), upc := .a4 } := by
  rcases slot_cases slot with rfl | rfl | rfl | rfl
  · exact absurd rfl h0
  · exact exec_alloc_a3a_slot1 hb hu
  · exact exec_alloc_a3a_slot2 hb hu
  · exact exec_alloc_a3a_slot3 hb hu

/-- A4 and A5 (42_filter_alloc.md R172, R178): FINIT, the one defined bit of FCTL, ends at 0. -/
theorem runSteps_alloc_leave (hsched : s.sched = []) (hd : decode s.cw = .ok (.alloc id)) (hu : s.upc = .a4) :
    runSteps 2 s = .next { s with
      cursor := s.cursor + 1
      fctl := 0
      mode := .normal
      upc := .idle
      history := s.history ++ [.retire doneWord] } := by
  have hfctl : (s.fctl &&& 1) &&& 0xFFFFFFFE = 0 := by
    rw [BitVec.and_assoc]
    exact BitVec.and_zero
  rw [runSteps_busy_nil 1 hsched (by simp [hu]) hd (exec_alloc_a4 hu),
    runSteps_busy_nil 0 ‹_› (by nofun) ‹_› (exec_alloc_a5 rfl), runSteps_zero, hfctl]

/-- A whole ALLOC below saturation, by whether its slot is 0. -/
theorem runSteps_alloc (hs : ReadyFor (encode (.alloc id) :: ws) s) (hc : s.cursor.toNat < 112)
    (hb : s.cursor.toNat / 4 = b.val) : runSteps (allocSteps s.cursor) s = .next (afterAlloc id b ws s) := by
  have hsched := hs.sched
  have hd := decode_encode_alloc id
  have hbank : (bankOf s.cursor).toNat = b.val := (bankOf_toNat _ hc).trans hb
  have hslot := slotOf_toNat s.cursor
  have henter := runSteps_alloc_enter hs (by rintro hfull; simp [hfull] at hc)
  by_cases h0 : s.cursor.toNat % 4 = 0
  · have hslot0 : slotOf s.cursor = 0 := BitVec.eq_of_toNat_eq (hslot.trans h0)
    rw [allocSteps, if_pos h0, runSteps_add 4 7 henter,
      runSteps_add 5 2 (runSteps_alloc_slot0 ‹_› ‹_› hbank (by rw [hslot0])),
      runSteps_alloc_leave ‹_› ‹_› rfl]
    simp [afterAlloc, bankWithSlot, h0, hs.upc, hs.mode]
  · have hslot0 : slotOf s.cursor ≠ 0 := fun h => h0 (by rw [← hslot, h]; rfl)
    rw [allocSteps, if_neg h0, runSteps_add 4 3 henter,
      runSteps_busy_nil 2 ‹_› (by nofun) ‹_› (exec_alloc_a3a_laterSlot hbank (by rfl) hslot0),
      runSteps_alloc_leave ‹_› ‹_› rfl]
    simp [afterAlloc, hslot, h0, hs.upc, hs.mode]

end

/-- Settles O25: the run of one ALLOC; with reserved bits 0 the masks fall away, and with FINIT clear FCTL was 0. -/
theorem allocWholeCommand : Obligations.AllocWholeCommand := by
  unfold Obligations.AllocWholeCommand
  intro id b ws s hu hm hsched hport hc hb hfin hr c old
  simp only [reservedFits, Bool.and_eq_true, beq_iff_eq, definedBits] at hr
  obtain ⟨⟨⟨⟨-, (hfctl : s.fctl &&& 1#32 = s.fctl)⟩, (hfmode : s.fmode &&& 0x0FFFFFFF#32 = s.fmode)⟩,
    (hfscale : s.fscale &&& 0x0FFFFFFF#32 = s.fscale)⟩, (hfact : s.fact &&& 0x0FFFFFFF#32 = s.fact)⟩ := hr
  have hfctl0 : s.fctl = 0 := by
    rw [← hfctl, and_one_eq, show s.fctl.getLsbD 0 = false from hfin]
    rfl
  have hrun := runSteps_alloc ⟨hu, hm, hsched, hport⟩ hc hb
  rw [allocSteps] at hrun
  simp [hrun, afterAlloc, bankWithSlot, hfctl0, hfmode, hfscale, hfact, doneWord, c, old]

/-! ## Four ALLOCs of one bank -/

/-- An ALLOC whose cursor is at slot `slot` of bank `b`, whatever that bank has become. -/
theorem runSteps_alloc_inBank {id : Ident} {b : Fin 28} {slot : Nat} {x : Bank} {bs : Vector Bank 28}
    {ws : List CmdWord} {s : State} (hs : ReadyFor (encode (.alloc id) :: ws) s) (hslot : slot < 4)
    (hc : s.cursor.toNat = 4 * b.val + slot) (hbanks : s.banks = bs.set b x) :
    ∃ t, runSteps (if slot = 0 then 11 else 7) s = .next t ∧ ReadyFor ws t ∧
      t.cursor.toNat = 4 * b.val + (slot + 1) ∧ t.banks = bs.set b (bankWithSlot slot (half id) x) := by
  have hlt : s.cursor.toNat < 112 := by omega
  have hmod : s.cursor.toNat % 4 = slot := by omega
  have hrun := runSteps_alloc hs hlt (b := b) (by omega)
  rw [allocSteps, hmod] at hrun
  refine ⟨_, hrun, ⟨hs.upc, hs.mode, hs.sched, rfl⟩, ?_, ?_⟩
  · rw [afterAlloc, cursor_succ_toNat hlt, hc, Nat.add_assoc]
  · simp [afterAlloc, hmod, hbanks]

/-- Settles O26: four whole ALLOCs, of slots 0 to 3 of the bank in turn; slots 1 and 3 keep the lower half. -/
theorem packingLaw : Obligations.PackingLaw := by
  unfold Obligations.PackingLaw
  intro a b1 c d b ws s hu hm hsched hcur hport
  have hself : s.banks = s.banks.set b s.banks[b] := (Vector.set_getElem_self b.isLt).symm
  obtain ⟨t1, hrun1, hready1, hcur1, hbanks1⟩ :=
    runSteps_alloc_inBank ⟨hu, hm, hsched, hport⟩ (by decide : 0 < 4) hcur hself
  obtain ⟨t2, hrun2, hready2, hcur2, hbanks2⟩ := runSteps_alloc_inBank hready1 (by decide) hcur1 hbanks1
  obtain ⟨t3, hrun3, hready3, hcur3, hbanks3⟩ := runSteps_alloc_inBank hready2 (by decide) hcur2 hbanks2
  obtain ⟨t4, hrun4, hready4, hcur4, hbanks4⟩ := runSteps_alloc_inBank hready3 (by decide) hcur3 hbanks3
  have hto2 : runSteps 18 s = .next t2 := (runSteps_add 11 7 hrun1).trans hrun2
  have hto3 : runSteps 25 s = .next t3 := (runSteps_add 18 7 hto2).trans hrun3
  have hto4 : runSteps 32 s = .next t4 := (runSteps_add 25 7 hto3).trans hrun4
  simp only [bankWithSlot, reduceIte, Nat.reduceAdd, Nat.reduceEqDiff, twoHalves_lower]
    at hbanks1 hbanks2 hbanks3 hbanks4
  exact ⟨t1, t2, t3, t4, hrun1, hto2, hto3, hto4, hbanks1, hbanks2, hbanks3, hbanks4, hcur4,
    hready4.upc, hready4.mode, hready4.port⟩

/-! ## The batch form -/

/-- What ALLOC writes is the same in both states, CURSOR and the filter registers but FCTL (42_filter_alloc.md R171). -/
structure SameFilters (s t : State) : Prop where
  banks : s.banks = t.banks
  fmode : s.fmode = t.fmode
  fscale : s.fscale = t.fscale
  fact : s.fact = t.fact
  cursor : s.cursor = t.cursor

theorem SameFilters.trans {s t u : State} (h : SameFilters s t) (h' : SameFilters t u) : SameFilters s u :=
  ⟨h.banks.trans h'.banks, h.fmode.trans h'.fmode, h.fscale.trans h'.fscale, h.fact.trans h'.fact,
    h.cursor.trans h'.cursor⟩

/-- `n` steps issue and retire `count` ALLOCs, each answered with DONE = 1, and leave the words `ws` in the port. -/
structure AllocRun (n count : Nat) (ws : List CmdWord) (s t : State) : Prop where
  run : runSteps n s = .next t
  ready : ReadyFor ws t
  cursor : t.cursor.toNat = min 112 (s.cursor.toNat + count)
  responses : responses t.history = responses s.history ++ List.replicate count doneWord
  kept : s.cursor.toNat = 112 ∨ count = 0 → SameFilters s t

theorem AllocRun.trans {n m k l : Nat} {ws vs : List CmdWord} {s t u : State} (h : AllocRun n k ws s t)
    (h' : AllocRun m l vs t u) : AllocRun (n + m) (k + l) vs s u where
  run := (runSteps_add n m h.run).trans h'.run
  ready := h'.ready
  cursor := by
    rw [h'.cursor, h.cursor]
    omega
  responses := by rw [h'.responses, h.responses, List.append_assoc, List.replicate_add]
  kept hfull := by
    have hcur := h.cursor
    exact (h.kept (by omega)).trans (h'.kept (by omega))

theorem responses_append_alloc (es : List Event) (w rw : CmdWord) :
    responses (es ++ [.issue w, .retire rw]) = responses es ++ [rw] := by
  rw [responses, responses, List.filterMap_append]
  rfl

/-- One ALLOC, at saturation or below it. -/
theorem allocRun_one {id : Ident} {ws : List CmdWord} {s : State} (hs : ReadyFor (encode (.alloc id) :: ws) s)
    (hc : s.cursor.toNat ≤ 112) : ∃ n t, AllocRun n 1 ws s t := by
  rcases Nat.eq_or_lt_of_le hc with hfull | hlt
  · exact ⟨2, _, {
      run := runSteps_alloc_saturated hs (BitVec.eq_of_toNat_eq hfull)
      ready := ⟨hs.upc, hs.mode, hs.sched, rfl⟩
      cursor := by simp [hfull]
      responses := responses_append_alloc ..
      kept := fun _ => ⟨rfl, rfl, rfl, rfl, rfl⟩ }⟩
  · exact ⟨_, _, {
      run := runSteps_alloc hs hlt (b := ⟨s.cursor.toNat / 4, by omega⟩) rfl
      ready := ⟨hs.upc, hs.mode, hs.sched, rfl⟩
      cursor := by
        rw [afterAlloc, cursor_succ_toNat hlt]
        omega
      responses := responses_append_alloc ..
      kept := fun h => absurd h (by omega) }⟩

/-- The ALLOCs of ALLOCN, by induction on the identifiers. -/
theorem allocRun_batch (ids : List Ident) {ws : List CmdWord} {s : State}
    (hs : ReadyFor ((expandAllocn ids).map encode ++ ws) s) (hc : s.cursor.toNat ≤ 112) :
    ∃ n t, AllocRun n ids.length ws s t := by
  induction ids generalizing s with
  | nil =>
    exact ⟨0, s, {
      run := rfl
      ready := hs
      cursor := by
        rw [List.length_nil]
        omega
      responses := (List.append_nil _).symm
      kept := fun _ => ⟨rfl, rfl, rfl, rfl, rfl⟩ }⟩
  | cons id ids ih =>
    obtain ⟨n, t, hone⟩ := allocRun_one (id := id) hs hc
    have hcur := hone.cursor
    obtain ⟨m, u, hrest⟩ := ih hone.ready (by omega)
    rw [List.length_cons, Nat.add_comm]
    exact ⟨n + m, u, hone.trans hrest⟩

/-- A part of a batch is the batch of that part of the identifiers. -/
theorem expandAllocn_take (k : Nat) (ids : List Ident) :
    ((expandAllocn ids).map encode).take k = (expandAllocn (ids.take k)).map encode := by
  simp only [expandAllocn, List.map_take]

theorem expandAllocn_drop (k : Nat) (ids : List Ident) :
    ((expandAllocn ids).map encode).drop k = (expandAllocn (ids.drop k)).map encode := by
  simp only [expandAllocn, List.map_drop]

/-- Settles O27: the batch is the ALLOCs up to saturation and those past it, which leave CURSOR and the filters. -/
theorem allocnStopsAtSaturation : Obligations.AllocnStopsAtSaturation := by
  unfold Obligations.AllocnStopsAtSaturation
  intro ids s hu hm hsched hc hport
  generalize hroom : 112 - s.cursor.toNat = room
  rw [← List.take_append_drop room ((expandAllocn ids).map encode), expandAllocn_take, expandAllocn_drop] at hport
  obtain ⟨m, u, hfirst⟩ := allocRun_batch (ids.take room) ⟨hu, hm, hsched, hport⟩ hc
  have hcur := hfirst.cursor
  obtain ⟨k, t, hrest⟩ := allocRun_batch (ws := []) (ids.drop room)
    (by rw [List.append_nil]; exact hfirst.ready) (by omega)
  have hall := hfirst.trans hrest
  rw [← List.length_append, List.take_append_drop] at hall
  rw [List.length_take] at hcur
  have hpast : SameFilters u t := hrest.kept (by rw [List.length_drop]; omega)
  refine ⟨m + k, t, hall.run, ?_, hall.ready.mode, hall.cursor, hall.responses, m, u, Nat.le_add_right m k,
    hfirst.run, ?_, hfirst.ready.upc, hpast.banks, hpast.fmode, hpast.fscale, hpast.fact, hpast.cursor⟩
  · rw [runOver, hall.ready.port, hall.ready.upc]
    rfl
  · rw [hfirst.ready.port, expandAllocn_drop]

end Sys2Proof.Machine
end

section
/-! PROOF. TX step by step (43_transmit.md R190 to R197): one lemma per label with the exact next state, with the
mailbox free and while a request is pending. -/

namespace Sys2Proof.Machine

/-! ## The words of the mailbox -/

/-- The identifier word with TXRQ set has no reserved bit either. -/
theorem txidVal_request (id : Ident) : (txidVal id &&& 0xFFE00001#32) ||| 0x00000001#32 = txidVal id ||| 1#32 :=
  congrArg (· ||| 1#32) (txidVal_defined id)

/-- Setting TXRQ keeps STID (R194). -/
theorem stidOf_request (w : Word) : stidOf ((w &&& 0xFFE00001#32) ||| 0x00000001#32) = stidOf w := by
  apply word_ext
  intro k hk
  rw [Config.idw] at hk
  simp only [stidOf, Config.txidShift, BitVec.getLsbD_extractLsb', BitVec.getLsbD_or, BitVec.getLsbD_and]
  interval_cases k <;> simp

/-- TX_DONE gives the identifier word back (48_core_agent.md R233). -/
theorem txidVal_request_cleared (id : Ident) : (txidVal id ||| 1#32) &&& ~~~1#32 = txidVal id := by
  apply word_ext
  intro k hk
  simp only [BitVec.getLsbD_and, BitVec.getLsbD_or, BitVec.getLsbD_not, BitVec.getLsbD_one]
  rcases k with _ | k
  · simp only [txidVal_bit0]
    rfl
  · simp [hk]

/-! ## The step at each label -/

section
variable {id : Ident} {len : Byte} {d : Payload} {s : State}

theorem exec_tx_t1_free (hu : s.upc = .t1) (hq : s.txrq = false) :
    exec (.tx id len d) s = .next { s with txid := txidVal id, upc := .t2 } := by
  simp only [exec, execTx, hu, txT1, writeReg_txid_free id s hq]

theorem exec_tx_t1_pending (hu : s.upc = .t1) (hq : s.txrq = true) :
    exec (.tx id len d) s = .next { s with
      txid := if Config.raceLands s.draws then txidVal id else s.txid
      draws := s.draws + 1
      upc := .t2 } := by
  simp only [exec, execTx, hu, txT1, writeReg_txid_pending id s hq]

theorem exec_tx_t2_free (hu : s.upc = .t2) (hq : s.txrq = false) :
    exec (.tx id len d) s = .next { s with txdt := (dlcVal len).zeroExtend 32, upc := .t3 } := by
  simp only [exec, execTx, hu, txT2, fieldWrite_dlc_free (dlcVal len) s hq]

theorem exec_tx_t2_pending (hu : s.upc = .t2) (hq : s.txrq = true) :
    exec (.tx id len d) s = .next { s with
      txdt := if Config.raceLands s.draws then (dlcVal len).zeroExtend 32 else s.txdt
      draws := s.draws + 1
      upc := .t3 } := by
  simp only [exec, execTx, hu, txT2, fieldWrite_dlc_pending (dlcVal len) s hq]

theorem exec_tx_t3_free (hu : s.upc = .t3) (hq : s.txrq = false) :
    exec (.tx id len d) s = .next { s with txdl := lowWord d, upc := .t4 } := by
  simp only [exec, execTx, hu, txT3, writeReg_txdl_free _ s hq]

theorem exec_tx_t3_pending (hu : s.upc = .t3) (hq : s.txrq = true) :
    exec (.tx id len d) s = .next { s with
      txdl := if Config.raceLands s.draws then lowWord d else s.txdl
      draws := s.draws + 1
      upc := .t4 } := by
  simp only [exec, execTx, hu, txT3, writeReg_txdl_pending _ s hq]

theorem exec_tx_t4_free (hu : s.upc = .t4) (hq : s.txrq = false) :
    exec (.tx id len d) s = .next { s with txdh := highWord d, upc := .t5 } := by
  simp only [exec, execTx, hu, txT4, writeReg_txdh_free _ s hq]

theorem exec_tx_t4_pending (hu : s.upc = .t4) (hq : s.txrq = true) :
    exec (.tx id len d) s = .next { s with
      txdh := if Config.raceLands s.draws then highWord d else s.txdh
      draws := s.draws + 1
      upc := .t5 } := by
  simp only [exec, execTx, hu, txT4, writeReg_txdh_pending _ s hq]

theorem exec_tx_t5_free (hu : s.upc = .t5) (hq : s.txrq = false) :
    exec (.tx id len d) s = .next { s with
      txid := (s.txid &&& 0xFFE00001) ||| 1, poll := 0, upc := .t6 } := by
  simp only [exec, execTx, hu, txT5, fieldWrite_txrq_free s hq]
  rfl

theorem exec_tx_t5_pending (hu : s.upc = .t5) (hq : s.txrq = true) :
    exec (.tx id len d) s = .next { s with
      txid := if Config.raceLands s.draws then (s.txid &&& 0xFFE00001) ||| 1 else s.txid
      poll := 0
      draws := s.draws + 1
      upc := .t6 } := by
  simp only [exec, execTx, hu, txT5, fieldWrite_txrq_pending s hq]
  rfl

/-- A poll that sees TXRQ clear (R195). -/
theorem exec_tx_t6_done (hu : s.upc = .t6) (hq : s.txrq = false) :
    exec (.tx id len d) s = .next { s with upc := .idle, history := s.history ++ [.retire doneWord] } := by
  simp only [exec, execTx, hu, txT6_clear s hq, State.retire]

/-- A failed poll below the bound. -/
theorem exec_tx_t6_poll (hu : s.upc = .t6) (hq : s.txrq = true) (hp : s.poll.toNat + 1 < 1000000) :
    exec (.tx id len d) s = .next { s with poll := s.poll + 1 } := by
  have hbound : s.poll + 1 ≠ BitVec.ofNat 20 Config.txPollBound := by
    rw [ne_eq, poll_at_bound _ (by omega)]
    omega
  simp only [exec, execTx, hu, txT6_pending s hq, if_neg hbound]

/-- The failed poll that reaches the bound. -/
theorem exec_tx_t6_bound (hu : s.upc = .t6) (hq : s.txrq = true) (hp : s.poll.toNat + 1 = 1000000) :
    exec (.tx id len d) s = .next { s with
      poll := s.poll + 1, upc := .idle, history := s.history ++ [.retire notDoneWord] } := by
  have hbound := (poll_at_bound s.poll (by omega)).mpr hp
  simp only [exec, execTx, hu, txT6_pending s hq, if_pos hbound, State.retire]

end

/-! ## The obligations on the steps -/

/-- Settles O28: the steps at T1 to T5 with the mailbox free; DATA of the command word is the two data words. -/
theorem txLoadsMailboxAndRequests : Obligations.TxLoadsMailboxAndRequests := by
  unfold Obligations.TxLoadsMailboxAndRequests
  intro id len d s hq
  obtain ⟨hlow, hhigh⟩ := framePackingAndUnpacking.1 id len d
  rw [hlow, hhigh]
  exact ⟨fun hu => exec_tx_t1_free hu hq, fun hu => exec_tx_t2_free hu hq, fun hu => exec_tx_t3_free hu hq,
    fun hu => exec_tx_t4_free hu hq, fun hu => exec_tx_t5_free hu hq⟩

/-- Settles O29: the three outcomes of a poll at T6. -/
theorem txPollsUpToBound : Obligations.TxPollsUpToBound := by
  unfold Obligations.TxPollsUpToBound
  intro id len d s hu
  exact ⟨exec_tx_t6_done hu, exec_tx_t6_poll hu, exec_tx_t6_bound hu⟩

/-- Settles O30: the steps at T1 to T5 while a request is pending; whether T5's write lands or not, TXRQ stays 1 and
STID stays as it is. -/
theorem txWhilePendingIsARace : Obligations.TxWhilePendingIsARace := by
  unfold Obligations.TxWhilePendingIsARace
  intro id len d s hq
  refine ⟨fun hu => exec_tx_t1_pending hu hq, fun hu => exec_tx_t2_pending hu hq,
    fun hu => exec_tx_t3_pending hu hq, fun hu => exec_tx_t4_pending hu hq,
    fun hu => ⟨_, exec_tx_t5_pending hu hq, rfl, ?_⟩, fun hc => (txDone_enabled s).mpr ⟨hc, hq⟩⟩
  cases Config.raceLands s.draws with
  | false => exact ⟨hq, rfl⟩
  | true => exact ⟨by simp [State.txrq], stidOf_request s.txid⟩

end Sys2Proof.Machine
end

section
/-! PROOF. Whole TXs (43_transmit.md R190 to R196): the request, the failed polls and the ending as runs of the steps
above, on a schedule that gives the block its turns or on the exhausted one. -/

namespace Sys2Proof.Machine

/-! ## Turns of the block -/

/-- The next `n` turns are the block's, and after them the schedule is `ts`. -/
def BlockTurns (n : Nat) (sched ts : List Turn) : Prop :=
  (∀ t ∈ sched.take n, t = .block) ∧ sched.drop n = ts

theorem blockTurns_replicate (n : Nat) (ts : List Turn) : BlockTurns n (List.replicate n .block ++ ts) ts := by
  constructor
  · intro t ht
    rw [List.take_left' List.length_replicate] at ht
    exact List.eq_of_mem_replicate ht
  · exact List.drop_left' List.length_replicate

/-- The exhausted schedule gives the block every turn (log 2). -/
theorem blockTurns_nil (n : Nat) : BlockTurns n [] [] := by
  simp [BlockTurns]

section
variable {n : Nat} {s t : State} {ts : List Turn} {i : Instr}

theorem BlockTurns.sched_eq {sched : List Turn} (h : BlockTurns 0 sched ts) : sched = ts := h.2

theorem BlockTurns.tail {sched : List Turn} (h : BlockTurns (n + 1) sched ts) : BlockTurns n sched.tail ts := by
  obtain ⟨hblock, hrest⟩ := h
  cases sched with
  | nil => exact ⟨by simp, by simpa using hrest⟩
  | cons u us => exact ⟨fun t ht => hblock t (List.mem_cons_of_mem u ht), hrest⟩

theorem BlockTurns.nextTurn_eq (h : BlockTurns (n + 1) s.sched ts) : nextTurn s = .block := by
  cases hsched : s.sched with
  | nil => exact nextTurn_nil hsched
  | cons u us =>
    rw [nextTurn_cons hsched]
    exact h.1 u (by simp [hsched])

/-- A busy block's turn begins a run. -/
theorem runSteps_blockTurn (h : BlockTurns (n + 1) s.sched ts) (hu : s.upc ≠ .idle) (hd : decode s.cw = .ok i)
    (he : exec i { s with sched := s.sched.tail } = .next t) : runSteps (n + 1) s = runSteps n t := by
  apply runSteps_succ
  rw [step_seq h.nextTurn_eq hu hd, State.popTurn, he]

/-- An idle block's turn begins a run: the next word is issued and accepted. -/
theorem runSteps_issueTurn {ws : List CmdWord} (h : BlockTurns (n + 1) s.sched ts) (hu : s.upc = .idle)
    (hport : s.port = encode i :: ws) (hd : decode (encode i) = .ok i) (hm : s.mode = gateMode i) :
    runSteps (n + 1) s = runSteps n { s with
      port := ws
      sched := s.sched.tail
      cw := encode i
      upc := firstLabel i
      history := s.history ++ [.issue (encode i)] } := by
  apply runSteps_succ
  rw [step_issue h.nextTurn_eq hu hport hd]
  exact congrArg Host.Outcome.next (issue_accepted i _ hm)

end

/-! ## The parts of a whole TX

As in the runs of INIT, a premise given as `by …` is proved after the rewrite has found its state. -/

section
variable {k : Nat} {id : Ident} {len : Byte} {d : Payload} {ws : List CmdWord} {ts : List Turn} {s : State}

theorem decode_encode_tx (id : Ident) (len : Byte) (d : Payload) :
    decode (encode (.tx id len d)) = .ok (.tx id len d) :=
  decode_encode_of_wellFormed _ rfl

/-- Issue and T1 to T5 (43_transmit.md R191 to R194): the frame is in the mailbox, requested, and no poll counted. -/
theorem runSteps_tx_request (hturns : BlockTurns 6 s.sched ts) (hu : s.upc = .idle) (hm : s.mode = .normal)
    (hq : s.txrq = false) (hport : s.port = encode (.tx id len d) :: ws) :
    runSteps 6 s = .next { s with
      port := ws
      sched := ts
      cw := encode (.tx id len d)
      upc := .t6
      txid := txidVal id ||| 1#32
      txdt := (dlcVal len).zeroExtend 32
      txdl := lowWord d
      txdh := highWord d
      poll := 0
      history := s.history ++ [.issue (encode (.tx id len d))] } := by
  have hd := decode_encode_tx id len d
  have hfree := txidVal_bit0 id
  have hturns1 := hturns.tail
  have hturns2 := hturns1.tail
  have hturns3 := hturns2.tail
  have hturns4 := hturns3.tail
  have hturns5 := hturns4.tail
  rw [← hturns5.tail.sched_eq, ← txidVal_request, runSteps_issueTurn hturns hu hport hd hm,
    runSteps_blockTurn hturns1 (by nofun) (by exact hd) (exec_tx_t1_free rfl (by exact hq)),
    runSteps_blockTurn hturns2 (by nofun) (by exact hd) (exec_tx_t2_free rfl (by exact hfree)),
    runSteps_blockTurn hturns3 (by nofun) (by exact hd) (exec_tx_t3_free rfl (by exact hfree)),
    runSteps_blockTurn hturns4 (by nofun) (by exact hd) (exec_tx_t4_free rfl (by exact hfree)),
    runSteps_blockTurn hturns5 (by nofun) (by exact hd) (exec_tx_t5_free rfl (by exact hfree)), runSteps_zero]
  rfl

/-- Failed polls below the bound only use up their turns and are counted. -/
theorem runSteps_tx_failedPolls (k : Nat) (hturns : BlockTurns k s.sched ts)
    (hd : decode s.cw = .ok (.tx id len d)) (hu : s.upc = .t6) (hq : s.txrq = true)
    (hk : s.poll.toNat + k < 1000000) :
    runSteps k s = .next { s with sched := ts, poll := s.poll + BitVec.ofNat 20 k } := by
  induction k generalizing s with
  | zero => simp [runSteps_zero, ← hturns.sched_eq]
  | succ k ih =>
    have hpoll : (s.poll + 1).toNat = s.poll.toNat + 1 := by
      rw [BitVec.toNat_add, show (1 : BitVec 20).toNat = 1 from rfl]
      omega
    have hbelow : s.poll.toNat + 1 < 1000000 := by omega
    rw [runSteps_blockTurn hturns (by simp [hu]) hd (exec_tx_t6_poll hu hq hbelow),
      ih hturns.tail (by exact hd) (by exact hu) (by exact hq) (by simp only [hpoll]; omega)]
    simp [BitVec.ofNat_add, BitVec.add_assoc, BitVec.add_comm 1#20]

/-- The request is pending once T5 has set it. -/
theorem txidVal_request_bit0 (id : Ident) : (txidVal id ||| 1#32).getLsbD 0 = true := by
  simp

/-- TX_DONE on the command's frame, then the poll that sees TXRQ clear (R190, R195, 48_core_agent.md R233). -/
theorem runSteps_tx_served (hd : decode s.cw = .ok (.tx id len d)) (hu : s.upc = .t6) (hc : s.coreMode = .normal)
    (hid : s.txid = txidVal id ||| 1#32) (hlen : s.txdt = (dlcVal len).zeroExtend 32) (hlow : s.txdl = lowWord d)
    (hhigh : s.txdh = highWord d) (hsched : s.sched = .core .txDone :: .block :: ts) :
    runSteps 2 s = .next { s with
      sched := ts
      upc := .idle
      txid := txidVal id
      history := s.history ++ [.txConsumed ⟨id, dlcVal len, d⟩, .retire doneWord] } := by
  have hfree := txidVal_bit0 id
  have hpending : s.txrq = true := by rw [State.txrq, hid, txidVal_request_bit0]
  have hstid := stidOf_request (txidVal id)
  rw [txidVal_request, stidOf_txidVal] at hstid
  have hframe : mailboxFrame s = ⟨id, dlcVal len, d⟩ := by
    rw [mailboxFrame, hid, hlen, hlow, hhigh, hstid, dlcOf_zeroExtend, payloadOf_words]
  have hdone : coreEffect .txDone { s with sched := .block :: ts } = { s with
      sched := .block :: ts
      txid := txidVal id
      history := s.history ++ [.txConsumed ⟨id, dlcVal len, d⟩] } := by
    rw [← hframe, ← txidVal_request_cleared id, ← hid]
    rfl
  rw [runSteps_add 1 1 (runSteps_core hsched ((txDone_enabled _).mpr ⟨hc, hpending⟩)), hdone,
    runSteps_busy 0 rfl (by simp [hu]) (by exact hd) (exec_tx_t6_done (by exact hu) (by exact hfree)),
    runSteps_zero]
  simp

end

/-- Settles O31: the request, `k` failed polls, TX_DONE on the command's frame, and the poll that sees TXRQ clear. -/
theorem txServedAfterPolls : Obligations.TxServedAfterPolls := by
  unfold Obligations.TxServedAfterPolls
  intro k id len d ws ts s hk hu hm hc hq hport hsched
  have hd := decode_encode_tx id len d
  have hpending := txidVal_request_bit0 id
  rw [List.replicate_add, List.append_assoc] at hsched
  rw [show 8 + k = 6 + (k + 2) by omega,
    runSteps_add _ _ (runSteps_tx_request (hsched ▸ blockTurns_replicate 6 _) hu hm hq hport),
    runSteps_add _ _ (runSteps_tx_failedPolls k (blockTurns_replicate k _) (by exact hd) rfl (by exact hpending)
      (by simpa using hk)),
    runSteps_tx_served (by exact hd) rfl (by exact hc) rfl rfl rfl rfl rfl]
  simp [hu, txidVal, dlcVal, doneWord, Config.txidShift]

/-- Settles O32: the request, the failed polls below the bound, and the failed poll that reaches it. -/
theorem txGivesUpAtBound : Obligations.TxGivesUpAtBound := by
  unfold Obligations.TxGivesUpAtBound
  intro id len d ws s hu hm hq hsched hport
  have hd := decode_encode_tx id len d
  have hpending := txidVal_request_bit0 id
  have hturns : BlockTurns 6 s.sched [] := hsched ▸ blockTurns_nil 6
  rw [show 6 + Config.txPollBound = 6 + (999999 + (0 + 1)) from rfl,
    runSteps_add _ _ (runSteps_tx_request hturns hu hm hq hport),
    runSteps_add _ _ (runSteps_tx_failedPolls 999999 (blockTurns_nil _) (by exact hd) rfl (by exact hpending)
      (by simp)),
    runSteps_busy_nil 0 rfl (by nofun) (by exact hd) (exec_tx_t6_bound rfl (by exact hpending) (by simp)),
    runSteps_zero]
  simp [hu, hsched, txidVal, dlcVal, notDoneWord, Config.txidShift, Config.txPollBound]

end Sys2Proof.Machine
end

section
/-! PROOF. RX step by step with a frame pending (44_receive.md R211 to R214), and the round trip of a frame
(43_transmit.md R200) as a TX, a deposit and an RX, one run after another. -/

namespace Sys2Proof.Machine

/-! ## RX, the steps with a frame pending -/

section
variable {f : Frame} {fs : List Frame} {w1 w2 w3 w4 : Word} {ws : List CmdWord} {ts : List Turn} {s : State}

/-- With a frame pending no read uses a free value (44_receive.md R216). -/
theorem afterMailboxRead_pending (hf : s.fifo = f :: fs) : afterMailboxRead s = s := by
  simp only [afterMailboxRead, hf, List.isEmpty_cons, Bool.false_eq_true, if_false]

theorem exec_rx_r1_pending (hf : s.fifo = f :: fs) (hu : s.upc = .r1) :
    exec .rx s = .next { s with upc := .r2 (txidVal f.id) } := by
  obtain ⟨hread, -⟩ := readReg_rxMailbox_cons s.draws hf
  simp only [exec, execRx, hu, rxR1, afterMailboxRead_pending hf, seqRead, hread]

theorem exec_rx_r2_pending (hf : s.fifo = f :: fs) (hu : s.upc = .r2 w1) :
    exec .rx s = .next { s with upc := .r3 w1 (f.dlc.zeroExtend 32) } := by
  obtain ⟨-, hread, -⟩ := readReg_rxMailbox_cons s.draws hf
  simp only [exec, execRx, hu, rxR2, afterMailboxRead_pending hf, seqRead, hread]

theorem exec_rx_r3_pending (hf : s.fifo = f :: fs) (hu : s.upc = .r3 w1 w2) :
    exec .rx s = .next { s with upc := .r4 w1 w2 (lowWord f.data) } := by
  obtain ⟨-, -, hread, -⟩ := readReg_rxMailbox_cons s.draws hf
  simp only [exec, execRx, hu, rxR3, afterMailboxRead_pending hf, seqRead, hread]

theorem exec_rx_r4_pending (hf : s.fifo = f :: fs) (hu : s.upc = .r4 w1 w2 w3) :
    exec .rx s = .next { s with upc := .r5 w1 w2 w3 (highWord f.data) } := by
  obtain ⟨-, -, -, hread⟩ := readReg_rxMailbox_cons s.draws hf
  simp only [exec, execRx, hu, rxR4, afterMailboxRead_pending hf, seqRead, hread]

/-- The release and the response, whether a frame is pending or not (44_receive.md R214). -/
theorem exec_rx_r5 (hu : s.upc = .r5 w1 w2 w3 w4) :
    exec .rx s = .next { s with
      fifo := s.fifo.tail
      upc := .idle
      history := s.history ++ [.retire (rxWord w1 w2 w3 w4)] } := by
  simp only [exec, execRx, hu, rxR5, fieldWrite_rfom, State.retire]

/-! ## A whole RX -/

/-- Issue and R1 to R5 with a frame pending: the response is the word of the oldest frame's four words. -/
theorem runSteps_rx (hturns : BlockTurns 6 s.sched ts) (hu : s.upc = .idle) (hm : s.mode = .normal)
    (hport : s.port = encode .rx :: ws) (hf : s.fifo = f :: fs) :
    runSteps 6 s = .next { s with
      port := ws
      sched := ts
      cw := encode .rx
      upc := .idle
      fifo := fs
      history := s.history ++ [.issue (encode .rx),
        .retire (rxWord (txidVal f.id) (f.dlc.zeroExtend 32) (lowWord f.data) (highWord f.data))] } := by
  have hd : decode (encode .rx) = .ok .rx := decode_encode_of_wellFormed _ rfl
  have hturns1 := hturns.tail
  have hturns2 := hturns1.tail
  have hturns3 := hturns2.tail
  have hturns4 := hturns3.tail
  have hturns5 := hturns4.tail
  rw [← hturns5.tail.sched_eq, runSteps_issueTurn hturns hu hport hd hm,
    runSteps_blockTurn hturns1 (by nofun) (by exact hd) (exec_rx_r1_pending (by exact hf) rfl),
    runSteps_blockTurn hturns2 (by nofun) (by exact hd) (exec_rx_r2_pending (by exact hf) rfl),
    runSteps_blockTurn hturns3 (by nofun) (by exact hd) (exec_rx_r3_pending (by exact hf) rfl),
    runSteps_blockTurn hturns4 (by nofun) (by exact hd) (exec_rx_r4_pending (by exact hf) rfl),
    runSteps_blockTurn hturns5 (by nofun) (by exact hd) (exec_rx_r5 rfl), runSteps_zero]
  simp [hf]

/-! ## A deposit -/

/-- A frame that the filters accept goes to the end of a FIFO that has room (48_core_agent.md R234). -/
theorem runSteps_deposit (hsched : s.sched = .core (.rxPush f) :: ts) (hc : s.coreMode = .normal)
    (hroom : s.fifo.length < 2) (ha : accept (filterState s) f.id = true) :
    runSteps 1 s = .next { s with
      sched := ts, fifo := s.fifo ++ [f], history := s.history ++ [.rxDeposited f] } :=
  runSteps_core hsched ((rxPush_enabled f _).mpr ⟨hc, hroom, ha⟩)

end

/-- Settles O37: the TX served at its first poll, the deposit, which the default filter accepts, and the RX; the frame
comes back because unpacking inverts packing. -/
theorem loopbackRoundTrip : Obligations.LoopbackRoundTrip := by
  unfold Obligations.LoopbackRoundTrip
  intro id len d ws ts s hu hm hc hq hf hdefault hport hsched response
  obtain ⟨-, -, -, hframe⟩ := framePackingAndUnpacking.2 ⟨id, dlcVal len, d⟩
  have haccept : accept (filterState s) id = true := by rw [accept, hdefault, Bool.true_or]
  rw [List.append_assoc] at hsched
  have htx := txServedAfterPolls 0 id len d _ _ s (by omega) hu hm hc hq hport hsched
  rw [show 15 = (8 + 0) + (1 + 6) from rfl, runSteps_add _ _ htx,
    runSteps_add _ _ (runSteps_deposit rfl (by exact hc) (by simp [hf])
      (by simpa [filterState, State.finit] using haccept)),
    runSteps_rx (f := ⟨id, dlcVal len, d⟩) (fs := []) (blockTurns_replicate 6 ts) (by exact hu)
      (by exact hm) rfl (by simp [hf, dlcVal])]
  refine ⟨hframe, _, rfl, ?_, rfl, rfl, rfl⟩
  simp [response, dlcVal]

end Sys2Proof.Machine
end

section
/-! PROOF. Every command but INIT ends whatever CORE does (43_transmit.md R195, 48_core_agent.md R246): each step of SEQ
lessens the work that remains, turns of CORE leave it, and SEQ's fairness brings the steps. -/

namespace Sys2Proof.Machine

/-- The labels that a command other than INIT still has before it. -/
def labelsRemaining : Upc → Nat
  | .a0 => 10
  | .a1 => 9
  | .a2 => 8
  | .a3a _ _ _ => 7
  | .a3b _ _ => 6
  | .a3c _ _ => 5
  | .a3d _ _ => 4
  | .a3e _ => 3
  | .a4 => 2
  | .a5 => 1
  | .t1 => 6
  | .t2 => 5
  | .t3 => 4
  | .t4 => 3
  | .t5 => 2
  | .t6 => 1
  | .v1 => 1
  | .r1 => 5
  | .r2 _ => 4
  | .r3 _ _ => 3
  | .r4 _ _ _ => 2
  | .r5 _ _ _ _ => 1
  | .idle | .i0 | .i1 _ | .i2 _ | .i3 _ | .i4a | .i4b | .i4c | .i4d | .i4e | .i5 | .i6 | .i7 => 0

/-- What a command other than INIT still has before it: first the labels, then, at the label of the bounded wait, the
polls. -/
def workRemaining (s : State) : ℕ ×ₗ ℕ :=
  toLex (labelsRemaining s.upc, Config.txPollBound - s.poll.toNat)

/-- No INIT is under way, in a state of the invariant. -/
structure NotInInit (s : State) : Prop where
  inv : StateInv s
  label : s.upc.ofInit = false

section
variable {i : Instr} {s t : State}

/-! ## One turn -/

/-- A step to a later label lessens the work, whatever POLL becomes. -/
theorem workRemaining_lt_of_label (h : labelsRemaining t.upc < labelsRemaining s.upc) :
    workRemaining t < workRemaining s :=
  Prod.Lex.toLex_lt_toLex.mpr (.inl h)

/-- A failed poll below the bound leaves one fewer. -/
theorem workRemaining_poll (hp : s.poll.toNat < Config.txPollBound) :
    workRemaining { s with poll := s.poll + 1 } < workRemaining s := by
  have hbound : Config.txPollBound = 1000000 := rfl
  have hnext : (s.poll + 1).toNat = s.poll.toNat + 1 := by
    rw [BitVec.toNat_add, show (1 : BitVec 20).toNat = 1 from rfl]
    omega
  refine Prod.Lex.toLex_lt_toLex.mpr (.inr ⟨rfl, ?_⟩)
  rw [hnext]
  exact Nat.sub_succ_lt_self _ _ hp

/-- Outside INIT a step of SEQ counts a poll below the bound, or goes on to a later label or retires. -/
theorem SeqStep.lessens (hs : SeqStep i s t) (hu : s.upc.ofInit = false) (hpoll : pollFits s.upc s.poll = true) :
    t.upc.ofInit = false ∧ workRemaining t < workRemaining s := by
  cases hs
  case t6poll h6 _ _ =>
    have hp : s.poll.toNat < 1000000 := by simpa [pollFits, h6] using hpoll
    exact ⟨hu, workRemaining_poll hp⟩
  all_goals
    refine ⟨?_, workRemaining_lt_of_label ?_⟩ <;> simp_all [Upc.ofInit, labelsRemaining]

theorem NotInInit.blockTurn_lessens (h : NotInInit s) (hu : s.upc ≠ .idle) (hb : BlockCase s t) :
    NotInInit t ∧ workRemaining t < workRemaining s := by
  cases hb with
  | quiet hidle | illegal _ _ _ hidle | accepted _ _ _ hidle | gated _ _ _ hidle => exact absurd hidle hu
  | seq i _ hd hs =>
    obtain ⟨hlabel, hlt⟩ := hs.lessens h.label h.inv.poll
    exact ⟨⟨h.inv.seqStep_kept hd hs, hlabel⟩, hlt⟩

/-- A turn of CORE leaves the label and POLL. -/
theorem NotInInit.coreStep_kept (h : NotInInit s) (a : CoreAct) :
    NotInInit (coreStep a s) ∧
      workRemaining (coreStep a s) = workRemaining s := by
  have hinv := h.inv.coreStep_kept a
  rw [coreStep_registers] at hinv ⊢
  exact ⟨⟨hinv, h.label⟩, rfl⟩

/-- While a command runs no turn adds to the work that remains, and the block's lessens it. -/
theorem NotInInit.turn {τ : Turn} (h : NotInInit s) (hu : s.upc ≠ .idle) (ht : takeTurn τ s = .next t) :
    NotInInit t ∧ workRemaining t ≤ workRemaining s ∧
      (τ = .block → workRemaining t < workRemaining s) := by
  cases τ with
  | block =>
    obtain ⟨hnext, hlt⟩ := h.blockTurn_lessens hu (blockTurn_cases s t ht)
    exact ⟨hnext, hlt.le, fun _ => hlt⟩
  | core a =>
    cases ht
    obtain ⟨hnext, heq⟩ := h.coreStep_kept a
    exact ⟨hnext, heq.le, nofun⟩

end

/-! ## Fair runs -/

/-- Settles O57: in a run that never came to IDLE the work that remains would never grow, and where it is least SEQ's
fairness would bring a step that lessens it. -/
theorem otherCommandsAlwaysEnd : Obligations.OtherCommandsAlwaysEnd := by
  unfold Obligations.OtherCommandsAlwaysEnd
  intro σ τ hrun hseq hinv hlabel
  by_contra! hbusy
  have hout : ∀ n, NotInInit (σ n) := by
    intro n
    induction n with
    | zero => exact ⟨hinv, hlabel⟩
    | succ n ih => exact (ih.turn (hbusy n) (hrun n)).1
  have hanti : Antitone (workRemaining ∘ σ) :=
    antitone_nat_of_succ_le fun n => ((hout n).turn (hbusy n) (hrun n)).2.1
  obtain ⟨n, hleast⟩ : ∃ n, ∀ m, ¬workRemaining (σ m) < workRemaining (σ n) :=
    ⟨_, Function.not_lt_argmin (workRemaining ∘ σ)⟩
  obtain ⟨m, hnm, hblock⟩ := hseq n (hbusy n)
  obtain ⟨-, -, hlt⟩ := (hout m).turn (hbusy m) (hrun m)
  exact hleast (m + 1) ((hlt hblock).trans_le (hanti hnm))

end Sys2Proof.Machine
end

section
/-! PROOF. AVAIL and RX (44_receive.md R210 to R216): AVAIL's count, the steps of RX at an empty FIFO, the fields of
both responses, and a whole RX with a deposit between its reads. -/

namespace Sys2Proof.Machine

/-! ## AVAIL -/

section
variable {s : State}

theorem exec_avail_v1 (hu : s.upc = .v1) :
    exec .avail s = .next { s with upc := .idle, history := s.history ++ [.retire (availWord s.fmp)] } := by
  simp only [exec, execAvail, hu, availV1, seqRead_rxf_count, State.retire]

/-- FMP is the length of FIFO, which its two bits hold (10_state.md R24, R46). -/
theorem fmp_toNat_of_length_le (h : s.fifo.length ≤ 2) : s.fmp.toNat = s.fifo.length := by
  rw [State.fmp, BitVec.toNat_ofNat]
  omega

end

/-- The fields of AVAIL's response (R210): DONE, COUNT, and zeros above. -/
theorem availWord_fields (c : BitVec 2) :
    (availWord c).extractLsb' 0 8 = 1 ∧ (availWord c).extractLsb' 8 2 = c ∧
      (availWord c).extractLsb' 10 86 = 0 := by
  refine ⟨field_eq_of_bits 0 ?_, field_eq_of_bits 8 ?_, field_eq_of_bits 10 ?_⟩ <;> grind [availWord_bit]

/-- Settles O33: the count is FMP, whose two bits hold the length of a FIFO of at most two frames. -/
theorem availCountsFrames : Obligations.AvailCountsFrames := by
  unfold Obligations.AvailCountsFrames
  intro s hu hlen
  obtain ⟨hdone, hcount, hrest⟩ := availWord_fields s.fmp
  exact ⟨_, exec_avail_v1 hu, hdone, by rw [hcount, fmp_toNat_of_length_le hlen], hrest⟩

/-! ## RX with a frame pending -/

/-- Settles O34: the steps of RX with a frame pending, at R5 with the response word written out. -/
theorem rxReturnsOldestFrame : Obligations.RxReturnsOldestFrame := by
  unfold Obligations.RxReturnsOldestFrame
  intro f fs w1 w2 w3 w4 s hf
  refine ⟨exec_rx_r1_pending hf, exec_rx_r2_pending hf, exec_rx_r3_pending hf, exec_rx_r4_pending hf,
    fun hu => ?_⟩
  rw [exec_rx_r5 hu, hf]
  rfl

/-! ## RX at an empty FIFO -/

section
variable {w1 w2 w3 : Word} {s : State}

/-- At an empty FIFO a read of the receive mailbox uses one free value (R216). -/
theorem afterMailboxRead_empty (hf : s.fifo = []) : afterMailboxRead s = s.drawn := by
  simp only [afterMailboxRead, hf, List.isEmpty_nil, if_true]

theorem exec_rx_r1_empty (hf : s.fifo = []) (hu : s.upc = .r1) :
    exec .rx s = .next { s with upc := .r2 (txidVal (Config.drawId s.draws)), draws := s.draws + 1 } := by
  obtain ⟨hread, -⟩ := readReg_rxMailbox_nil s.draws hf
  simp only [exec, execRx, hu, rxR1, afterMailboxRead_empty hf, State.drawn, seqRead, hread]

theorem exec_rx_r2_empty (hf : s.fifo = []) (hu : s.upc = .r2 w1) :
    exec .rx s =
      .next { s with upc := .r3 w1 ((Config.drawDlc s.draws).zeroExtend 32), draws := s.draws + 1 } := by
  obtain ⟨-, hread, -⟩ := readReg_rxMailbox_nil s.draws hf
  simp only [exec, execRx, hu, rxR2, afterMailboxRead_empty hf, State.drawn, seqRead, hread]

theorem exec_rx_r3_empty (hf : s.fifo = []) (hu : s.upc = .r3 w1 w2) :
    exec .rx s = .next { s with upc := .r4 w1 w2 (Config.drawLow s.draws), draws := s.draws + 1 } := by
  obtain ⟨-, -, hread, -⟩ := readReg_rxMailbox_nil s.draws hf
  simp only [exec, execRx, hu, rxR3, afterMailboxRead_empty hf, State.drawn, seqRead, hread]

theorem exec_rx_r4_empty (hf : s.fifo = []) (hu : s.upc = .r4 w1 w2 w3) :
    exec .rx s = .next { s with upc := .r5 w1 w2 w3 (Config.drawHigh s.draws), draws := s.draws + 1 } := by
  obtain ⟨-, -, -, hread⟩ := readReg_rxMailbox_nil s.draws hf
  simp only [exec, execRx, hu, rxR4, afterMailboxRead_empty hf, State.drawn, seqRead, hread]

end

/-- What RX's response holds beside ID and LEN (30_encoding.md R116): DONE, the two unused fields, and DATA. -/
theorem rxWord_done_unused_data (w1 w2 w3 w4 : Word) :
    (rxWord w1 w2 w3 w4).extractLsb' 0 8 = 1 ∧ (rxWord w1 w2 w3 w4).extractLsb' 12 4 = 0 ∧
      (rxWord w1 w2 w3 w4).extractLsb' 27 5 = 0 ∧ (rxWord w1 w2 w3 w4).extractLsb' 32 64 = w4 ++ w3 := by
  refine ⟨field_eq_of_bits 0 ?_, field_eq_of_bits 12 ?_, field_eq_of_bits 27 ?_, field_eq_of_bits 32 ?_⟩ <;>
    grind [rxWord_bit]

/-- Settles O35: the steps of RX at an empty FIFO, where the release finds nothing to remove; ID and LEN of the
response are those of the frame it carries. -/
theorem rxOnEmptyFifoReturnsDraws : Obligations.RxOnEmptyFifoReturnsDraws := by
  unfold Obligations.RxOnEmptyFifoReturnsDraws
  intro w1 w2 w3 w4 s hf
  obtain ⟨hdone, hpad, hpad', hdata⟩ := rxWord_done_unused_data w1 w2 w3 w4
  have hframe := frameOfResponse_rxWord w1 w2 w3 w4
  refine ⟨exec_rx_r1_empty hf, exec_rx_r2_empty hf, exec_rx_r3_empty hf, exec_rx_r4_empty hf,
    fun hu => ⟨?_, hdone, congrArg Frame.dlc hframe, hpad, congrArg Frame.id hframe, hpad', hdata⟩⟩
  have hrelease : s.fifo.tail = s.fifo := by rw [hf, List.tail_nil]
  rw [exec_rx_r5 hu, hrelease]

/-! ## A whole RX in two parts, with a turn of CORE between them -/

section
variable {f : Frame} {fs : List Frame} {w1 : Word} {ws : List CmdWord} {ts : List Turn} {s : State}

theorem decode_encode_rx : decode (encode .rx) = .ok .rx :=
  decode_encode_of_wellFormed _ rfl

/-- Issue and R1: the identifier of the oldest frame has been read. -/
theorem runSteps_rx_firstRead (hturns : BlockTurns 2 s.sched ts) (hu : s.upc = .idle) (hm : s.mode = .normal)
    (hport : s.port = encode .rx :: ws) (hf : s.fifo = f :: fs) :
    runSteps 2 s = .next { s with
      port := ws
      sched := ts
      cw := encode .rx
      upc := .r2 (txidVal f.id)
      history := s.history ++ [.issue (encode .rx)] } := by
  rw [← hturns.tail.tail.sched_eq, runSteps_issueTurn hturns hu hport decode_encode_rx hm,
    runSteps_blockTurn hturns.tail (by nofun) decode_encode_rx (exec_rx_r1_pending (by exact hf) rfl),
    runSteps_zero]

/-- R2 to R5: the other three reads are of the frame that is then the oldest, which R5 removes. -/
theorem runSteps_rx_laterReads (hturns : BlockTurns 4 s.sched ts) (hu : s.upc = .r2 w1)
    (hcw : s.cw = encode .rx) (hf : s.fifo = f :: fs) :
    runSteps 4 s = .next { s with
      sched := ts
      upc := .idle
      fifo := fs
      history := s.history ++
        [.retire (rxWord w1 (f.dlc.zeroExtend 32) (lowWord f.data) (highWord f.data))] } := by
  have hd : decode s.cw = .ok .rx := by rw [hcw, decode_encode_rx]
  have hturns2 := hturns.tail
  have hturns3 := hturns2.tail
  have hturns4 := hturns3.tail
  rw [← hturns4.tail.sched_eq,
    runSteps_blockTurn hturns (by simp [hu]) hd (exec_rx_r2_pending (by exact hf) (by exact hu)),
    runSteps_blockTurn hturns2 (by nofun) (by exact hd) (exec_rx_r3_pending (by exact hf) rfl),
    runSteps_blockTurn hturns3 (by nofun) (by exact hd) (exec_rx_r4_pending (by exact hf) rfl),
    runSteps_blockTurn hturns4 (by nofun) (by exact hd) (exec_rx_r5 rfl), runSteps_zero]
  simp [hf]

end

/-- Settles O36: the first read, the deposit, which finds room behind the frame being read, and the later reads; the
response carries that frame because unpacking inverts packing. -/
theorem rxWholeCommand : Obligations.RxWholeCommand := by
  unfold Obligations.RxWholeCommand
  intro f g ws ts s hu hm hc hf haccept hport hsched response
  obtain ⟨-, -, -, hframe⟩ := framePackingAndUnpacking.2 f
  refine ⟨hframe, ?_⟩
  have hturns : BlockTurns 2 s.sched (.core (.rxPush g) :: (List.replicate 4 .block ++ ts)) := by
    rw [hsched]
    exact blockTurns_replicate 2 _
  rw [show 7 = 2 + (1 + 4) from rfl, runSteps_add _ _ (runSteps_rx_firstRead hturns hu hm hport hf),
    runSteps_add _ _ (runSteps_deposit rfl (by exact hc) (by simp [hf]) (by exact haccept)),
    runSteps_rx_laterReads (f := f) (fs := [g]) (blockTurns_replicate 4 ts) rfl rfl (by simp [hf])]
  simp [response, hu]

end Sys2Proof.Machine
end

section
/-! PROOF. The steps of CORE (48_core_agent.md R231 to R240): what each needs and does, what a turn of CORE may change,
and the acceptance predicate against the two hypotheses of R236. -/

namespace Sys2Proof.Machine

/-! ## The acknowledgments -/

/-- In CORE_MODE = Off without a request, as after reset, CORE does nothing (R231 to R234). -/
theorem coreEnabled_off {s : State} (hoff : s.coreMode = .off) (hinrq : s.inrq = false) (a : CoreAct) :
    coreEnabled a s = false := by
  cases a <;> simp [coreEnabled, hoff, hinrq]

/-- Settles O38: when each acknowledgment is enabled, its effect, and STS afterwards. -/
theorem acknowledgmentSteps : Obligations.AcknowledgmentSteps := by
  unfold Obligations.AcknowledgmentSteps
  exact ⟨fun s => ⟨ackInit_enabled s, rfl, fun _ => rfl⟩, fun s => ⟨ackNormal_enabled s, rfl, fun _ => rfl⟩,
    fun _ a hoff hinrq => coreEnabled_off hoff hinrq a⟩

/-! ## TX_DONE -/

/-- Clearing TXRQ keeps STID. -/
theorem stidOf_requestCleared (w : Word) : stidOf (w &&& ~~~1#32) = stidOf w := by
  apply word_ext
  intro k hk
  rw [Config.idw] at hk
  simp only [stidOf, Config.txidShift, BitVec.getLsbD_extractLsb', BitVec.getLsbD_and, BitVec.getLsbD_not,
    BitVec.getLsbD_one]
  simp [hk, show 21 + k < 32 by omega]

theorem coreEffect_txDone_txrq (s : State) : (coreEffect .txDone s).txrq = false := by
  simp [coreEffect, State.txrq]

/-- Settles O39: the frame consumed is that of the mailbox registers, whose data words pack its bytes. -/
theorem txDoneStep : Obligations.TxDoneStep := by
  unfold Obligations.TxDoneStep
  intro s
  exact ⟨txDone_enabled s, ⟨mailboxFrame s, rfl, rfl, lowWord_payloadOf _ _, highWord_payloadOf _ _, rfl⟩,
    coreEffect_txDone_txrq s, stidOf_requestCleared s.txid⟩

/-! ## RX_PUSH and the release -/

/-- A full FIFO takes no frame (R238). -/
theorem coreEnabled_rxPush_full {s : State} (hfull : s.fifo.length = 2) (f : Frame) :
    coreEnabled (.rxPush f) s = false := by
  simp [coreEnabled, hfull, Config.fifoDepth]

/-- A write of RXF removes the head of FIFO or does nothing (R235). -/
theorem writeReg_rxf (v : Word) (s : State) :
    writeReg .rxf v s = if v.getLsbD 5 then { s with fifo := s.fifo.tail } else s := rfl

/-- The release finds nothing to remove in an empty FIFO (R235). -/
theorem writeReg_rxf_empty (v : Word) {s : State} (hf : s.fifo = []) : writeReg .rxf v s = s := by
  have hrelease : { s with fifo := s.fifo.tail } = s := by rw [hf, List.tail_nil, ← hf]
  rw [writeReg_rxf, hrelease, ite_self]

/-- RFOM reads 0 (10_state.md R24). -/
theorem readReg_rxf_rfom (k : Nat) (s : State) : (readReg k .rxf s).getLsbD 5 = false := by
  simp [readReg]

/-- Settles O40: RX_PUSH by what enables it, and a write of RXF by its bit 5. -/
theorem fifoPushAndRelease : Obligations.FifoPushAndRelease := by
  unfold Obligations.FifoPushAndRelease
  refine ⟨fun f s => ⟨rxPush_enabled f s, rfl, fun hfull =>
      coreStep_not_enabled _ s (coreEnabled_rxPush_full hfull f)⟩,
    fun k v s => ⟨fun hv f fs hf => ?_, writeReg_rxf_empty v, fun hv => ?_, readReg_rxf_rfom k _⟩⟩
  · rw [writeReg_rxf, if_pos hv, hf, List.tail_cons]
  · rw [writeReg_rxf, hv, if_neg Bool.false_ne_true]

/-! ## What a turn of CORE may change -/

/-- Outside Normal neither TX_DONE nor RX_PUSH is enabled (R240). -/
theorem coreEnabled_outside_normal {s : State} (h : s.coreMode ≠ .normal) (f : Frame) :
    coreEnabled .txDone s = false ∧ coreEnabled (.rxPush f) s = false := by
  simp [coreEnabled, h]

/-- Settles O41: a step that is not enabled changes nothing, and each that is changes what its effect names. -/
theorem coreChangesNothingElse : Obligations.CoreChangesNothingElse := by
  unfold Obligations.CoreChangesNothingElse
  refine ⟨fun a s => ?_, fun s f hm => coreEnabled_outside_normal hm f⟩
  cases ha : coreEnabled a s with
  | false =>
    refine ⟨s.coreMode, s.txid, [], [], ?_, .inl rfl⟩
    rw [coreStep_not_enabled a s ha, List.append_nil, List.append_nil]
  | true =>
    rw [coreStep_enabled a s ha]
    cases a with
    | ackInit => exact ⟨.init, s.txid, [], [.ackInit], by rw [List.append_nil]; rfl, .inl rfl⟩
    | ackNormal => exact ⟨.normal, s.txid, [], [.ackNormal], by rw [List.append_nil]; rfl, .inl rfl⟩
    | rxPush f => exact ⟨s.coreMode, s.txid, [f], [.rxDeposited f], rfl, .inl rfl⟩
    | txDone =>
      obtain ⟨-, hpending⟩ := (txDone_enabled s).mp ha
      exact ⟨s.coreMode, s.txid &&& 0xFFFFFFFE, [], [.txConsumed (mailboxFrame s)],
        by rw [List.append_nil]; rfl, .inr ⟨hpending, rfl⟩⟩

/-! ## Acceptance -/

section
variable {fs fs' : FilterState}

/-- A masked word of the per-bank registers has no bit beyond the banks. -/
theorem lt_of_masked_bit {x : Word} {k : Nat} (hx : x &&& definedBits .fact = x) (hk : x.getLsbD k = true) :
    k < 28 := by
  rw [← hx, BitVec.getLsbD_and, show definedBits .fact = 0x0FFFFFFF#32 from rfl, bankMask_bit] at hk
  simpa using And.right (Bool.and_eq_true_iff.mp hk)

/-- What is looked at of an unallocated bank is erased, so filter states that agree on the others look the same. -/
theorem SameActive.activeOnly_eq (h : SameActive fs fs') (hm : fs.fact &&& definedBits .fact = fs.fact) :
    activeOnly fs = activeOnly fs' := by
  obtain ⟨hfinit, hfact, hbanks⟩ := h
  have hbits : ∀ k, fs.fact.getLsbD k = true →
      fs.fmode.getLsbD k = fs'.fmode.getLsbD k ∧ fs.fscale.getLsbD k = fs'.fscale.getLsbD k :=
    fun k hk => (hbanks ⟨k, lt_of_masked_bit hm hk⟩ hk).imp_right And.left
  have hmode : fs.fmode &&& fs.fact = fs'.fmode &&& fs.fact := by
    refine word_ext fun k _ => ?_
    cases hk : fs.fact.getLsbD k <;> simp [hk, hbits]
  have hscale : fs.fscale &&& fs.fact = fs'.fscale &&& fs.fact := by
    refine word_ext fun k _ => ?_
    cases hk : fs.fact.getLsbD k <;> simp [hk, hbits]
  have hregs : ∀ b : Fin Config.nBanks, (if fs.fact.getLsbD b then fs.banks[b] else ⟨0, 0⟩) =
      if fs.fact.getLsbD b then fs'.banks[b] else ⟨0, 0⟩ := by
    intro b
    split
    · exact (hbanks b ‹_›).2.2
    · rfl
  simp only [activeOnly, hmode, hscale, hregs, hfinit, ← hfact]

/-- The default filter is a matter of bank 0, which it has allocated. -/
theorem SameActive.isDefaultFilter_eq (h : SameActive fs fs') : isDefaultFilter fs = isDefaultFilter fs' := by
  obtain ⟨hfinit, hfact, hbanks⟩ := h
  by_cases hone : fs.fact = 1#32
  · obtain ⟨hmode, hscale, hbank⟩ := hbanks 0 (by rw [hone]; rfl)
    rw [Fin.val_zero] at hmode hscale
    simp only [isDefaultFilter, hfinit, hfact, hmode, hscale, hbank]
  · have hnot : (fs.fact == 1#32) = false := beq_false_of_ne hone
    simp only [isDefaultFilter, ← hfact, hnot, Bool.and_false, Bool.false_and]

/-- Erasing the unallocated banks leaves the allocated ones. -/
theorem sameActive_activeOnly (fs : FilterState) : SameActive fs (activeOnly fs) := by
  refine ⟨rfl, rfl, fun b hb => ?_⟩
  have hb' : fs.fact.getLsbD b.val = true := hb
  simp [activeOnly, hb']

end

theorem defaultMatchAll_accept : DefaultMatchAll accept := by
  intro fs id h
  rw [accept, h, Bool.true_or]

theorem inactiveIgnored_accept : InactiveIgnored accept := by
  intro fs fs' id hm h
  rw [accept, accept, h.isDefaultFilter_eq, h.activeOnly_eq hm]

/-- A predicate that meets the two hypotheses is one that `accept` could be: true on the default filter, and otherwise
a function of the allocated banks (log 11). -/
theorem eq_default_or_activeOnly {A : FilterState → Ident → Bool} (hall : DefaultMatchAll A)
    (hblind : InactiveIgnored A) {fs : FilterState} (hm : fs.fact &&& definedBits .fact = fs.fact) (id : Ident) :
    A fs id = (isDefaultFilter fs || A (activeOnly fs) id) := by
  cases hd : isDefaultFilter fs with
  | true => rw [Bool.true_or, hall fs id hd]
  | false => rw [Bool.false_or, hblind fs _ id hm (sameActive_activeOnly fs)]

/-- Settles O42: `accept` meets both hypotheses, and they leave no other form. -/
theorem acceptanceHypotheses : Obligations.AcceptanceHypotheses := by
  unfold Obligations.AcceptanceHypotheses
  exact ⟨defaultMatchAll_accept, inactiveIgnored_accept,
    fun A hall hblind fs id hm => eq_default_or_activeOnly hall hblind hm id⟩

end Sys2Proof.Machine
end

section
/-! PROOF. Issue, the turns by their decoded command, and what the history records (48_core_agent.md R241, R245, R250 to
R252): each turn of the block appends the events of an Issue, a refusal, a retirement or none, each turn of CORE its
own event. -/

namespace Sys2Proof.Machine

section
variable {i : Instr} {s t : State}

/-! ## The command that a turn runs -/

/-- Settles O13: the cases of `nextTurn` and, for the block, of the label and the port. -/
theorem stepRunsTheDecodedCommand : Obligations.StepRunsTheDecodedCommand := by
  unfold Obligations.StepRunsTheDecodedCommand
  intro s
  refine ⟨fun hn => ⟨fun w ws i hu hp hd => ?_, fun i hu hd => step_seq hn hu hd, fun hu hp => ?_⟩, fun a hn =>
    step_core s a hn⟩
  · rw [step_block s hn]
    exact blockTurn_issue s.popTurn w ws i hu hp hd
  · rw [step_block s hn]
    exact blockTurn_quiet s.popTurn hu hp

/-- Settles O14: at IDLE a command's meaning is its Issue, which the gate accepts. -/
theorem issueLatchesTheCommand : Obligations.IssueLatchesTheCommand := by
  unfold Obligations.IssueLatchesTheCommand
  intro i s hu hm
  rw [exec_idle i s hu, issue_accepted i s hm]
  cases i <;> rfl

/-! ## What a turn of the block records -/

theorem firstLabel_ne_idle (i : Instr) : firstLabel i ≠ .idle := by
  cases i <;> nofun

/-- A step of a command records its response when it retires, and nothing before. -/
theorem SeqStep.history_cases (h : SeqStep i s t) (hu : s.upc ≠ .idle) :
    (t.upc ≠ .idle ∧ t.history = s.history) ∨ (t.upc = .idle ∧ ∃ rw, t.history = s.history ++ [.retire rw]) := by
  cases h
  case i7 | a0full | a5 | t6done | t6bound | v1 | r5 => exact .inr ⟨rfl, _, rfl⟩
  case i2stay | i6stay | t6poll => exact .inl ⟨hu, rfl⟩
  all_goals exact .inl ⟨nofun, rfl⟩

theorem SeqStep.coreMode_eq (h : SeqStep i s t) : t.coreMode = s.coreMode := by
  cases h <;> rfl

/-- `es` is what a turn of the block records: an Issue with its refusal, an Issue that begins a command, the response
that ends one, or nothing. -/
inductive BlockRecord (s t : State) : List Event → Prop where
  | nothing : (t.upc = .idle ↔ s.upc = .idle) → BlockRecord s t []
  | refused (w : CmdWord) : s.upc = .idle → t.upc = .idle → BlockRecord s t [.issue w, .refuse refusedWord]
  | begun (w : CmdWord) : s.upc = .idle → t.upc ≠ .idle → BlockRecord s t [.issue w]
  | ended (rw : CmdWord) : s.upc ≠ .idle → t.upc = .idle → BlockRecord s t [.retire rw]

theorem BlockCase.record (h : BlockCase s t) : ∃ es, BlockRecord s t es ∧ t.history = s.history ++ es := by
  cases h with
  | quiet _ _ ht => exact ⟨[], .nothing (ht ▸ Iff.rfl), by rw [ht, List.append_nil]⟩
  | illegal w ws _ hu _ _ ht => exact ⟨_, .refused w hu (ht ▸ hu), ht ▸ rfl⟩
  | gated _ ws i hu _ _ _ ht => exact ⟨_, .refused (encode i) hu (ht ▸ hu), ht ▸ rfl⟩
  | accepted _ ws i hu _ _ _ ht => exact ⟨_, .begun (encode i) hu (ht ▸ firstLabel_ne_idle i), ht ▸ rfl⟩
  | seq i hu _ hs =>
    rcases hs.history_cases hu with ⟨ht, hh⟩ | ⟨ht, rw, hh⟩
    · exact ⟨[], .nothing (iff_of_false ht hu), by rw [hh, List.append_nil]⟩
    · exact ⟨_, .ended rw hu ht, hh⟩

theorem BlockCase.coreMode_eq (h : BlockCase s t) : t.coreMode = s.coreMode := by
  rcases h.seq_or_same with ⟨i, hs⟩ | hsame
  · exact hs.coreMode_eq
  · exact (congrArg State.coreMode hsame :)

/-- The event of a step of CORE (R231 to R234). -/
def coreEvent (a : CoreAct) (s : State) : Event :=
  match a with
  | .ackInit => .ackInit
  | .ackNormal => .ackNormal
  | .txDone => .txConsumed (mailboxFrame s)
  | .rxPush f => .rxDeposited f

theorem coreEffect_history (a : CoreAct) (s : State) :
    (coreEffect a s).history = s.history ++ [coreEvent a s] := by
  cases a <;> rfl

/-! ## One response per word -/

theorem issuedCount_append (h es : List Event) : issuedCount (h ++ es) = issuedCount h + issuedCount es :=
  List.countP_append

theorem responses_append (h es : List Event) : responses (h ++ es) = responses h ++ responses es :=
  List.filterMap_append

/-- CORE issues no word and delivers no response. -/
theorem coreEvent_uncounted (a : CoreAct) (s : State) :
    issuedCount [coreEvent a s] = 0 ∧ responses [coreEvent a s] = [] := by
  cases a <;> exact ⟨rfl, rfl⟩

theorem ResponseInv.coreStep_kept (h : ResponseInv s) (a : CoreAct) : ResponseInv (coreStep a s) := by
  cases ha : coreEnabled a s with
  | false => rwa [coreStep_not_enabled a s ha]
  | true =>
    obtain ⟨hissued, hresponses⟩ := coreEvent_uncounted a s
    have hupc : (coreEffect a s).upc = s.upc := by rw [coreEffect_registers]
    rw [coreStep_enabled a s ha, ResponseInv, coreEffect_history, issuedCount_append, responses_append, hissued,
      hresponses, hupc, List.append_nil]
    exact h

/-- An Issue with its refusal adds one to both counts, and an Issue alone is outstanding until the response that ends
the command. -/
theorem BlockRecord.responseInv {es : List Event} (h : BlockRecord s t es) (hh : t.history = s.history ++ es)
    (hinv : ResponseInv s) : ResponseInv t := by
  obtain ⟨hidle, hbusy⟩ := hinv
  rw [ResponseInv, hh, issuedCount_append, responses_append, List.length_append]
  cases h with
  | nothing hiff => exact ⟨fun ht => hidle (hiff.mp ht), fun ht => hbusy fun hs => ht (hiff.mpr hs)⟩
  | refused w hs ht => exact ⟨fun _ => congrArg (· + 1) (hidle hs), absurd ht⟩
  | begun w hs ht => exact ⟨fun ht' => absurd ht' ht, fun _ => congrArg (· + 1) (hidle hs)⟩
  | ended rw hs ht => exact ⟨fun _ => hbusy hs, absurd ht⟩

end

/-- Settles O52: the turns of CORE count nothing, and the block's by what each records. -/
theorem oneResponsePerWord : Obligations.OneResponsePerWord := by
  unfold Obligations.OneResponsePerWord
  intro s t hinv hstep
  have hpop : ResponseInv s.popTurn := hinv
  rcases step_cases s t hstep with ⟨a, -, rfl⟩ | ⟨-, hb⟩
  · exact hpop.coreStep_kept a
  · obtain ⟨es, hes, hh⟩ := hb.record
    exact hes.responseInv hh hpop

/-! ## The acknowledgments -/

section
variable {s t : State}

theorem ackInitCount_append (h es : List Event) : ackInitCount (h ++ es) = ackInitCount h + ackInitCount es :=
  List.count_append

theorem ackNormalCount_append (h es : List Event) :
    ackNormalCount (h ++ es) = ackNormalCount h + ackNormalCount es :=
  List.count_append

/-- What leaves CORE's mode and records no acknowledgment leaves the count of them right. -/
theorem AckInv.of_uncounted {es : List Event} (h : AckInv s) (hmode : t.coreMode = s.coreMode)
    (hh : t.history = s.history ++ es) (hinit : ackInitCount es = 0) (hnormal : ackNormalCount es = 0) :
    AckInv t := by
  rw [AckInv, hmode, hh, ackInitCount_append, ackNormalCount_append, hinit, hnormal]
  exact h

theorem BlockRecord.no_acknowledgment {es : List Event} (h : BlockRecord s t es) :
    ackInitCount es = 0 ∧ ackNormalCount es = 0 := by
  cases h <;> exact ⟨rfl, rfl⟩

/-- Inside the invariant an acknowledgment comes from the mode before it only: ACK_INIT from Off, ACK_NORMAL from
Init. -/
theorem AckInv.coreStep_kept (h : AckInv s) (hinv : StateInv s) (a : CoreAct) : AckInv (coreStep a s) := by
  cases ha : coreEnabled a s with
  | false => rwa [coreStep_not_enabled a s ha]
  | true =>
    rw [coreStep_enabled a s ha]
    have hh := coreEffect_history a s
    cases a with
    | txDone | rxPush f => exact h.of_uncounted rfl hh rfl rfl
    | ackInit =>
      obtain ⟨-, hoff⟩ := hinv.upc_of_ackInit ha
      simp only [AckInv, hoff] at h
      obtain ⟨hinit, hnormal⟩ := h
      rw [AckInv, hh, ackInitCount_append, ackNormalCount_append, hinit, hnormal]
      exact ⟨rfl, rfl⟩
    | ackNormal =>
      obtain ⟨-, hmode⟩ := (ackNormal_enabled s).mp ha
      simp only [AckInv, hmode] at h
      obtain ⟨hinit, hnormal⟩ := h
      rw [AckInv, hh, ackInitCount_append, ackNormalCount_append, hinit, hnormal]
      exact ⟨rfl, rfl⟩

end

/-- Settles O53: the acknowledgments by the mode they come from; every other turn records none and leaves CORE's
mode. -/
theorem acknowledgmentsHappenOnce : Obligations.AcknowledgmentsHappenOnce := by
  unfold Obligations.AcknowledgmentsHappenOnce
  intro s t hinv hack hstep
  have hpop : AckInv s.popTurn := hack
  rcases step_cases s t hstep with ⟨a, -, rfl⟩ | ⟨-, hb⟩
  · exact hpop.coreStep_kept hinv.popTurn_kept a
  · obtain ⟨es, hes, hh⟩ := hb.record
    obtain ⟨hinit, hnormal⟩ := hes.no_acknowledgment
    exact hpop.of_uncounted hb.coreMode_eq hh hinit hnormal

/-! ## A pending request on a fair bus -/

section
variable {s t : State} {σ : Nat → State} {τ : Nat → Turn}

theorem StateInv.takeTurn_kept {u : Turn} (h : StateInv s) (ht : takeTurn u s = .next t) : StateInv t := by
  cases u with
  | block => exact h.blockCase_kept (blockTurn_cases s t ht)
  | core a =>
    cases ht
    exact h.coreStep_kept a

theorem IsRun.stateInv (hrun : IsRun σ τ) (h : StateInv (σ 0)) (n : Nat) : StateInv (σ n) := by
  induction n with
  | zero => exact h
  | succ n ih => exact ih.takeTurn_kept (hrun n)

/-- A request is pending in Normal only (10_state.md R51 (f)), where CORE may consume it. -/
theorem StateInv.txDone_enabled_of_txrq (h : StateInv s) (hq : s.txrq = true) : coreEnabled .txDone s = true := by
  have hnormal : s.coreMode = .normal := by simpa [quietFits, hq] using h.quiet
  exact (txDone_enabled s).mpr ⟨hnormal, hq⟩

end

/-- Settles O58: a request that stayed pending would keep TX_DONE enabled, and the turn that the fair bus then brings
clears it. -/
theorem pendingRequestClearedUnderBusOk : Obligations.PendingRequestClearedUnderBusOk := by
  unfold Obligations.PendingRequestClearedUnderBusOk
  intro σ τ hrun hbus hinv n _
  by_contra! hpending
  have hq : ∀ m, n ≤ m → (σ m).txrq = true := fun m hm => Bool.eq_true_of_not_eq_false (hpending m hm)
  have hen : ∀ m, n ≤ m → coreEnabled .txDone (σ m) = true :=
    fun m hm => (hrun.stateInv hinv m).txDone_enabled_of_txrq (hq m hm)
  obtain ⟨m, hm, hturn⟩ := hbus n hen
  have hnext := hrun m
  rw [hturn, takeTurn, coreStep_enabled _ _ (hen m hm)] at hnext
  injection hnext with hnext
  have hcleared := coreEffect_txDone_txrq (σ m)
  rw [hnext, hq (m + 1) (by omega)] at hcleared
  cases hcleared

end Sys2Proof.Machine
end

section
/-! PROOF. What no rule reads: a running command does not see the port and nothing sees the history (48_core_agent.md
R241, R251, 20_memory.md R84). A change of the port and of what was recorded before commutes with every operation, so
with every step. -/

namespace Sys2Proof.Machine

/-- The state with another port and with `h` recorded before its history. -/
def State.reworded (p : List CmdWord → List CmdWord) (h : List Event) (s : State) : State :=
  { s with port := p s.port, history := h ++ s.history }

/-- What a turn answers, with its next state changed. -/
def mapNext (f : State → State) : Host.Outcome State Fault Refusal → Host.Outcome State Fault Refusal
  | .next s => .next (f s)
  | .fault r => .fault r
  | .refused r => .refused r

section
variable {p : List CmdWord → List CmdWord} {h : List Event}

@[simp] theorem reworded_upc (s : State) : (s.reworded p h).upc = s.upc := rfl
@[simp] theorem reworded_coreMode (s : State) : (s.reworded p h).coreMode = s.coreMode := rfl
@[simp] theorem reworded_cursor (s : State) : (s.reworded p h).cursor = s.cursor := rfl
@[simp] theorem reworded_poll (s : State) : (s.reworded p h).poll = s.poll := rfl
@[simp] theorem reworded_fifo (s : State) : (s.reworded p h).fifo = s.fifo := rfl
@[simp] theorem reworded_draws (s : State) : (s.reworded p h).draws = s.draws := rfl

/-! ## The shared operations -/

theorem seqRead_reworded (r : Reg) (s : State) : seqRead r (s.reworded p h) = seqRead r s := by
  cases r <;> rfl

theorem mailboxWrite_reworded {f : State → State} (hf : ∀ s, f (s.reworded p h) = (f s).reworded p h) (s : State) :
    mailboxWrite f (s.reworded p h) = (mailboxWrite f s).reworded p h := by
  cases hq : s.txrq with
  | false => rw [mailboxWrite_free f s hq, mailboxWrite_free f (s.reworded p h) hq, hf]
  | true =>
    rw [mailboxWrite_pending f s hq, mailboxWrite_pending f (s.reworded p h) hq, hf, reworded_draws]
    split <;> rfl

theorem writeReg_reworded (r : Reg) (v : Word) (s : State) :
    writeReg r v (s.reworded p h) = (writeReg r v s).reworded p h := by
  cases r with
  | txid | txdt | txdl | txdh =>
    rw [writeReg, writeReg, mailboxWrite_reworded]
    exact fun _ => rfl
  | rxf =>
    rw [writeReg_rxf, writeReg_rxf]
    split <;> rfl
  | _ => rfl

theorem fieldWrite_reworded (f : Field) (v : Word) (s : State) :
    fieldWrite f v (s.reworded p h) = (fieldWrite f v s).reworded p h := by
  rw [fieldWrite, seqRead_reworded, writeReg_reworded, fieldWrite]

theorem memWrite_reworded (a : Nat) (v : Word) (s : State) :
    memWrite a v (s.reworded p h) = (memWrite a v s).map (State.reworded p h) := by
  rw [memWrite, memWrite]
  cases regAt a with
  | none => rfl
  | some r => exact congrArg some (writeReg_reworded r v s)

theorem upperHalfWrite_reworded (a : Nat) (x : Half) (s : State) :
    upperHalfWrite a x (s.reworded p h) = (upperHalfWrite a x s).map (State.reworded p h) := by
  rw [upperHalfWrite, upperHalfWrite, memRead, memRead]
  cases regAt a with
  | none => rfl
  | some r =>
    simp only [seqRead_reworded]
    exact memWrite_reworded a _ s

theorem afterAccess_reworded (a : Nat) (u : Upc) (x : Option State) :
    afterAccess a u (x.map (State.reworded p h)) = mapNext (State.reworded p h) (afterAccess a u x) := by
  cases x <;> rfl

theorem afterMailboxRead_reworded (s : State) :
    afterMailboxRead (s.reworded p h) = (afterMailboxRead s).reworded p h := by
  rw [afterMailboxRead, afterMailboxRead, reworded_fifo]
  split <;> rfl

theorem retire_reworded (rw : CmdWord) (s : State) :
    (s.reworded p h).retire rw = (s.retire rw).reworded p h := by
  simp only [State.retire, State.reworded, List.append_assoc]

theorem record_reworded (e : Event) (s : State) : (s.reworded p h).record e = (s.record e).reworded p h := by
  simp only [State.record, State.reworded, List.append_assoc]

theorem refuse_reworded (w : CmdWord) (s : State) : (s.reworded p h).refuse w = (s.refuse w).reworded p h := by
  simp only [State.refuse, State.reworded, List.append_assoc]

theorem issue_reworded (i : Instr) (s : State) : issue i (s.reworded p h) = (issue i s).reworded p h := by
  by_cases hm : s.mode = gateMode i
  · rw [issue_accepted i s hm, issue_accepted i (s.reworded p h) hm]
    simp only [State.reworded, List.append_assoc]
  · rw [issue_refused i s hm, issue_refused i (s.reworded p h) hm, refuse_reworded]

/-! ## The commands -/

theorem initI2_reworded (prof : Profile) (s : State) :
    initI2 prof (s.reworded p h) = (initI2 prof s).reworded p h := by
  rw [initI2_eq, initI2_eq, reworded_coreMode]
  split <;> rfl

theorem initI6_reworded (s : State) : initI6 (s.reworded p h) = (initI6 s).reworded p h := by
  rw [initI6_eq, initI6_eq, reworded_coreMode]
  split <;> rfl

theorem execInit_reworded (sel : Byte) (s : State) :
    execInit sel (s.reworded p h) = mapNext (State.reworded p h) (execInit sel s) := by
  rw [execInit, execInit, reworded_upc]
  cases s.upc
  case idle => exact congrArg Host.Outcome.next (issue_reworded _ s)
  case i1 | i4a | i4b | i4e | i5 =>
    simp only [initI1, initI4a, initI4b, initI4e, initI5, fieldWrite_reworded]
    rfl
  case i3 | i4c | i4d =>
    simp only [initI3, initI4c, initI4d, writeReg_reworded]
    rfl
  case i2 prof => exact congrArg Host.Outcome.next (initI2_reworded prof s)
  case i6 => exact congrArg Host.Outcome.next (initI6_reworded s)
  case i7 => exact congrArg Host.Outcome.next (retire_reworded doneWord { s with mode := .normal })
  all_goals rfl

theorem execAlloc_reworded (id : Ident) (s : State) :
    execAlloc id (s.reworded p h) = mapNext (State.reworded p h) (execAlloc id s) := by
  rw [execAlloc, execAlloc, reworded_upc]
  cases s.upc
  case idle => exact congrArg Host.Outcome.next (issue_reworded _ s)
  case a0 =>
    simp only [allocA0, reworded_cursor, retire_reworded]
    split <;> rfl
  case a1 | a3b | a3e =>
    simp only [allocA1, allocA3b, allocA3e, fieldWrite_reworded]
    rfl
  case a3a bank slot x =>
    simp only [allocA3a, fieldWrite_reworded, upperHalfWrite_reworded, memWrite_reworded, afterAccess_reworded]
    rcases slot_cases slot with rfl | rfl | rfl | rfl <;> rfl
  case a3c | a3d => simp only [allocA3c, allocA3d, memWrite_reworded, afterAccess_reworded]
  case a5 =>
    simp only [allocA5, fieldWrite_reworded]
    exact congrArg Host.Outcome.next (retire_reworded doneWord { fieldWrite finitField 0 s with mode := .normal })
  all_goals rfl

theorem txT6_reworded (s : State) : txT6 (s.reworded p h) = (txT6 s).reworded p h := by
  cases hq : s.txrq with
  | false => rw [txT6_clear s hq, txT6_clear (s.reworded p h) hq, retire_reworded]
  | true =>
    rw [txT6_pending s hq, txT6_pending (s.reworded p h) hq, reworded_poll]
    split
    · exact retire_reworded notDoneWord { s with poll := s.poll + 1 }
    · rfl

theorem execTx_reworded (id : Ident) (len : Byte) (d : Payload) (s : State) :
    execTx id len d (s.reworded p h) = mapNext (State.reworded p h) (execTx id len d s) := by
  rw [execTx, execTx, reworded_upc]
  cases s.upc
  case idle => exact congrArg Host.Outcome.next (issue_reworded _ s)
  case t1 | t3 | t4 =>
    simp only [txT1, txT3, txT4, writeReg_reworded]
    rfl
  case t2 | t5 =>
    simp only [txT2, txT5, fieldWrite_reworded]
    rfl
  case t6 => exact congrArg Host.Outcome.next (txT6_reworded s)
  all_goals rfl

theorem execAvail_reworded (s : State) :
    execAvail (s.reworded p h) = mapNext (State.reworded p h) (execAvail s) := by
  rw [execAvail, execAvail, reworded_upc]
  cases s.upc
  case idle => exact congrArg Host.Outcome.next (issue_reworded _ s)
  case v1 =>
    simp only [availV1, seqRead_reworded, retire_reworded]
    rfl
  all_goals rfl

theorem execRx_reworded (s : State) :
    execRx (s.reworded p h) = mapNext (State.reworded p h) (execRx s) := by
  rw [execRx, execRx, reworded_upc]
  cases s.upc
  case idle => exact congrArg Host.Outcome.next (issue_reworded _ s)
  case r5 =>
    simp only [rxR5, fieldWrite_reworded, retire_reworded]
    rfl
  case r1 | r2 | r3 | r4 =>
    simp only [rxR1, rxR2, rxR3, rxR4, seqRead_reworded, afterMailboxRead_reworded]
    rfl
  all_goals rfl

theorem exec_reworded (i : Instr) (s : State) :
    exec i (s.reworded p h) = mapNext (State.reworded p h) (exec i s) := by
  cases i with
  | init sel => exact execInit_reworded sel s
  | alloc id => exact execAlloc_reworded id s
  | tx id len d => exact execTx_reworded id len d s
  | avail => exact execAvail_reworded s
  | rx => exact execRx_reworded s

/-! ## The turns -/

theorem coreEffect_reworded (a : CoreAct) (s : State) :
    coreEffect a (s.reworded p h) = (coreEffect a s).reworded p h := by
  cases a with
  | ackInit => exact record_reworded (p := p) (h := h) .ackInit { s with coreMode := .init }
  | ackNormal => exact record_reworded (p := p) (h := h) .ackNormal { s with coreMode := .normal }
  | txDone =>
    exact record_reworded (p := p) (h := h) (.txConsumed (mailboxFrame s)) { s with txid := s.txid &&& ~~~1#32 }
  | rxPush f => exact record_reworded (p := p) (h := h) (.rxDeposited f) { s with fifo := s.fifo ++ [f] }

theorem coreStep_reworded (a : CoreAct) (s : State) :
    coreStep a (s.reworded p h) = (coreStep a s).reworded p h := by
  have henabled : coreEnabled a (s.reworded p h) = coreEnabled a s := by cases a <;> rfl
  cases ha : coreEnabled a s with
  | false => rw [coreStep_not_enabled a s ha, coreStep_not_enabled a _ (henabled.trans ha)]
  | true => rw [coreStep_enabled a s ha, coreStep_enabled a _ (henabled.trans ha), coreEffect_reworded]

/-- A busy block without a legal word in its latch stops (log 13). -/
theorem blockTurn_badLatch {s : State} {c : Illegal} (hu : s.upc ≠ .idle) (hd : decode s.cw = .error c) :
    blockTurn s = .fault .badLatch := by
  simp only [blockTurn, hd]

/-- A busy block runs what it latched, whatever the port (R251). -/
theorem blockTurn_reworded_busy {s : State} (hu : s.upc ≠ .idle) :
    blockTurn (s.reworded p h) = mapNext (State.reworded p h) (blockTurn s) := by
  cases hd : decode s.cw with
  | ok i => rw [blockTurn_busy s i hu hd, blockTurn_busy (s.reworded p h) i hu hd, exec_reworded]
  | error c =>
    rw [blockTurn_badLatch hu hd, blockTurn_badLatch (s := s.reworded p h) hu hd]
    rfl

/-- An idle block takes the head of the port, whatever the history. -/
theorem blockTurn_reworded_idle {s : State} (hu : s.upc = .idle) :
    blockTurn (s.reworded id h) = mapNext (State.reworded id h) (blockTurn s) := by
  cases hp : s.port with
  | nil =>
    rw [blockTurn_quiet s hu hp, blockTurn_quiet (s.reworded id h) hu hp]
    rfl
  | cons w ws =>
    cases hd : decode w with
    | ok i =>
      rw [blockTurn_issue s w ws i hu hp hd, blockTurn_issue (s.reworded id h) w ws i hu hp hd]
      exact exec_reworded (p := id) (h := h) i { s with port := ws }
    | error c =>
      rw [blockTurn_illegal s w ws c hu hp hd, blockTurn_illegal (s.reworded id h) w ws c hu hp hd]
      exact congrArg Host.Outcome.next (refuse_reworded (p := id) (h := h) w { s with port := ws })

/-- A step is the same whatever was recorded before, and from a busy block whatever waits at the port. -/
theorem step_reworded {s : State} (hp : s.upc ≠ .idle ∨ p = id) :
    step (s.reworded p h) = mapNext (State.reworded p h) (step s) := by
  cases hn : nextTurn s with
  | core a =>
    rw [step_core s a hn, step_core (s.reworded p h) a hn]
    exact congrArg Host.Outcome.next (coreStep_reworded a s.popTurn)
  | block =>
    rw [step_block s hn, step_block (s.reworded p h) hn]
    by_cases hu : s.upc = .idle
    · obtain rfl := hp.resolve_left (not_not_intro hu)
      exact blockTurn_reworded_idle (s := s.popTurn) hu
    · exact blockTurn_reworded_busy (s := s.popTurn) hu

end

theorem mapNext_eq_next {f : State → State} {o : Host.Outcome State Fault Refusal} {t : State}
    (h : mapNext f o = .next t) : ∃ u, o = .next u ∧ t = f u := by
  cases o with
  | next u => cases h; exact ⟨u, rfl, rfl⟩
  | fault r | refused r => cases h

/-! ## The port -/

section
variable {i : Instr} {s t : State}

theorem SeqStep.port_eq (hs : SeqStep i s t) : t.port = s.port := by
  cases hs <;> rfl

/-- Only an idle block takes a word from the port or latches one. -/
theorem step_busy_latch_port (hu : s.upc ≠ .idle) (h : step s = .next t) : t.cw = s.cw ∧ t.port = s.port := by
  rcases step_cases s t h with ⟨a, -, rfl⟩ | ⟨-, hb⟩
  · rw [coreStep_registers]
    exact ⟨rfl, rfl⟩
  · cases hb with
    | quiet hidle | illegal _ _ _ hidle | accepted _ _ _ hidle | gated _ _ _ hidle => exact absurd hidle hu
    | seq i _ _ hs => exact ⟨hs.cw_eq, hs.port_eq⟩

end

/-- Settles O50: SEQ and CORE leave the latch and the port, and a busy block's step commutes with another port. -/
theorem busyBlockIgnoresThePort : Obligations.BusyBlockIgnoresThePort := by
  unfold Obligations.BusyBlockIgnoresThePort
  intro s t ws hu hstep
  obtain ⟨hcw, hport⟩ := step_busy_latch_port hu hstep
  have hother := step_reworded (p := fun _ => ws) (h := []) (.inl hu)
  rw [hstep] at hother
  exact ⟨hcw, hport, hother⟩

/-! ## The history -/

/-- Settles O51: what the step appends is what it records from an empty history, before which any other may stand. -/
theorem historyIsOnlyRecorded : Obligations.HistoryIsOnlyRecorded := by
  unfold Obligations.HistoryIsOnlyRecorded
  intro s t h hstep
  have hafter (before : List Event) : step { s with history := before } =
      mapNext (State.reworded id before) (step { s with history := [] }) := by
    rw [← step_reworded (.inr rfl), State.reworded, List.append_nil]
    rfl
  rw [hafter] at hstep
  obtain ⟨u, hu, rfl⟩ := mapNext_eq_next hstep
  refine ⟨u.history, rfl, ?_⟩
  rw [hafter, hu]
  rfl

end Sys2Proof.Machine
end

section
/-! PROOF. The refusal (60_exceptions.md R264 to R266) and the transitions of MODE and of CURSOR (60_exceptions.md R271,
10_state.md R41): SEQ's steps say from which label each may change and to what, and the invariant what held there. -/

namespace Sys2Proof.Machine

/-- Settles O15: at IDLE a command's meaning is its Issue, which the gate refuses or accepts; an illegal word is refused
where the block takes it from the port. -/
theorem refusalChangesNothing : Obligations.RefusalChangesNothing := by
  unfold Obligations.RefusalChangesNothing
  refine ⟨fun i s hu hm => ?_, fun s w ws c hn hu hp hd => ?_, fun i s hu hm => ?_⟩
  · have hgate : s.mode ≠ gateMode i := by cases i <;> exact hm
    rw [exec_idle i s hu, issue_refused i s hgate]
    rfl
  · rw [step_block s hn]
    exact blockTurn_illegal s.popTurn w ws c hu hp hd
  · refine ⟨issue i s, exec_idle i s hu, ?_⟩
    rw [issue_accepted i s hm]
    exact ⟨firstLabel_ne_idle i, rfl⟩

section
variable {i : Instr} {s t : State}

/-! ## MODE and CURSOR in SEQ's steps -/

theorem SeqStep.mode_cases (h : SeqStep i s t) :
    t.mode = s.mode ∨ (s.upc = .i0 ∧ t.mode = .initializing) ∨ (s.upc = .i7 ∧ t.mode = .normal) ∨
      (s.upc = .a1 ∧ t.mode = .filterConfiguration) ∨ (s.upc = .a5 ∧ t.mode = .normal) := by
  cases h
  case i0 hu => exact .inr (.inl ⟨hu, rfl⟩)
  case i7 hu => exact .inr (.inr (.inl ⟨hu, rfl⟩))
  case a1 hu => exact .inr (.inr (.inr (.inl ⟨hu, rfl⟩)))
  case a5 hu => exact .inr (.inr (.inr (.inr ⟨hu, rfl⟩)))
  all_goals exact .inl rfl

theorem SeqStep.cursor_cases (h : SeqStep i s t) :
    t.cursor = s.cursor ∨ (s.upc = .i0 ∧ t.cursor = 0) ∨ (s.upc = .a4 ∧ t.cursor = s.cursor + 1) := by
  cases h
  case i0 hu => exact .inr (.inl ⟨hu, rfl⟩)
  case a4 hu => exact .inr (.inr ⟨hu, rfl⟩)
  all_goals exact .inl rfl

/-- MODE and CURSOR are private to SEQ (10_state.md R40, R41): no other turn changes them. -/
theorem step_seq_or_private_kept (h : step s = .next t) :
    (∃ i, SeqStep i s.popTurn t) ∨ (t.mode = s.mode ∧ t.cursor = s.cursor) := by
  rcases step_agent h with ⟨a, -, rfl⟩ | hs | hsame
  · rw [coreEffect_registers]
    exact .inr ⟨rfl, rfl⟩
  · exact .inl hs
  · rw [hsame]
    exact .inr ⟨rfl, rfl⟩

/-! ## The invariant at the labels that change them -/

theorem StateInv.uninitialized_of_i0 (h : StateInv s) (hu : s.upc = .i0) : s.mode = .uninitialized := by
  simpa [modeFits, hu] using h.mode

/-- INIT retires only after ACK_NORMAL (41_mode_control.md R156). -/
theorem StateInv.acknowledged_of_i7 (h : StateInv s) (hu : s.upc = .i7) :
    s.mode = .initializing ∧ s.coreMode = .normal := by
  have hm : s.mode = .initializing := by simpa [modeFits, hu] using h.mode
  obtain ⟨-, hc⟩ : s.inrq = false ∧ s.coreMode = .normal := by simpa [coreFits, hu, hm] using h.core
  exact ⟨hm, hc⟩

theorem StateInv.unsaturated_of_a1 (h : StateInv s) (hu : s.upc = .a1) :
    s.mode = .normal ∧ s.cursor.toNat < 112 :=
  ⟨by simpa [modeFits, hu] using h.mode, by simpa [cursorFits, hu] using h.cursor⟩

theorem StateInv.unsaturated_of_a4 (h : StateInv s) (hu : s.upc = .a4) : s.cursor.toNat < 112 := by
  simpa [cursorFits, hu] using h.cursor

theorem StateInv.mode_of_a5 (h : StateInv s) (hu : s.upc = .a5) : s.mode = .filterConfiguration :=
  h.filterConfiguration_iff.mpr (by rw [hu]; rfl)

end

/-- Settles O47: at each label that changes MODE or CURSOR the invariant gives the value before; at I0 CURSOR is 0
already. -/
theorem modeAndCursorTransitions : Obligations.ModeAndCursorTransitions := by
  unfold Obligations.ModeAndCursorTransitions
  intro s t h hstep
  rcases step_seq_or_private_kept hstep with ⟨i, hs⟩ | ⟨hmode, hcursor⟩
  · constructor
    · intro hne
      rcases hs.mode_cases with hkept | ⟨hu, ht⟩ | ⟨hu, ht⟩ | ⟨hu, ht⟩ | ⟨hu, ht⟩
      · exact absurd hkept hne
      · exact .inl ⟨h.uninitialized_of_i0 hu, ht, hu⟩
      · obtain ⟨hm, hc⟩ := h.acknowledged_of_i7 hu
        exact .inr (.inl ⟨hm, ht, hu, hc⟩)
      · obtain ⟨hm, hc⟩ := h.unsaturated_of_a1 hu
        exact .inr (.inr (.inl ⟨hm, ht, hu, hc⟩))
      · exact .inr (.inr (.inr ⟨h.mode_of_a5 hu, ht, hu⟩))
    · rcases hs.cursor_cases with hkept | ⟨hu, ht⟩ | ⟨hu, ht⟩
      · exact .inl hkept
      · obtain ⟨hzero, -⟩ := h.untouched_of_uninitialized (h.uninitialized_of_i0 hu)
        exact .inl (ht.trans hzero.symm)
      · rw [ht]
        exact .inr ⟨hu, cursor_succ_toNat (h.unsaturated_of_a4 hu)⟩
  · exact ⟨absurd hmode, .inl hcursor⟩

end Sys2Proof.Machine
end
